-- ==== Sys2Proof/Word.lean ====
section
/-! DEFINITION. The words of SYMCODEC: bytes, 32-bit registers, 16-bit dimensions, 2-bit symbols (00_scope.md R11, R12). -/

namespace Sys2Proof

/-- A byte: a memory cell, a colour channel, THRESH. -/
abbrev Byte := BitVec 8

/-- A 32-bit register or command word (10_state.md R21). -/
abbrev Word := BitVec 32

/-- A 16-bit dimension register: WIDTH, HEIGHT, BSIZE, IN_WIDTH, IN_HEIGHT (10_state.md R33 to R35, R44). -/
abbrev Half := BitVec 16

/-- A 2-bit symbol: BLACK = 0, RED = 1, GREEN = 2, BLUE = 3 (00_scope.md R17). -/
abbrev Sym := BitVec 2

end Sys2Proof
end

