-- ==== Sys2Proof/Syntax.lean ====
section
/-! DEFINITION. The sixteen commands of SYMCODEC command set 1 (30_encoding.md R95). -/

namespace Sys2Proof

/-- A command. Operands other than CLS come from registers (30_encoding.md R92, R99). -/
inductive Instr where
  | nop
  | config
  | abort
  | iofail
  | sreset
  | pack
  | unpack
  /-- SYMCOLOR with its class field (30_encoding.md R93). -/
  | symcolor (cls : BitVec 3)
  | classify
  /-- WRBLK with its class field (30_encoding.md R93). -/
  | wrblk (cls : BitVec 3)
  | rdblk
  | encStart
  | encFrame
  | decStart
  | decFrame
  | decEnd
deriving DecidableEq, Repr

end Sys2Proof
end

