-- ==== Sys2Proof/WellFormed.lean ====
section
/-! DEFINITION. Which commands are legal: CLS of a format-C command is 0 .. 4 (30_encoding.md R94). -/

namespace Sys2Proof

/-- CLS 5, 6 and 7 are illegal; every format-N command is legal (30_encoding.md R94, R97). -/
def Instr.wellFormed : Instr → Bool
  | .symcolor cls => cls.toNat ≤ 4
  | .wrblk cls => cls.toNat ≤ 4
  | .nop => true
  | .config => true
  | .abort => true
  | .iofail => true
  | .sreset => true
  | .pack => true
  | .unpack => true
  | .classify => true
  | .rdblk => true
  | .encStart => true
  | .encFrame => true
  | .decStart => true
  | .decFrame => true
  | .decEnd => true

end Sys2Proof
end

