-- ==== Sys2Proof/Decode.lean ====
section
/-! DEFINITION. Command words: the opcode map, the decoder and the encoder (30_encoding.md R90 to R97). -/

namespace Sys2Proof

/-- The two formats (30_encoding.md R90). -/
inductive Format where
  /-- No field: CLS must be 0 (R92). -/
  | n
  /-- A class field (R93). -/
  | c
deriving DecidableEq, Repr

/-- Why a word is no command; each of them raises ILLEGAL_COMMAND (30_encoding.md R96, R97). -/
inductive Illegal where
  | unassignedOpcode
  | reservedBits
  | classInFormatN
  | illegalClass
deriving DecidableEq, Repr

/-- One row of the opcode map: `make cls` is the command whose class field is `cls`. -/
structure OpRow where
  op   : Byte
  fmt  : Format
  make : BitVec 3 → Instr

/-- OP = w[7:0] (30_encoding.md R91). -/
def fieldOp (w : Word) : Byte := w.extractLsb' 0 8

/-- CLS = w[10:8] (30_encoding.md R91). -/
def fieldCls (w : Word) : BitVec 3 := w.extractLsb' 8 3

/-- RSV = w[31:11] (30_encoding.md R91). -/
def fieldRsv (w : Word) : BitVec 21 := w.extractLsb' 11 21

/-- The control and BitPacker rows of 30_encoding.md R95. -/
def controlRows : List OpRow :=
  [ ⟨0x00#8, .n, fun _ => .nop⟩,
    ⟨0x01#8, .n, fun _ => .config⟩,
    ⟨0x02#8, .n, fun _ => .abort⟩,
    ⟨0x03#8, .n, fun _ => .iofail⟩,
    ⟨0x0F#8, .n, fun _ => .sreset⟩,
    ⟨0x10#8, .n, fun _ => .pack⟩,
    ⟨0x11#8, .n, fun _ => .unpack⟩ ]

/-- The FrameCodec rows of 30_encoding.md R95. -/
def frameRows : List OpRow :=
  [ ⟨0x20#8, .c, fun cls => .symcolor cls⟩,
    ⟨0x21#8, .n, fun _ => .classify⟩,
    ⟨0x22#8, .c, fun cls => .wrblk cls⟩,
    ⟨0x23#8, .n, fun _ => .rdblk⟩ ]

/-- The ChunkSequencer rows of 30_encoding.md R95. -/
def sequencerRows : List OpRow :=
  [ ⟨0x30#8, .n, fun _ => .encStart⟩,
    ⟨0x31#8, .n, fun _ => .encFrame⟩,
    ⟨0x38#8, .n, fun _ => .decStart⟩,
    ⟨0x39#8, .n, fun _ => .decFrame⟩,
    ⟨0x3A#8, .n, fun _ => .decEnd⟩ ]

/-- The opcode map (30_encoding.md R95). -/
def opcodeMap : List OpRow := controlRows ++ frameRows ++ sequencerRows

/-- The row of an opcode; none for an unassigned OP. -/
def opcodeRow (op : Byte) : Option OpRow := opcodeMap.find? (fun r => r.op == op)

/-- The decoder, for ERR = 0: the tests of 30_encoding.md R96 in their order. -/
def decode (w : Word) : Except Illegal Instr :=
  match opcodeRow (fieldOp w) with
  | none => .error .unassignedOpcode
  | some r =>
    if fieldRsv w ≠ 0 then .error .reservedBits
    else if r.fmt = .n ∧ fieldCls w ≠ 0 then .error .classInFormatN
    else if r.fmt = .c ∧ 4 < (fieldCls w).toNat then .error .illegalClass
    else .ok (r.make (fieldCls w))

/-- The decoder on an opcode-table row's bits: the `nbits` low bits of `w`, every bit above them 0.
A command is one 32-bit word (30_encoding.md R90, R101), so a longer one is refused. -/
def decodeTableWord (nbits w : Nat) : Option Instr :=
  if w % 2 ^ nbits < 2 ^ 32 then (decode (BitVec.ofNat 32 (w % 2 ^ nbits))).toOption else none

/-- OP of a command (30_encoding.md R95). -/
def Instr.opcode : Instr → Byte
  | .nop => 0x00#8
  | .config => 0x01#8
  | .abort => 0x02#8
  | .iofail => 0x03#8
  | .sreset => 0x0F#8
  | .pack => 0x10#8
  | .unpack => 0x11#8
  | .symcolor _ => 0x20#8
  | .classify => 0x21#8
  | .wrblk _ => 0x22#8
  | .rdblk => 0x23#8
  | .encStart => 0x30#8
  | .encFrame => 0x31#8
  | .decStart => 0x38#8
  | .decFrame => 0x39#8
  | .decEnd => 0x3A#8

/-- CLS of a command: 0 in format N (30_encoding.md R92, R93). -/
def Instr.classField : Instr → BitVec 3
  | .symcolor cls => cls
  | .wrblk cls => cls
  | .nop => 0#3
  | .config => 0#3
  | .abort => 0#3
  | .iofail => 0#3
  | .sreset => 0#3
  | .pack => 0#3
  | .unpack => 0#3
  | .classify => 0#3
  | .rdblk => 0#3
  | .encStart => 0#3
  | .encFrame => 0#3
  | .decStart => 0#3
  | .decFrame => 0#3
  | .decEnd => 0#3

/-- The command word: zeros, CLS, OP (30_encoding.md R92, R93). -/
def encode (i : Instr) : Word := (0#21 ++ i.classField ++ i.opcode : BitVec 32)

end Sys2Proof
end

