-- ==== Sys2Proof/Config.lean ====
section
/-! DEFINITION. What an implementation of the block fixes (00_scope.md R7), and the free values (20_memory.md R66). -/

namespace Sys2Proof

/-- The parameters of one built block (00_scope.md R7). Configuration, not state (10_state.md R54). -/
structure Params where
  /-- MAX_PIXELS: the pixel capacity of RAST. -/
  maxPixels : Nat
  /-- SRC_BYTES: the byte capacity of SRC. -/
  srcBytes  : Nat
  /-- ACC_BYTES: the byte capacity of ACC. -/
  accBytes  : Nat
deriving DecidableEq, Repr

/-- The constraints of 00_scope.md R7. -/
abbrev Params.ok (p : Params) : Prop :=
  (4 ≤ p.maxPixels ∧ p.maxPixels ≤ 2 ^ 30)
    ∧ (1 ≤ p.srcBytes ∧ p.srcBytes ≤ 2 ^ 32 - 1)
    ∧ (1 ≤ p.accBytes ∧ p.accBytes ≤ 2 ^ 32 - 1)

/-- MAX_PIXELS of this hardware: 1920 x 1080 (00_scope.md R7). -/
def Config.maxPixels : Nat := 2073600

/-- SRC_BYTES - 1, a value nothing fixes: SRC_BYTES is OPEN in 1 .. 2^32 - 1 (00_scope.md R7; log 4). -/
opaque Config.srcCode : Fin 4294967295

/-- ACC_BYTES - 1, a value nothing fixes: ACC_BYTES is OPEN in 1 .. 2^32 - 1 (00_scope.md R7; log 4). -/
opaque Config.accCode : Fin 4294967295

/-- The free values of reads of never-written bytes: the n-th such read of a run returns `freeByte n`
(20_memory.md R66; log 2). -/
opaque Config.freeByte : Nat → Byte

end Sys2Proof
end

