-- ==== Sys2Proof/Machine/State.lean ====
section
/-! DEFINITION. The state of the block (10_state.md R21, R24, R54), the host accesses that drive it, and why a step can stop. -/

namespace Sys2Proof.Machine

/-- STATUS.MODE (10_state.md R24, R26): no stream, an encode stream, a decode stream. The value 3 is never held. -/
inductive Mode where
  | idle
  | enc
  | dec
deriving DecidableEq, Repr

/-- STATUS.ERRCODE (60_exceptions.md R250), in the order of the codes 0 .. 7. -/
inductive ErrCode where
  | none
  | configError
  | ioError
  | formatError
  | missingTerminator
  | sequenceError
  | illegalCommand
  | rangeError
deriving DecidableEq, Repr

/-- The five classes (41_framecodec.md R140): four data symbols and the Sentinel. -/
inductive Class where
  | black
  | red
  | green
  | blue
  | sentinel
deriving DecidableEq, Repr

/-- The three byte memories (20_memory.md R60). -/
inductive Space where
  | src
  | rast
  | acc
deriving DecidableEq, Repr

/-- The registers of the map (10_state.md R21), in the order of their offsets. -/
inductive Reg where
  | cmd
  | status
  | width
  | height
  | bsize
  | thresh
  | gridw
  | gridh
  | grid
  | cap
  | seq
  | srcLen
  | srcPos
  | chunkLen
  | accLen
  | errSeq
  | inWidth
  | inHeight
  | arg
  | result
deriving DecidableEq, Repr

/-- What the outside world does to the block, one at a time: the host's bus and memory accesses
(20_memory.md R61, R72) and the two resets that are not commands (70_reset_and_hazards.md R290, R292). -/
inductive HostAccess where
  /-- A register read of `bytes` bytes at byte offset `off`. -/
  | readReg  (off : BitVec 8) (bytes : Nat)
  /-- A register write of `bytes` bytes at byte offset `off`; a write of CMD is a command (10_state.md R47). -/
  | writeReg (off : BitVec 8) (bytes : Nat) (v : Word)
  /-- A read of one byte of a memory. -/
  | readMem  (sp : Space) (a : Nat)
  /-- A write of one byte of a memory. -/
  | writeMem (sp : Space) (a : Nat) (b : Byte)
  /-- The reset input RST while powered. -/
  | hardReset
  /-- Power-on. -/
  | powerOn
deriving DecidableEq, Repr

/-- The STATUS register by its fields (10_state.md R24). -/
structure Status where
  cfgValid : Bool
  mode     : Mode
  done     : Bool
  final    : Bool
  sent     : Bool
  err      : Bool
  busy     : Bool
  errCode  : ErrCode
deriving DecidableEq, Repr

/-- A byte memory: the bytes written since power-on with their addresses, addresses strictly rising.
An address that is not listed has never been written and holds no value (20_memory.md R66; 10_state.md R54). -/
abbrev Memory := List Host.Cell

/-- The canonical form of a memory. No value stands for an unlisted address, so no entry can equal it. -/
abbrev Memory.wf (m : Memory) : Prop := List.Pairwise (fun x y : Host.Cell => x.1 < y.1) m

/-- The complete state (10_state.md R54), and after it the model's own three fields. -/
structure State where
  status   : Status
  width    : Half
  height   : Half
  bsize    : Half
  thresh   : Byte
  gridw    : Word
  gridh    : Word
  grid     : Word
  cap      : Word
  seq      : Word
  srcLen   : Word
  srcPos   : Word
  chunkLen : Word
  accLen   : Word
  errSeq   : Word
  inWidth  : Half
  inHeight : Half
  arg      : Word
  result   : Word
  src      : Memory
  rast     : Memory
  acc      : Memory
  /-- The model's own: how many free bytes have been drawn (log 2). -/
  draws    : Nat
  /-- The model's own: the host accesses still to come, first first (log 1). -/
  pending  : List HostAccess
  /-- The model's own: the value the last host read returned (log 3). -/
  busData  : Word
deriving DecidableEq, Repr

/-- STATUS after reset (70_reset_and_hazards.md R290). -/
def Status.reset : Status :=
  { cfgValid := false, mode := .idle, done := false, final := false, sent := false, err := false, busy := false, errCode := .none }

/-- The block after power-on reset (10_state.md R21, R24; 70_reset_and_hazards.md R290, R292): no byte of any memory written. -/
def State.reset : State :=
  { status := Status.reset
    width := 1920, height := 1080, bsize := 4, thresh := 200
    gridw := 0, gridh := 0, grid := 0, cap := 0
    seq := 0, srcLen := 0, srcPos := 0, chunkLen := 0, accLen := 0, errSeq := 0
    inWidth := 0, inHeight := 0, arg := 0, result := 0
    src := [], rast := [], acc := []
    draws := 0, pending := [], busData := 0 }

/-- Why the machine stops with a fault. Neither is reachable from reset. -/
inductive Fault where
  /-- Raised by the engine's memory operations (`memRead`, `memWrite`) for bytes outside the space. Safe: 20_memory.md R80
  says no command makes such an access. -/
  | engineAddress (sp : Space) (a : Nat)
  /-- Raised by `decodeRaster` when `unpack` is given a symbol count that is no multiple of 4. Safe: 40_bitpacker.md R124
  says no command makes such a call. -/
  | partialSymbolGroup
deriving DecidableEq, Repr

/-- Why a host step or a command has no meaning. -/
inductive Refusal where
  /-- Raised by `exec` for a command that has no meaning yet. Safe. -/
  | notModelled (mnemonic : String)
  /-- Raised by `hostAccess` for a register access that is not an aligned 32-bit word (20_memory.md R61). Safe: the spec
  refuses that host step. -/
  | registerCycle (off : BitVec 8) (bytes : Nat)
  /-- Raised by `hostAccess` for a memory access outside the space (20_memory.md R72). Safe: the spec refuses that host step. -/
  | memoryCycle (sp : Space) (a : Nat)
  /-- Raised by `hostAccess` for an access other than a read of STATUS while BUSY = 1 (70_reset_and_hazards.md R297).
  Safe: the spec refuses that host step, and BUSY is never 1. -/
  | accessWhileBusy
deriving DecidableEq, Repr

end Sys2Proof.Machine
end

