-- ==== Sys2Proof/Machine/Ops.lean ====
section
/-! DEFINITION. The operations every command is made of: memory, draws, the error latch, reset. -/

namespace Sys2Proof.Machine

/-- The parameters of this block (00_scope.md R7): MAX_PIXELS fixed, SRC_BYTES and ACC_BYTES open (log 4). -/
def blockParams : Params :=
  { maxPixels := Config.maxPixels, srcBytes := Config.srcCode.val + 1, accBytes := Config.accCode.val + 1 }

/-- The size of a memory space in bytes (20_memory.md R60). -/
def spaceBytes (p : Params) : Space → Nat
  | .src => p.srcBytes
  | .rast => 4 * p.maxPixels
  | .acc => p.accBytes

/-! ### One memory -/

/-- The byte last written at an address; none where nothing has been written since power-on (20_memory.md R66). -/
def Memory.read? : Memory → Nat → Option Byte
  | [], _ => none
  | (k, b) :: m, a => if a = k then some b else Memory.read? m a

/-- The memory after a byte is written. Keeps the canonical form. -/
def Memory.write : Memory → Nat → Byte → Memory
  | [], a, b => [(a, b)]
  | (k, c) :: m, a, b =>
    if a < k then (a, b) :: (k, c) :: m
    else if a = k then (a, b) :: m
    else (k, c) :: Memory.write m a b

/-- Bytes written at rising addresses from `a`. -/
def Memory.writeBytes : Memory → Nat → List Byte → Memory
  | m, _, [] => m
  | m, a, b :: bs => Memory.writeBytes (m.write a b) (a + 1) bs

/-- A read of one byte when `d` free bytes have been drawn: the byte written there, else the next free byte
(20_memory.md R66; log 2). -/
def Memory.readByte (m : Memory) (a d : Nat) : Byte × Nat :=
  match m.read? a with
  | some b => (b, d)
  | none => (Config.freeByte d, d + 1)

/-- Reads of `n` bytes at rising addresses from `a`, each with its own draw. -/
def Memory.readBytes (m : Memory) : Nat → Nat → Nat → List Byte × Nat
  | _, 0, d => ([], d)
  | a, n + 1, d =>
    let (b, d₁) := m.readByte a d
    let (bs, d₂) := Memory.readBytes m (a + 1) n d₁
    (b :: bs, d₂)

/-! ### Byte order -/

/-- Bytes combined little-endian (00_scope.md R14; 20_memory.md R68). -/
def leValue : List Byte → Nat
  | [] => 0
  | b :: bs => b.toNat + 256 * leValue bs

/-- The `n` bytes of a value, least significant first (00_scope.md R14). -/
def leBytes : Nat → Nat → List Byte
  | 0, _ => []
  | n + 1, v => BitVec.ofNat 8 v :: leBytes n (v / 256)

/-! ### The engine's accesses -/

/-- The memory of a space. -/
def State.mem (s : State) : Space → Memory
  | .src => s.src
  | .rast => s.rast
  | .acc => s.acc

/-- The state with another memory in a space. -/
def State.setMem (s : State) (sp : Space) (m : Memory) : State :=
  match sp with
  | .src => { s with src := m }
  | .rast => { s with rast := m }
  | .acc => { s with acc := m }

/-- Whether `n` bytes at `a` lie inside the space (20_memory.md R60). No byte lies outside it. -/
abbrev inSpace (p : Params) (sp : Space) (a n : Nat) : Prop := n = 0 ∨ a + n ≤ spaceBytes p sp

/-- MemRead (00_scope.md R14) as its bytes in address order. -/
def memRead (p : Params) (sp : Space) (a n : Nat) (s : State) : Except Fault (List Byte × State) :=
  if inSpace p sp a n then
    let r := (s.mem sp).readBytes a n s.draws
    .ok (r.1, { s with draws := r.2 })
  else .error (.engineAddress sp a)

/-- MemWrite (00_scope.md R14) of bytes in address order. -/
def memWrite (p : Params) (sp : Space) (a : Nat) (bs : List Byte) (s : State) : Except Fault State :=
  if inSpace p sp a bs.length then .ok (s.setMem sp ((s.mem sp).writeBytes a bs))
  else .error (.engineAddress sp a)

/-! ### Errors and reset -/

/-- The error latch, `raise E` (60_exceptions.md R251): the block's one exception entry. -/
def raise (e : ErrCode) (s : State) : State :=
  { s with
    status := { s.status with err := true, errCode := e, mode := .idle }
    errSeq := s.seq }

/-- Every register at its reset value, the memories kept (43_control.md R225; 70_reset_and_hazards.md R290, R292):
the block's only return from an error (60_exceptions.md R256). The model's own fields are no registers and stay. -/
def resetRegisters (s : State) : State :=
  { State.reset with
    src := s.src, rast := s.rast, acc := s.acc
    draws := s.draws, pending := s.pending, busData := s.busData }

/-- Power-on: registers at reset, no byte of any memory written (70_reset_and_hazards.md R290, R292). Draws stay fresh. -/
def powerOn (s : State) : State :=
  { State.reset with draws := s.draws, pending := s.pending, busData := s.busData }

/-- The error gate of 30_encoding.md R96: while ERR = 1 a command is ignored (log 7). -/
def unlessError (s : State) (k : Host.Outcome State Fault Refusal) : Host.Outcome State Fault Refusal :=
  if s.status.err then .next s else k

/-- `raise E` as a command's outcome (00_scope.md R15). -/
def raising (e : ErrCode) (s : State) : Host.Outcome State Fault Refusal := .next (raise e s)

/-- A word that is no command (30_encoding.md R96, R97): ILLEGAL_COMMAND, or ignored while ERR = 1. -/
def illegalCommand (s : State) : Host.Outcome State Fault Refusal := unlessError s (raising .illegalCommand s)

/-- The outcome of a computation that may have stopped with a fault. -/
def orFault {α : Type} (r : Except Fault α) (k : α → Host.Outcome State Fault Refusal) : Host.Outcome State Fault Refusal :=
  match r with
  | .error f => .fault f
  | .ok x => k x

/-- A command that writes RESULT and nothing else (10_state.md R46). -/
def writeResult (v : Word) (s : State) : Host.Outcome State Fault Refusal := .next { s with result := v }

end Sys2Proof.Machine
end

