-- ==== Sys2Proof/Machine/Operands.lean ====
section
/-! DEFINITION. Operand forms: symbol lanes, class codes, the RGBA word, and the register bits each command reads
(30_encoding.md R99; 40_bitpacker.md R120; 20_memory.md R67; 41_framecodec.md R140 to R142). -/

namespace Sys2Proof.Machine

/-! ### Operands in ARG (30_encoding.md R99) -/

/-- ARG[7:0]: the byte of PACK, the four lanes of UNPACK, R of CLASSIFY. -/
def argByte (s : State) : Byte := s.arg.extractLsb' 0 8

/-- ARG[31:0] as a block index, unsigned: WRBLK and RDBLK. -/
def argBlock (s : State) : Nat := s.arg.toNat

/-! ### Symbol lanes (40_bitpacker.md R120) -/

/-- Lane k of an 8-bit value: bits [2k+1:2k]. -/
def lane (v : Byte) (k : Nat) : Sym := (v >>> (2 * k)).setWidth 2

/-- Four symbols in lanes, symbol 0 in lane 0. -/
def lanes (s₀ s₁ s₂ s₃ : Sym) : Byte :=
  (s₃.setWidth 8 <<< 6) ||| (s₂.setWidth 8 <<< 4) ||| (s₁.setWidth 8 <<< 2) ||| s₀.setWidth 8

/-! ### The RGBA word (20_memory.md R67) -/

/-- R of an RGBA word. -/
def redOf (w : Word) : Byte := w.extractLsb' 0 8

/-- G of an RGBA word. -/
def greenOf (w : Word) : Byte := w.extractLsb' 8 8

/-- B of an RGBA word. -/
def blueOf (w : Word) : Byte := w.extractLsb' 16 8

/-- A of an RGBA word; no command reads it (41_framecodec.md R144). -/
def alphaOf (w : Word) : Byte := w.extractLsb' 24 8

/-- The RGBA word of four channels. -/
def rgbaWord (r g b a : Byte) : Word := (a ++ b ++ g ++ r : BitVec 32)

/-! ### Classes (41_framecodec.md R140 to R142) -/

/-- The code of a class. -/
def classCode : Class → BitVec 3
  | .black => 0
  | .red => 1
  | .green => 2
  | .blue => 3
  | .sentinel => 4

/-- The class of a CLS field; none for 5, 6 and 7 (30_encoding.md R94). -/
def classOfCode (cls : BitVec 3) : Option Class :=
  match cls.toNat with
  | 0 => some .black
  | 1 => some .red
  | 2 => some .green
  | 3 => some .blue
  | 4 => some .sentinel
  | _ => none

/-- The class that carries a data symbol. -/
def classOfSym (y : Sym) : Class :=
  match y.toNat with
  | 0 => .black
  | 1 => .red
  | 2 => .green
  | _ => .blue

/-- The data symbol of a class; none for the Sentinel. -/
def symOfClass : Class → Option Sym
  | .black => some 0
  | .red => some 1
  | .green => some 2
  | .blue => some 3
  | .sentinel => none

/-- The colour table (41_framecodec.md R141, R142). -/
def colourWord : Class → Word
  | .black => rgbaWord 0 0 0 255
  | .red => rgbaWord 255 0 0 255
  | .green => rgbaWord 0 255 0 255
  | .blue => rgbaWord 0 0 255 255
  | .sentinel => rgbaWord 255 255 255 255

/-- A command with a CLS operand: an illegal class raises ILLEGAL_COMMAND (30_encoding.md R94; log 8). -/
def withClass (cls : BitVec 3) (s : State) (k : Class → Host.Outcome State Fault Refusal) : Host.Outcome State Fault Refusal :=
  match classOfCode cls with
  | none => illegalCommand s
  | some c => k c

end Sys2Proof.Machine
end

