-- ==== Sys2Proof/Machine/BitPacker.lean ====
section
/-! DEFINITION. BitPacker and BitUnpacker (40_bitpacker.md R121 to R127). -/

namespace Sys2Proof.Machine

/-- The k-th symbol of a byte, most significant pair first (40_bitpacker.md R121). -/
def packSym (b : Byte) (k : Nat) : Sym := (b >>> (6 - 2 * k)).setWidth 2

/-- The byte of four symbols (40_bitpacker.md R123). -/
def unpack4 (s₀ s₁ s₂ s₃ : Sym) : Byte :=
  (s₀.setWidth 8 <<< 6) ||| (s₁.setWidth 8 <<< 4) ||| (s₂.setWidth 8 <<< 2) ||| s₃.setWidth 8

/-- The symbols of a byte sequence (40_bitpacker.md R122). -/
def pack : List Byte → List Sym
  | [] => []
  | b :: bs => packSym b 0 :: packSym b 1 :: packSym b 2 :: packSym b 3 :: pack bs

/-- The bytes of a symbol sequence; none when its length is no multiple of 4 (40_bitpacker.md R124). -/
def unpack : List Sym → Option (List Byte)
  | [] => some []
  | s₀ :: s₁ :: s₂ :: s₃ :: rest => (unpack rest).map (unpack4 s₀ s₁ s₂ s₃ :: ·)
  | [_] => none
  | [_, _] => none
  | [_, _, _] => none

/-- PACK (40_bitpacker.md R126). -/
def execPack (s : State) : Host.Outcome State Fault Refusal :=
  let b := argByte s
  unlessError s (writeResult ((lanes (packSym b 0) (packSym b 1) (packSym b 2) (packSym b 3)).setWidth 32) s)

/-- UNPACK (40_bitpacker.md R127). -/
def execUnpack (s : State) : Host.Outcome State Fault Refusal :=
  let v := argByte s
  unlessError s (writeResult ((unpack4 (lane v 0) (lane v 1) (lane v 2) (lane v 3)).setWidth 32) s)

end Sys2Proof.Machine
end

