-- ==== Sys2Proof/Machine/Flags.lean ====
section
/-! DEFINITION. STATUS: its layout, and every way a command changes it (10_state.md R24 to R32). -/

namespace Sys2Proof.Machine

/-- MODE's two bits (10_state.md R24). -/
def modeBits : Mode → BitVec 2
  | .idle => 0
  | .enc => 1
  | .dec => 2

/-- ERRCODE's three bits (60_exceptions.md R250). -/
def errCodeBits : ErrCode → BitVec 3
  | .none => 0
  | .configError => 1
  | .ioError => 2
  | .formatError => 3
  | .missingTerminator => 4
  | .sequenceError => 5
  | .illegalCommand => 6
  | .rangeError => 7

/-- STATUS as the host reads it: [31:11] = 0, ERRCODE, BUSY, ERR, SENT, FINAL, DONE, MODE, CFG_VALID (10_state.md R24). -/
def statusWord (t : Status) : Word :=
  (0#21 ++ errCodeBits t.errCode ++ BitVec.ofBool t.busy ++ BitVec.ofBool t.err ++ BitVec.ofBool t.sent
    ++ BitVec.ofBool t.final ++ BitVec.ofBool t.done ++ modeBits t.mode ++ BitVec.ofBool t.cfgValid : BitVec 32)

/-- ENC_START: FINAL and DONE cleared, MODE = ENC (42_sequencer.md R182). -/
def statusOpenEncode (t : Status) : Status := { t with final := false, done := false, mode := .enc }

/-- DEC_START: SENT and DONE cleared, MODE = DEC (42_sequencer.md R186). -/
def statusOpenDecode (t : Status) : Status := { t with sent := false, done := false, mode := .dec }

/-- ENC_FRAME: FINAL written; a final chunk also sets DONE and closes the stream (42_sequencer.md R183). -/
def statusEncoded (isFinal : Bool) (t : Status) : Status :=
  if isFinal then { t with final := true, done := true, mode := .idle } else { t with final := false }

/-- DEC_FRAME: SENT written; a Sentinel also sets DONE (42_sequencer.md R187). -/
def statusDecoded (reached : Bool) (t : Status) : Status :=
  { t with sent := reached, done := t.done || reached }

/-- DEC_END and ABORT: MODE = IDLE (42_sequencer.md R189; 43_control.md R223). -/
def statusClose (t : Status) : Status := { t with mode := .idle }

end Sys2Proof.Machine
end

