-- ==== Sys2Proof/Machine/Control.lean ====
section
/-! DEFINITION. Control commands: NOP, CONFIG, ABORT, IOFAIL, SRESET (43_control.md R220 to R225). -/

namespace Sys2Proof.Machine

/-- The six checks of CONFIG, in order (43_control.md R222). -/
def configChecks (p : Params) (s : State) : List Bool :=
  [ s.bsize.toNat != 0,
    s.width.toNat != 0 && s.height.toNat != 0,
    s.width.toNat % s.bsize.toNat == 0 && s.height.toNat % s.bsize.toNat == 0,
    decide (s.width.toNat * s.height.toNat ≤ p.maxPixels),
    (s.width.toNat / s.bsize.toNat) * (s.height.toNat / s.bsize.toNat) % 4 == 0,
    decide (s.thresh.toNat ≤ 254) ]

/-- The derived sizes written and CFG_VALID set (00_scope.md R9; 43_control.md R221). -/
def configured (s : State) : State :=
  let w := s.width.toNat / s.bsize.toNat
  let h := s.height.toNat / s.bsize.toNat
  { s with
    gridw := BitVec.ofNat 32 w
    gridh := BitVec.ofNat 32 h
    grid := BitVec.ofNat 32 (w * h)
    cap := BitVec.ofNat 32 (w * h / 4)
    status := { s.status with cfgValid := true } }

/-- CONFIG with the block's parameters as an argument (43_control.md R221). -/
def config (p : Params) (s : State) : Host.Outcome State Fault Refusal :=
  unlessError s <|
    if s.status.mode ≠ .idle then raising .sequenceError s
    else if (configChecks p s).all id then .next (configured s)
    else raising .configError s

/-- NOP (43_control.md R220). -/
def execNop (s : State) : Host.Outcome State Fault Refusal := .next s

/-- CONFIG (43_control.md R221). -/
def execConfig (s : State) : Host.Outcome State Fault Refusal := config blockParams s

/-- ABORT (43_control.md R223). -/
def execAbort (s : State) : Host.Outcome State Fault Refusal :=
  unlessError s (.next { s with status := statusClose s.status })

/-- IOFAIL (43_control.md R224). -/
def execIofail (s : State) : Host.Outcome State Fault Refusal := unlessError s (raising .ioError s)

/-- SRESET: the only command that runs while ERR = 1 (43_control.md R225). -/
def execSreset (s : State) : Host.Outcome State Fault Refusal := .next (resetRegisters s)

end Sys2Proof.Machine
end

