-- ==== Sys2Proof/Machine/FrameCodec.lean ====
section
/-! DEFINITION. FrameCodec: the classifier, the block geometry, the raster procedures, and SYMCOLOR, CLASSIFY, WRBLK, RDBLK
(41_framecodec.md R143 to R160). -/

namespace Sys2Proof.Machine

/-! ### Classification -/

/-- Whether a channel is on: strictly above the threshold (41_framecodec.md R143). -/
def channelOn (thresh v : Byte) : Bool := thresh.toNat < v.toNat

/-- The classifier, in its fixed priority order (41_framecodec.md R144). -/
def classify (thresh r g b : Byte) : Class :=
  if channelOn thresh r && channelOn thresh g && channelOn thresh b then .sentinel
  else if channelOn thresh r then .red
  else if channelOn thresh g then .green
  else if channelOn thresh b then .blue
  else .black

/-- The class of an RGBA word; alpha is not read (41_framecodec.md R149, R158). -/
def classifyWord (thresh : Byte) (w : Word) : Class := classify thresh (redOf w) (greenOf w) (blueOf w)

/-! ### Block geometry -/

/-- The block column of block g (41_framecodec.md R145). -/
def blockColumn (s : State) (g : Nat) : Nat := g % s.gridw.toNat

/-- The block row of block g (41_framecodec.md R145). -/
def blockRow (s : State) (g : Nat) : Nat := g / s.gridw.toNat

/-- The RAST address of pixel (x, y) (20_memory.md R65). -/
def pixelAddress (s : State) (x y : Nat) : Nat := 4 * (y * s.width.toNat + x)

/-- The addresses of the pixels of block g's footprint, in the order they are written (41_framecodec.md R146, R148). -/
def footprint (s : State) (g : Nat) : List Nat :=
  (List.range s.bsize.toNat).flatMap fun dy =>
    (List.range s.bsize.toNat).map fun dx =>
      pixelAddress s (blockColumn s g * s.bsize.toNat + dx) (blockRow s g * s.bsize.toNat + dy)

/-- The address of block g's sample pixel, its centre (41_framecodec.md R147). -/
def sampleAddress (s : State) (g : Nat) : Nat :=
  pixelAddress s (blockColumn s g * s.bsize.toNat + s.bsize.toNat / 2) (blockRow s g * s.bsize.toNat + s.bsize.toNat / 2)

/-! ### Writing blocks -/

/-- One pixel word written at each address of a list. -/
def writePixels (p : Params) (w : Word) : List Nat → State → Except Fault State
  | [], s => .ok s
  | a :: as, s =>
    match memWrite p .rast a (leBytes 4 w.toNat) s with
    | .error f => .error f
    | .ok s₁ => writePixels p w as s₁

/-- fillBlock (41_framecodec.md R148). -/
def fillBlock (p : Params) (g : Nat) (c : Class) (s : State) : Except Fault State :=
  writePixels p (colourWord c) (footprint s g) s

/-- The class of block g when a chunk is encoded (41_framecodec.md R150). -/
def encClass (chunk : List Byte) (g : Nat) : Class :=
  match chunk[g / 4]? with
  | some b => classOfSym (packSym b (g % 4))
  | none => .sentinel

/-- The blocks of a list filled for a chunk, in order. -/
def fillBlocks (p : Params) (chunk : List Byte) : List Nat → State → Except Fault State
  | [], s => .ok s
  | g :: gs, s =>
    match fillBlock p g (encClass chunk g) s with
    | .error f => .error f
    | .ok s₁ => fillBlocks p chunk gs s₁

/-- encodeRaster (41_framecodec.md R151). -/
def encodeRaster (p : Params) (chunk : List Byte) (s : State) : Except Fault State :=
  fillBlocks p chunk (List.range s.grid.toNat) s

/-! ### Reading blocks -/

/-- sampleClass: one pixel of block g, read and classified (41_framecodec.md R149). -/
def sampleClass (p : Params) (g : Nat) (s : State) : Except Fault (Class × State) :=
  match memRead p .rast (sampleAddress s g) 4 s with
  | .error f => .error f
  | .ok (bs, s₁) => .ok (classifyWord s.thresh (BitVec.ofNat 32 (leValue bs)), s₁)

/-- The symbols of the blocks of a list up to the first Sentinel, and whether one was reached (41_framecodec.md R153).
No block after it is sampled. -/
def readSymbols (p : Params) : List Nat → State → Except Fault (List Sym × Bool × State)
  | [], s => .ok ([], false, s)
  | g :: gs, s =>
    match sampleClass p g s with
    | .error f => .error f
    | .ok (c, s₁) =>
      match symOfClass c with
      | none => .ok ([], true, s₁)
      | some y =>
        match readSymbols p gs s₁ with
        | .error f => .error f
        | .ok (ys, reached, s₂) => .ok (y :: ys, reached, s₂)

/-- decodeRaster: the chunk of whole bytes, reachedSentinel, and the state after the reads (41_framecodec.md R153, R154). -/
def decodeRaster (p : Params) (s : State) : Except Fault (List Byte × Bool × State) :=
  match readSymbols p (List.range s.grid.toNat) s with
  | .error f => .error f
  | .ok (syms, reached, s₁) =>
    match unpack (syms.take (4 * (syms.length / 4))) with
    | none => .error .partialSymbolGroup
    | some chunk => .ok (chunk, reached, s₁)

/-! ### Commands -/

/-- The checks WRBLK and RDBLK share, in their order (41_framecodec.md R159, R160). -/
def withBlock (s : State) (k : Nat → Host.Outcome State Fault Refusal) : Host.Outcome State Fault Refusal :=
  if s.status.cfgValid = false then raising .sequenceError s
  else if s.grid.toNat ≤ argBlock s then raising .rangeError s
  else k (argBlock s)

/-- SYMCOLOR (41_framecodec.md R157). -/
def execSymcolor (cls : BitVec 3) (s : State) : Host.Outcome State Fault Refusal :=
  unlessError s (withClass cls s fun c => writeResult (colourWord c) s)

/-- CLASSIFY (41_framecodec.md R158). -/
def execClassify (s : State) : Host.Outcome State Fault Refusal :=
  unlessError s (writeResult ((classCode (classifyWord s.thresh s.arg)).setWidth 32) s)

/-- WRBLK with the block's parameters as an argument (41_framecodec.md R159). -/
def wrblk (p : Params) (cls : BitVec 3) (s : State) : Host.Outcome State Fault Refusal :=
  unlessError s (withClass cls s fun c => withBlock s fun g => orFault (fillBlock p g c s) .next)

/-- RDBLK with the block's parameters as an argument (41_framecodec.md R160). -/
def rdblk (p : Params) (s : State) : Host.Outcome State Fault Refusal :=
  unlessError s (withBlock s fun g =>
    orFault (sampleClass p g s) fun r => writeResult ((classCode r.1).setWidth 32) r.2)

/-- WRBLK (41_framecodec.md R159). -/
def execWrblk (cls : BitVec 3) (s : State) : Host.Outcome State Fault Refusal := wrblk blockParams cls s

/-- RDBLK (41_framecodec.md R160). -/
def execRdblk (s : State) : Host.Outcome State Fault Refusal := rdblk blockParams s

end Sys2Proof.Machine
end

