-- ==== Sys2Proof/Machine/Sequencer.lean ====
section
/-! DEFINITION. ChunkSequencer: ENC_START, ENC_FRAME, DEC_START, DEC_FRAME, DEC_END (42_sequencer.md R182 to R189). -/

namespace Sys2Proof.Machine

/-- ENC_START with the block's parameters as an argument (42_sequencer.md R182). -/
def encStart (p : Params) (s : State) : Host.Outcome State Fault Refusal :=
  unlessError s <|
    if s.status.mode ≠ .idle then raising .sequenceError s
    else if s.status.cfgValid = false then raising .sequenceError s
    else if p.srcBytes < s.srcLen.toNat then raising .rangeError s
    else .next { s with seq := 0, srcPos := 0, chunkLen := 0, status := statusOpenEncode s.status }

/-- The length of the next chunk: min(CAP, SRC_LEN - SRC_POS) (42_sequencer.md R183). -/
def nextChunkLength (s : State) : Nat := min s.cap.toNat (s.srcLen.toNat - s.srcPos.toNat)

/-- ENC_FRAME's registers after a chunk of `len` bytes (42_sequencer.md R183). -/
def afterEncode (len : Nat) (s : State) : State :=
  { s with
    chunkLen := BitVec.ofNat 32 len
    srcPos := s.srcPos + BitVec.ofNat 32 len
    seq := s.seq + 1
    status := statusEncoded (len < s.cap.toNat) s.status }

/-- ENC_FRAME with the block's parameters as an argument (42_sequencer.md R183). -/
def encFrame (p : Params) (s : State) : Host.Outcome State Fault Refusal :=
  unlessError s <|
    if s.status.mode ≠ .enc then raising .sequenceError s
    else
      orFault (memRead p .src s.srcPos.toNat (nextChunkLength s) s) fun r =>
        orFault (encodeRaster p r.1 r.2) fun s₁ => .next (afterEncode (nextChunkLength s) s₁)

/-- DEC_START (42_sequencer.md R186). -/
def decStart (s : State) : Host.Outcome State Fault Refusal :=
  unlessError s <|
    if s.status.mode ≠ .idle then raising .sequenceError s
    else if s.status.cfgValid = false then raising .sequenceError s
    else .next { s with accLen := 0, seq := 0, chunkLen := 0, status := statusOpenDecode s.status }

/-- DEC_FRAME's registers after a chunk of `n` bytes was appended (42_sequencer.md R187). -/
def afterDecode (n : Nat) (reached : Bool) (s : State) : State :=
  { s with
    accLen := s.accLen + BitVec.ofNat 32 n
    chunkLen := BitVec.ofNat 32 n
    seq := s.seq + 1
    status := statusDecoded reached s.status }

/-- The append of DEC_FRAME: RANGE_ERROR when the chunk would overflow ACC, else ACC and the registers written
(42_sequencer.md R187). The reads of `decodeRaster` have used their draws either way (log 2). -/
def appendChunk (p : Params) (chunk : List Byte) (reached : Bool) (s : State) : Host.Outcome State Fault Refusal :=
  if p.accBytes < s.accLen.toNat + chunk.length then raising .rangeError s
  else orFault (memWrite p .acc s.accLen.toNat chunk s) fun s₁ => .next (afterDecode chunk.length reached s₁)

/-- DEC_FRAME with the block's parameters as an argument (42_sequencer.md R187, R188). -/
def decFrame (p : Params) (s : State) : Host.Outcome State Fault Refusal :=
  unlessError s <|
    if s.status.mode ≠ .dec then raising .sequenceError s
    else if s.status.done then .next s
    else if s.inWidth ≠ s.width ∨ s.inHeight ≠ s.height then raising .formatError s
    else orFault (decodeRaster p s) fun r => appendChunk p r.1 r.2.1 r.2.2

/-- DEC_END (42_sequencer.md R189). -/
def decEnd (s : State) : Host.Outcome State Fault Refusal :=
  unlessError s <|
    if s.status.mode ≠ .dec then raising .sequenceError s
    else if s.status.done = false then raising .missingTerminator s
    else .next { s with status := statusClose s.status }

/-- ENC_START (42_sequencer.md R182). -/
def execEncStart (s : State) : Host.Outcome State Fault Refusal := encStart blockParams s

/-- ENC_FRAME (42_sequencer.md R183). -/
def execEncFrame (s : State) : Host.Outcome State Fault Refusal := encFrame blockParams s

/-- DEC_START (42_sequencer.md R186). -/
def execDecStart (s : State) : Host.Outcome State Fault Refusal := decStart s

/-- DEC_FRAME (42_sequencer.md R187). -/
def execDecFrame (s : State) : Host.Outcome State Fault Refusal := decFrame blockParams s

/-- DEC_END (42_sequencer.md R189). -/
def execDecEnd (s : State) : Host.Outcome State Fault Refusal := decEnd s

end Sys2Proof.Machine
end

