-- ==== Sys2Proof/Machine/Dispatch.lean ====
section
/-! DEFINITION. One arm per command (30_encoding.md R95). -/

namespace Sys2Proof.Machine

def exec (i : Instr) (s : State) : Host.Outcome State Fault Refusal :=
  match i with
  -- control (43_control.md)
  | .nop => Sys2Proof.Machine.execNop s
  | .config => Sys2Proof.Machine.execConfig s
  | .abort => Sys2Proof.Machine.execAbort s
  | .iofail => Sys2Proof.Machine.execIofail s
  | .sreset => Sys2Proof.Machine.execSreset s
  -- BitPacker (40_bitpacker.md)
  | .pack => Sys2Proof.Machine.execPack s
  | .unpack => Sys2Proof.Machine.execUnpack s
  -- FrameCodec (41_framecodec.md)
  | .symcolor cls => Sys2Proof.Machine.execSymcolor cls s
  | .classify => Sys2Proof.Machine.execClassify s
  | .wrblk cls => Sys2Proof.Machine.execWrblk cls s
  | .rdblk => Sys2Proof.Machine.execRdblk s
  -- ChunkSequencer (42_sequencer.md)
  | .encStart => Sys2Proof.Machine.execEncStart s
  | .encFrame => Sys2Proof.Machine.execEncFrame s
  | .decStart => Sys2Proof.Machine.execDecStart s
  | .decFrame => Sys2Proof.Machine.execDecFrame s
  | .decEnd => Sys2Proof.Machine.execDecEnd s

end Sys2Proof.Machine
end

