-- ==== Sys2Proof/Machine/Bus.lean ====
section
/-! DEFINITION. The host's side of the block: the register map, host reads and writes, commands, resets
(10_state.md R21, R47 to R51; 20_memory.md R61, R72; 30_encoding.md R96). -/

namespace Sys2Proof.Machine

/-! ### The register map -/

/-- The offset of a register (10_state.md R21). -/
def regOffset : Reg → BitVec 8
  | .cmd => 0x00
  | .status => 0x04
  | .width => 0x08
  | .height => 0x0C
  | .bsize => 0x10
  | .thresh => 0x14
  | .gridw => 0x18
  | .gridh => 0x1C
  | .grid => 0x20
  | .cap => 0x24
  | .seq => 0x28
  | .srcLen => 0x2C
  | .srcPos => 0x30
  | .chunkLen => 0x34
  | .accLen => 0x38
  | .errSeq => 0x3C
  | .inWidth => 0x40
  | .inHeight => 0x44
  | .arg => 0x48
  | .result => 0x4C

/-- Every register, in offset order. -/
def allRegs : List Reg :=
  [.cmd, .status, .width, .height, .bsize, .thresh, .gridw, .gridh, .grid, .cap]
    ++ [.seq, .srcLen, .srcPos, .chunkLen, .accLen, .errSeq, .inWidth, .inHeight, .arg, .result]

/-- The register at an offset; none at the reserved offsets 0x50 .. 0xFF (10_state.md R21). -/
def regAt (off : BitVec 8) : Option Reg := allRegs.find? (fun r => regOffset r == off)

/-- What a host read of a register returns: its host-visible bits, 0 elsewhere; 0 for CMD (10_state.md R48). -/
def regValue (s : State) : Reg → Word
  | .cmd => 0
  | .status => statusWord s.status
  | .width => s.width.setWidth 32
  | .height => s.height.setWidth 32
  | .bsize => s.bsize.setWidth 32
  | .thresh => s.thresh.setWidth 32
  | .gridw => s.gridw
  | .gridh => s.gridh
  | .grid => s.grid
  | .cap => s.cap
  | .seq => s.seq
  | .srcLen => s.srcLen
  | .srcPos => s.srcPos
  | .chunkLen => s.chunkLen
  | .accLen => s.accLen
  | .errSeq => s.errSeq
  | .inWidth => s.inWidth.setWidth 32
  | .inHeight => s.inHeight.setWidth 32
  | .arg => s.arg
  | .result => s.result

/-- What a host read of an aligned offset returns; 0 at a reserved one (10_state.md R48). -/
def offsetValue (s : State) (off : BitVec 8) : Word :=
  match regAt off with
  | none => 0
  | some r => regValue s r

/-! ### Register writes -/

/-- CFG_VALID and the derived sizes cleared (10_state.md R50). -/
def clearDerived (s : State) : State :=
  { s with gridw := 0, gridh := 0, grid := 0, cap := 0, status := { s.status with cfgValid := false } }

/-- A host write of a geometry register: ignored while a stream is open, else stored, and the configuration with it
cleared (10_state.md R50). -/
def geometryWrite (s : State) (store : State → State) : State :=
  if s.status.mode ≠ .idle then s else clearDerived (store s)

/-- A host write of a register other than CMD (10_state.md R49 to R51): RO registers ignore it. -/
def storeReg (r : Reg) (v : Word) (s : State) : State :=
  match r with
  | .width => geometryWrite s fun t => { t with width := v.setWidth 16 }
  | .height => geometryWrite s fun t => { t with height := v.setWidth 16 }
  | .bsize => geometryWrite s fun t => { t with bsize := v.setWidth 16 }
  | .thresh => geometryWrite s fun t => { t with thresh := v.setWidth 8 }
  | .srcLen => if s.status.mode = .enc then s else { s with srcLen := v }
  | .inWidth => { s with inWidth := v.setWidth 16 }
  | .inHeight => { s with inHeight := v.setWidth 16 }
  | .arg => { s with arg := v }
  | .cmd => s
  | .status => s
  | .gridw => s
  | .gridh => s
  | .grid => s
  | .cap => s
  | .seq => s
  | .srcPos => s
  | .chunkLen => s
  | .accLen => s
  | .errSeq => s
  | .result => s

/-- A word written to CMD (10_state.md R47; 30_encoding.md R96). The error gate is in the commands (log 7). -/
def runCommand (w : Word) (s : State) : Host.Outcome State Fault Refusal :=
  match decode w with
  | .error _ => illegalCommand s
  | .ok i => exec i s

/-- A host write at an aligned offset; ignored at a reserved one (10_state.md R47, R49). -/
def writeOffset (off : BitVec 8) (v : Word) (s : State) : Host.Outcome State Fault Refusal :=
  match regAt off with
  | none => .next s
  | some .cmd => runCommand v s
  | some r => .next (storeReg r v s)

/-! ### Host accesses -/

/-- A defined register cycle: a whole 32-bit word at a multiple of 4 (20_memory.md R61). -/
abbrev wordCycle (off : BitVec 8) (bytes : Nat) : Prop := bytes = 4 ∧ off.toNat % 4 = 0

/-- What may happen while BUSY = 1: a read of STATUS (70_reset_and_hazards.md R297), and a reset (log 9). -/
def allowedWhileBusy : HostAccess → Bool
  | .readReg off bytes => off == regOffset .status && bytes == 4
  | .writeReg _ _ _ => false
  | .readMem _ _ => false
  | .writeMem _ _ _ => false
  | .hardReset => true
  | .powerOn => true

/-- One host access or reset event. -/
def hostAccess (p : Params) (a : HostAccess) (s : State) : Host.Outcome State Fault Refusal :=
  if s.status.busy && !allowedWhileBusy a then .refused .accessWhileBusy
  else
    match a with
    | .readReg off bytes =>
      if wordCycle off bytes then .next { s with busData := offsetValue s off } else .refused (.registerCycle off bytes)
    | .writeReg off bytes v =>
      if wordCycle off bytes then writeOffset off v s else .refused (.registerCycle off bytes)
    | .readMem sp a =>
      if a < spaceBytes p sp then
        let r := (s.mem sp).readByte a s.draws
        .next { s with draws := r.2, busData := r.1.setWidth 32 }
      else .refused (.memoryCycle sp a)
    | .writeMem sp a b =>
      if a < spaceBytes p sp then .next (s.setMem sp ((s.mem sp).write a b)) else .refused (.memoryCycle sp a)
    | .hardReset => .next (resetRegisters s)
    | .powerOn => .next (powerOn s)

/-- One step: the next host access; with none pending the engine waits (70_reset_and_hazards.md R291; log 1). -/
def hostStep (p : Params) (s : State) : Host.Outcome State Fault Refusal :=
  match s.pending with
  | [] => .next s
  | a :: rest => hostAccess p a { s with pending := rest }

/-- The host access that issues a command word (10_state.md R47). -/
def issue (w : Word) : HostAccess := .writeReg (regOffset .cmd) 4 w

end Sys2Proof.Machine
end

