-- ==== Sys2Proof/Machine/Step.lean ====
section
/-! DEFINITION. The step of the block. It fetches nothing (10_state.md R23; 20_memory.md R78): a step is the next host access. -/

namespace Sys2Proof.Machine

/-- One step: the next pending host access (log 1). -/
def step (s : State) : Host.Outcome State Fault Refusal := hostStep blockParams s

/-- The state whose next step is the host's write of the command word to CMD: the word's write is put first among the
pending accesses, and BUSY = 0 lets the host make it (log 1). -/
def State.withFetchWord (s : State) (nbits w : Nat) : State :=
  { s with
    pending := issue (BitVec.ofNat 32 (w % 2 ^ nbits)) :: s.pending
    status := { s.status with busy := false } }

end Sys2Proof.Machine
end

