-- ==== Sys2Proof/Machine/Program.lean ====
section
/-! DEFINITION. Host programs: their line forms, the mnemonics and class names, and the pseudo-instructions with their
expansions into host accesses (30_encoding.md R102 to R104). A program drives the block from outside; no block state
holds it (10_state.md R23). -/

namespace Sys2Proof.Machine

/-- A line of a host program (30_encoding.md R102) or a pseudo-instruction (R104). -/
inductive Line where
  /-- `wr NAME, v` -/
  | wr (r : Reg) (v : Word)
  /-- `rd NAME` -/
  | rd (r : Reg)
  /-- `expect NAME, v` -/
  | expect (r : Reg) (v : Word)
  /-- `wrmem S, a, [b0, b1, ...]` -/
  | wrmem (sp : Space) (a : Nat) (bs : List Byte)
  /-- `rdmem S, a, n` -/
  | rdmem (sp : Space) (a n : Nat)
  /-- `<mnemonic>` or `<mnemonic> <cls>` -/
  | command (i : Instr)
  /-- `pack #v` -/
  | packImm (v : Word)
  /-- `unpack #v` -/
  | unpackImm (v : Word)
  /-- `classify #v` -/
  | classifyImm (v : Word)
  /-- `rdblk #g` -/
  | rdblkImm (g : Word)
  /-- `wrblk c, #g` -/
  | wrblkImm (cls : BitVec 3) (g : Word)
  /-- `configure W, H, S, T` -/
  | configure (w h s t : Word)
  /-- `enc.open n` -/
  | encOpen (n : Word)
  /-- `dec.frame.in W, H` -/
  | decFrameIn (w h : Word)
  /-- `wait`: a single read of STATUS in this model -/
  | wait
deriving DecidableEq, Repr

/-- `wr NAME, v` on the bus. -/
def busWrite (r : Reg) (v : Word) : HostAccess := .writeReg (regOffset r) 4 v

/-- `rd NAME` on the bus. -/
def busRead (r : Reg) : HostAccess := .readReg (regOffset r) 4

/-- A command line on the bus: `wr CMD, w` (30_encoding.md R102). -/
def busCommand (i : Instr) : HostAccess := issue (encode i)

/-- Byte writes at rising addresses. -/
def busWriteBytes (sp : Space) : Nat → List Byte → List HostAccess
  | _, [] => []
  | a, b :: bs => .writeMem sp a b :: busWriteBytes sp (a + 1) bs

/-- The host accesses of a line (30_encoding.md R102, R104). -/
def expandLine : Line → List HostAccess
  | .wr r v => [busWrite r v]
  | .rd r => [busRead r]
  | .expect r _ => [busRead r]
  | .wrmem sp a bs => busWriteBytes sp a bs
  | .rdmem sp a n => (List.range n).map fun i => .readMem sp (a + i)
  | .command i => [busCommand i]
  | .packImm v => [busWrite .arg v, busCommand .pack]
  | .unpackImm v => [busWrite .arg v, busCommand .unpack]
  | .classifyImm v => [busWrite .arg v, busCommand .classify]
  | .rdblkImm g => [busWrite .arg g, busCommand .rdblk]
  | .wrblkImm cls g => [busWrite .arg g, busCommand (.wrblk cls)]
  | .configure w h s t =>
    [busWrite .width w, busWrite .height h, busWrite .bsize s, busWrite .thresh t, busCommand .config]
  | .encOpen n => [busWrite .srcLen n, busCommand .encStart]
  | .decFrameIn w h => [busWrite .inWidth w, busWrite .inHeight h, busCommand .decFrame]
  | .wait => [busRead .status]

/-- Whether an `expect` line's assertion holds in the state right after its read; every other line asserts nothing. -/
def lineHolds : Line → State → Bool
  | .expect _ v, s => s.busData == v
  | .wr _ _, _ => true
  | .rd _, _ => true
  | .wrmem _ _ _, _ => true
  | .rdmem _ _ _, _ => true
  | .command _, _ => true
  | .packImm _, _ => true
  | .unpackImm _, _ => true
  | .classifyImm _, _ => true
  | .rdblkImm _, _ => true
  | .wrblkImm _ _, _ => true
  | .configure _ _ _ _, _ => true
  | .encOpen _, _ => true
  | .decFrameIn _ _, _ => true
  | .wait, _ => true

/-- The host starts a program: its accesses come after those already pending (log 1). -/
def withProgram (s : State) (lines : List Line) : State :=
  { s with pending := s.pending ++ lines.flatMap expandLine }

/-- The mnemonic of a command in a host program (30_encoding.md R102). -/
def mnemonicOf : Instr → String
  | .nop => "nop"
  | .config => "config"
  | .abort => "abort"
  | .iofail => "iofail"
  | .sreset => "sreset"
  | .pack => "pack"
  | .unpack => "unpack"
  | .symcolor _ => "symcolor"
  | .classify => "classify"
  | .wrblk _ => "wrblk"
  | .rdblk => "rdblk"
  | .encStart => "enc.start"
  | .encFrame => "enc.frame"
  | .decStart => "dec.start"
  | .decFrame => "dec.frame"
  | .decEnd => "dec.end"

/-- The name of a class operand (30_encoding.md R103). -/
def className : Class → String
  | .black => "black"
  | .red => "red"
  | .green => "green"
  | .blue => "blue"
  | .sentinel => "sentinel"

/-- The class a name stands for (30_encoding.md R103). -/
def classOfName (n : String) : Option Class :=
  [Class.black, .red, .green, .blue, .sentinel].find? (fun c => className c == n)

/-- The command a mnemonic and a class operand stand for (30_encoding.md R102, R103): the class is 0 in format N. -/
def assemble (m : String) (cls : BitVec 3) : Option Instr :=
  (opcodeMap.find? (fun r => mnemonicOf (r.make 0) == m)).map fun r => r.make (if r.fmt = .c then cls else 0)

end Sys2Proof.Machine
end

