-- ==== Sys2Proof/Safety.lean ====
section
/-! DEFINITION. What claims are stated in: a valid geometry, the invariant of reachable states, a memory that lies inside its
space, which host cycles are defined. -/

namespace Sys2Proof.Machine

/-- What CFG_VALID = 1 promises (10_state.md R25), with the divisibility that CONFIG checks (43_control.md R222). -/
structure State.GeometryValid (p : Params) (s : State) : Prop where
  bsize_pos   : 0 < s.bsize.toNat
  width_div   : s.width.toNat % s.bsize.toNat = 0
  height_div  : s.height.toNat % s.bsize.toNat = 0
  gridw_eq    : s.gridw.toNat = s.width.toNat / s.bsize.toNat
  gridh_eq    : s.gridh.toNat = s.height.toNat / s.bsize.toNat
  grid_eq     : s.grid.toNat = s.gridw.toNat * s.gridh.toNat
  cap_eq      : s.cap.toNat = s.grid.toNat / 4
  grid_mod    : s.grid.toNat % 4 = 0
  cap_pos     : 1 ≤ s.cap.toNat
  fits        : s.width.toNat * s.height.toNat ≤ p.maxPixels
  thresh_le   : s.thresh.toNat ≤ 254

/-- Every written byte of a memory lies inside its space (20_memory.md R60). -/
abbrev Memory.inside (m : Memory) (size : Nat) : Prop := ∀ c ∈ m, c.1 < size

/-- What holds in every reachable state. -/
structure State.Inv (p : Params) (s : State) : Prop where
  /-- The memories are canonical and inside their spaces (20_memory.md R60, R80). -/
  src_wf        : s.src.wf
  rast_wf       : s.rast.wf
  acc_wf        : s.acc.wf
  src_inside    : s.src.inside (spaceBytes p .src)
  rast_inside   : s.rast.inside (spaceBytes p .rast)
  acc_inside    : s.acc.inside (spaceBytes p .acc)
  /-- 10_state.md R25. -/
  geometry      : s.status.cfgValid = true → s.GeometryValid p
  /-- 10_state.md R37, R50. -/
  derived_clear : s.status.cfgValid = false → s.gridw = 0 ∧ s.gridh = 0 ∧ s.grid = 0 ∧ s.cap = 0
  /-- A stream is open only on a checked geometry (42_sequencer.md R182, R186; 10_state.md R50). -/
  open_config   : s.status.mode ≠ .idle → s.status.cfgValid = true
  /-- 10_state.md R39, R40. -/
  src_len_le    : s.status.mode = .enc → s.srcLen.toNat ≤ p.srcBytes
  src_pos_le    : s.status.mode = .enc → s.srcPos.toNat ≤ s.srcLen.toNat
  /-- 42_sequencer.md R184. -/
  enc_open      : s.status.mode = .enc → s.status.done = false ∧ s.status.final = false
  /-- 42_sequencer.md R187. -/
  dec_open      : s.status.mode = .dec → s.status.done = s.status.sent
  /-- 10_state.md R42. -/
  acc_len_le    : s.accLen.toNat ≤ p.accBytes
  /-- 10_state.md R32. -/
  err_code      : s.status.err = false ↔ s.status.errCode = .none
  /-- 60_exceptions.md R251. -/
  err_idle      : s.status.err = true → s.status.mode = .idle
  /-- 10_state.md R31. -/
  not_busy      : s.status.busy = false

/-- A host access that is a defined bus cycle (20_memory.md R61, R72); resets always are. -/
def cycleDefined (p : Params) : HostAccess → Prop
  | .readReg off bytes => bytes = 4 ∧ off.toNat % 4 = 0
  | .writeReg off bytes _ => bytes = 4 ∧ off.toNat % 4 = 0
  | .readMem sp a => a < spaceBytes p sp
  | .writeMem sp a _ => a < spaceBytes p sp
  | .hardReset => True
  | .powerOn => True

/-- A step that did not stop with a fault: a next state, or the refusal of a host cycle. -/
def noFault (o : Host.Outcome State Fault Refusal) : Prop := ∀ f, o ≠ .fault f

/-! ### Tables claims are stated with -/

/-- The colours of the five class codes, as the spec's words (41_framecodec.md R142). -/
def colourTable : List (BitVec 3 × Word) :=
  [(0, 0xFF000000#32), (1, 0xFF0000FF#32), (2, 0xFF00FF00#32), (3, 0xFFFF0000#32), (4, 0xFFFFFFFF#32)]

/-- The class code of three channel values under a threshold, on naturals (41_framecodec.md R143, R144). -/
def classNumber (t r g b : Nat) : Nat :=
  if t < r ∧ t < g ∧ t < b then 4 else if t < r then 1 else if t < g then 2 else if t < b then 3 else 0

/-- Byte `j` of a word, byte 0 the least significant (00_scope.md R14). -/
def byteOf (w : Word) (j : Nat) : Byte := w.extractLsb' (8 * j) 8

/-- The class code of block g when a chunk is encoded, on naturals: bit pair g mod 4 of byte g div 4, most significant pair
first, else the Sentinel's 4 (40_bitpacker.md R121; 41_framecodec.md R150). -/
def blockClassNumber (chunk : List Byte) (g : Nat) : Nat :=
  if g / 4 < chunk.length then (chunk.getD (g / 4) 0).toNat / 4 ^ (3 - g % 4) % 4 else 4

/-- Every register field at its reset value (10_state.md R21, R24; 70_reset_and_hazards.md R290). -/
def registersReset (t : State) : Prop :=
  statusWord t.status = 0x00000000#32 ∧ t.width = 1920 ∧ t.height = 1080 ∧ t.bsize = 4 ∧ t.thresh = 200 ∧
  t.gridw = 0 ∧ t.gridh = 0 ∧ t.grid = 0 ∧ t.cap = 0 ∧ t.seq = 0 ∧ t.srcLen = 0 ∧ t.srcPos = 0 ∧ t.chunkLen = 0 ∧
  t.accLen = 0 ∧ t.errSeq = 0 ∧ t.inWidth = 0 ∧ t.inHeight = 0 ∧ t.arg = 0 ∧ t.result = 0

/-- The words that are no command (30_encoding.md R97): unassigned OP, RSV not 0, CLS not 0 in format N, CLS 5..7 in format C. -/
def illegalWord (w : Word) : Prop :=
  let op := w.toNat % 256
  let cls := w.toNat / 256 % 8
  let rsv := w.toNat / 2048
  (0x04 ≤ op ∧ op ≤ 0x0E ∨ 0x12 ≤ op ∧ op ≤ 0x1F ∨ 0x24 ≤ op ∧ op ≤ 0x2F ∨ 0x32 ≤ op ∧ op ≤ 0x37 ∨ 0x3B ≤ op)
    ∨ rsv ≠ 0
    ∨ (op ≠ 0x20 ∧ op ≠ 0x22 ∧ cls ≠ 0)
    ∨ ((op = 0x20 ∨ op = 0x22) ∧ 5 ≤ cls)

/-- The error a legal command raises when ERR = 0: the first failing check, in the order of 60_exceptions.md R254. -/
def errorOf (p : Params) (i : Instr) (s : State) : Option ErrCode :=
  match i with
  | .nop | .abort | .sreset | .pack | .unpack | .symcolor _ | .classify => none
  | .iofail => some .ioError
  | .config =>
    if s.status.mode ≠ .idle then some .sequenceError
    else if s.bsize = 0 ∨ s.width = 0 ∨ s.height = 0 ∨ s.width.toNat % s.bsize.toNat ≠ 0 ∨ s.height.toNat % s.bsize.toNat ≠ 0
        ∨ p.maxPixels < s.width.toNat * s.height.toNat
        ∨ (s.width.toNat / s.bsize.toNat) * (s.height.toNat / s.bsize.toNat) % 4 ≠ 0 ∨ s.thresh = 255 then some .configError
    else none
  | .wrblk _ | .rdblk =>
    if s.status.cfgValid = false then some .sequenceError
    else if s.grid.toNat ≤ s.arg.toNat then some .rangeError
    else none
  | .encStart =>
    if s.status.mode ≠ .idle ∨ s.status.cfgValid = false then some .sequenceError
    else if p.srcBytes < s.srcLen.toNat then some .rangeError
    else none
  | .encFrame => if s.status.mode ≠ .enc then some .sequenceError else none
  | .decStart => if s.status.mode ≠ .idle ∨ s.status.cfgValid = false then some .sequenceError else none
  | .decFrame =>
    if s.status.mode ≠ .dec then some .sequenceError
    else if s.status.done then none
    else if s.inWidth ≠ s.width ∨ s.inHeight ≠ s.height then some .formatError
    else match decodeRaster p s with
      | .error _ => none
      | .ok (chunk, _, _) => if p.accBytes < s.accLen.toNat + chunk.length then some .rangeError else none
  | .decEnd =>
    if s.status.mode ≠ .dec then some .sequenceError
    else if s.status.done = false then some .missingTerminator
    else none

/-! ### Streams as a host drives them -/

/-- `k` ENC_FRAME commands, the raster kept after each (70_reset_and_hazards.md R294); none if one does not give a next state. -/
def encodeFrames : Nat → State → Option (List Memory × State)
  | 0, s => some ([], s)
  | k + 1, s =>
    match exec .encFrame s with
    | .next t => (encodeFrames k t).map fun r => (t.rast :: r.1, r.2)
    | .fault _ => none
    | .refused _ => none

/-- One DEC_FRAME for each stored raster, loaded with the configured dimensions (70_reset_and_hazards.md R295, R298). -/
def decodeFrames : List Memory → State → Option State
  | [], s => some s
  | m :: ms, s =>
    match exec .decFrame { s with rast := m, inWidth := s.width, inHeight := s.height } with
    | .next t => decodeFrames ms t
    | .fault _ => none
    | .refused _ => none

/-! ### What every command's rule says -/

/-- A format-N command: its word, nothing done while ERR = 1, and ILLEGAL_COMMAND for every other word with its OP
(30_encoding.md R92, R96). -/
def formatN (i : Instr) (word : Word) : Prop :=
  encode i = word ∧ decode word = .ok i
    ∧ (∀ s : State, s.status.err = true → exec i s = .next s)
    ∧ (∀ (w : Word) (s : State), fieldOp w = fieldOp word → w ≠ word → s.status.err = false →
        runCommand w s = .next (raise .illegalCommand s))

/-- A format-C command: its five words, nothing done while ERR = 1, and ILLEGAL_COMMAND for every other word with its OP
(30_encoding.md R93, R94, R96). -/
def formatC (make : BitVec 3 → Instr) (op : Nat) : Prop :=
  (∀ cls : BitVec 3, cls.toNat ≤ 4 → (encode (make cls)).toNat = 256 * cls.toNat + op ∧ decode (encode (make cls)) = .ok (make cls))
    ∧ (∀ (cls : BitVec 3) (s : State), s.status.err = true → exec (make cls) s = .next s)
    ∧ (∀ (w : Word) (s : State), w.toNat % 256 = op → 256 * 5 ≤ w.toNat → s.status.err = false →
        runCommand w s = .next (raise .illegalCommand s))
    ∧ (∀ (cls : BitVec 3) (s : State), 4 < cls.toNat → s.status.err = false →
        exec (make cls) s = .next (raise .illegalCommand s))

end Sys2Proof.Machine
end

