-- ==== Sys2Proof/Certificates/Slice0/Obligations.lean ====
section
/-! DEFINITION. The statements about the model, one per `def Obligations.<Name>`. -/

open Sys2Proof Sys2Proof.Machine

/-! ## Encoding -/

/-- 30_encoding.md R91 to R95: the decoder answers a command exactly on the word of a well-formed command: every field of the
encoding is read back, and no other word is a command. -/
def Obligations.DecodeInvertsEncode : Prop :=
  ∀ (w : Word) (i : Instr), decode w = .ok i ↔ i.wellFormed = true ∧ encode i = w

/-- 30_encoding.md R105, the whole list: each word and the command it is. -/
def Obligations.CommandWordsAreTheListed : Prop :=
  ∀ e ∈ [((0x00000000#32 : Word), Instr.nop), (0x00000001#32, .config), (0x00000002#32, .abort), (0x00000003#32, .iofail),
      (0x0000000F#32, .sreset), (0x00000010#32, .pack), (0x00000011#32, .unpack)]
      ++ [(0x00000020#32, Instr.symcolor 0), (0x00000120#32, .symcolor 1), (0x00000220#32, .symcolor 2),
      (0x00000320#32, .symcolor 3), (0x00000420#32, .symcolor 4), (0x00000021#32, .classify)]
      ++ [(0x00000022#32, Instr.wrblk 0), (0x00000122#32, .wrblk 1), (0x00000222#32, .wrblk 2), (0x00000322#32, .wrblk 3),
      (0x00000422#32, .wrblk 4), (0x00000023#32, .rdblk)]
      ++ [(0x00000030#32, Instr.encStart), (0x00000031#32, .encFrame), (0x00000038#32, .decStart), (0x00000039#32, .decFrame),
      (0x0000003A#32, .decEnd)],
    decode e.1 = .ok e.2 ∧ encode e.2 = e.1

/-- 30_encoding.md R97: the illegal words are exactly those listed; each raises ILLEGAL_COMMAND when ERR = 0 and is ignored
when ERR = 1. -/
def Obligations.IllegalWordsRaiseOrAreIgnored : Prop :=
  ∀ w : Word, ((∀ i, decode w ≠ .ok i) ↔ illegalWord w) ∧
    (illegalWord w → ∀ s : State,
      (s.status.err = false → runCommand w s = .next (raise .illegalCommand s)) ∧
      (s.status.err = true → runCommand w s = .next s))

/-- 30_encoding.md R96: the decode procedure. While ERR = 1 only the exact word 0x0000000F runs, as SRESET; otherwise an illegal
word raises ILLEGAL_COMMAND and a legal one runs as the command whose word it is. -/
def Obligations.CommandWordProcedure : Prop :=
  ∀ (w : Word) (s : State),
    (s.status.err = true → runCommand w s = if w = 0x0000000F#32 then exec .sreset s else .next s) ∧
    (s.status.err = false → illegalWord w → runCommand w s = .next (raise .illegalCommand s)) ∧
    (s.status.err = false → ¬ illegalWord w →
      ∃ i : Instr, i.wellFormed = true ∧ encode i = w ∧ runCommand w s = exec i s)

/-! ## Steps -/

/-- One step is the host's next access; with none the block waits (70_reset_and_hazards.md R291), and a command word written to CMD
(10_state.md R47) runs as the command it decodes to, or is handled as no command. The list of accesses is the model's own (log 1). -/
def Obligations.StepRunsTheDecodedCommand : Prop :=
  (∀ s : State, s.pending = [] → step s = .next s) ∧
  (∀ (s : State) (a : HostAccess) (rest : List HostAccess), s.pending = a :: rest →
    step s = hostAccess blockParams a { s with pending := rest }) ∧
  (∀ (s : State) (w : Word) (i : Instr) (rest : List HostAccess), s.pending = .writeReg 0x00#8 4 w :: rest →
    s.status.busy = false → decode w = .ok i → step s = exec i { s with pending := rest }) ∧
  (∀ (s : State) (w : Word) (e : Illegal) (rest : List HostAccess), s.pending = .writeReg 0x00#8 4 w :: rest →
    s.status.busy = false → decode w = .error e → step s = illegalCommand { s with pending := rest }) ∧
  (∀ (s : State) (w : Nat) (i : Instr), decodeTableWord 32 w = some i →
    step (s.withFetchWord 32 w) = exec i { s with status := { s.status with busy := false } })

/-- 20_memory.md R61 (section 1), R72 (section 3): from a reachable state a step gives a next state exactly when the host's access is a
defined bus cycle, is refused otherwise, and never faults (R80, section 5). With no access pending it changes nothing, which is the
model's own form of the waiting of 70_reset_and_hazards.md R291 (log 1). -/
def Obligations.StepAnswersDefinedCycles : Prop :=
  ∀ s : State, s.Inv blockParams →
    noFault (step s) ∧
    (s.pending = [] → step s = .next s) ∧
    (∀ a rest, s.pending = a :: rest → cycleDefined blockParams a → ∃ t, step s = .next t) ∧
    (∀ a rest, s.pending = a :: rest → ¬ cycleDefined blockParams a → ∃ r, step s = .refused r)

/-- 20_memory.md R80: no command makes an engine access out of range. On every state that meets the invariant every command,
well-formed or not, answers a next state. -/
def Obligations.EngineAccessesStayInRange : Prop :=
  ∀ (i : Instr) (s : State), s.Inv blockParams → ∃ t, exec i s = .next t

/-! ## The invariant -/

/-- The reset state meets the invariant. -/
def Obligations.ResetMeetsInvariant : Prop := State.reset.Inv blockParams

/-- Every step keeps the invariant: canonical memories inside their spaces, the promises of CFG_VALID (10_state.md R25), the stream
bounds (R39, R40, R42), the error fields (R32), BUSY = 0 (R31). -/
def Obligations.StepKeepsInvariant : Prop :=
  ∀ s t : State, s.Inv blockParams → step s = .next t → t.Inv blockParams

/-! ## BitPacker -/

/-- 40_bitpacker.md R126, PACK: lane k of RESULT is bit pair k of ARG[7:0], most significant pair first; RESULT[31:8] is 0. -/
def Obligations.PackWritesLanes : Prop :=
  formatN .pack 0x00000010#32 ∧
  ∀ s : State, s.status.err = false →
    ∃ v : Word, exec .pack s = .next { s with result := v } ∧ v.extractLsb' 8 24 = 0 ∧
      ∀ k, k < 4 → v.extractLsb' (2 * k) 2 = s.arg.extractLsb' (6 - 2 * k) 2

/-- 40_bitpacker.md R127, UNPACK: bit pair k of the byte, most significant first, is lane k of ARG[7:0]; RESULT[31:8] is 0. -/
def Obligations.UnpackWritesByte : Prop :=
  formatN .unpack 0x00000011#32 ∧
  ∀ s : State, s.status.err = false →
    ∃ v : Word, exec .unpack s = .next { s with result := v } ∧ v.extractLsb' 8 24 = 0 ∧
      ∀ k, k < 4 → v.extractLsb' (6 - 2 * k) 2 = s.arg.extractLsb' (2 * k) 2

/-- 40_bitpacker.md R125: the inverse laws, and pack is injective. -/
def Obligations.PackAndUnpackAreInverse : Prop :=
  (∀ b : Byte, unpack4 (packSym b 0) (packSym b 1) (packSym b 2) (packSym b 3) = b) ∧
  (∀ s₀ s₁ s₂ s₃ : Sym, packSym (unpack4 s₀ s₁ s₂ s₃) 0 = s₀ ∧ packSym (unpack4 s₀ s₁ s₂ s₃) 1 = s₁ ∧
    packSym (unpack4 s₀ s₁ s₂ s₃) 2 = s₂ ∧ packSym (unpack4 s₀ s₁ s₂ s₃) 3 = s₃) ∧
  (∀ bs : List Byte, unpack (pack bs) = some bs) ∧
  (∀ bs cs : List Byte, pack bs = pack cs → bs = cs)

/-- 40_bitpacker.md R121, R122: symbol k of a byte is (byte >> (6 - 2k)) & 0b11, most significant pair first, and the symbols of a
byte sequence are those of its bytes in order, four to a byte. -/
def Obligations.PackIndexesSymbols : Prop :=
  (∀ (b : Byte) (k : Nat), k < 4 → (packSym b k).toNat = b.toNat / 2 ^ (6 - 2 * k) % 4) ∧
  ∀ bs : List Byte, (pack bs).length = 4 * bs.length ∧
    ∀ i k (b : Byte), k < 4 → bs[i]? = some b → (pack bs)[4 * i + k]? = some (packSym b k)

/-- 40_bitpacker.md R123, R124: four symbols encode symbol0<<6 | symbol1<<4 | symbol2<<2 | symbol3, and unpack answers on whole groups of
four symbols, byte i the byte of group i. That it has no value on a partial group is the model's choice (log 6): R124 needs no behaviour
there, and 93_implementation_defined.md I5 has a model of the pure function refuse it. -/
def Obligations.UnpackIndexesBytes : Prop :=
  (∀ s₀ s₁ s₂ s₃ : Sym, (unpack4 s₀ s₁ s₂ s₃).toNat = 64 * s₀.toNat + 16 * s₁.toNat + 4 * s₂.toNat + s₃.toNat) ∧
  ∀ ys : List Sym, ((∃ bs, unpack ys = some bs) ↔ ys.length % 4 = 0) ∧
    ∀ bs, unpack ys = some bs → bs.length = ys.length / 4 ∧
      ∀ i s₀ s₁ s₂ s₃, ys[4 * i]? = some s₀ → ys[4 * i + 1]? = some s₁ → ys[4 * i + 2]? = some s₂ → ys[4 * i + 3]? = some s₃ →
        bs[i]? = some (unpack4 s₀ s₁ s₂ s₃)

/-- 40_bitpacker.md R128: PACK and UNPACK compute the same function of ARG, the reversal of the four bit pairs of ARG[7:0], and each
undoes the other on bits [7:0]. -/
def Obligations.PackAndUnpackCommandsAgree : Prop :=
  ∀ s : State, s.status.err = false →
    exec .pack s = exec .unpack s ∧
    ∃ v w : Word, exec .pack s = .next { s with result := v } ∧
      (∀ k, k < 4 → v.extractLsb' (2 * k) 2 = s.arg.extractLsb' (6 - 2 * k) 2) ∧
      exec .unpack { s with arg := v } = .next { s with arg := v, result := w } ∧
      exec .pack { s with arg := v } = .next { s with arg := v, result := w } ∧
      w = (s.arg.extractLsb' 0 8).setWidth 32

/-! ## FrameCodec -/

/-- 41_framecodec.md R157, SYMCOLOR: RESULT is the class's colour; any mode, configured or not, whatever THRESH. -/
def Obligations.SymcolorWritesColour : Prop :=
  formatC .symcolor 0x20 ∧
  ∀ s : State, s.status.err = false → ∀ e ∈ colourTable, exec (.symcolor e.1) s = .next { s with result := e.2 }

/-- 41_framecodec.md R158, CLASSIFY: RESULT is the class code of ARG's three low channels under THRESH as held. -/
def Obligations.ClassifyAppliesThreshold : Prop :=
  formatN .classify 0x00000021#32 ∧
  ∀ s : State, s.status.err = false → exec .classify s = .next { s with
    result := BitVec.ofNat 32
      (classNumber s.thresh.toNat (s.arg.toNat % 256) (s.arg.toNat / 256 % 256) (s.arg.toNat / 65536 % 256)) }

/-- 41_framecodec.md R155: under every threshold 0..254 the classifier answers each class on that class's colour. -/
def Obligations.ClassificationInvertsColours : Prop :=
  ∀ t : Byte, t.toNat ≤ 254 → (∀ c : Machine.Class, classifyWord t (colourWord c) = c) ∧
    (∀ e ∈ colourTable, (classCode (classifyWord t e.2)) = e.1)

/-- 41_framecodec.md R159, WRBLK: the checks in order, else the class's colour in every pixel of block g's footprint; every other
byte of RAST and everything else unchanged. -/
def Obligations.WrblkFillsFootprint : Prop :=
  formatC .wrblk 0x22 ∧
  ∀ s : State, s.status.err = false → ∀ e ∈ colourTable,
    (s.status.cfgValid = false → exec (.wrblk e.1) s = .next (raise .sequenceError s)) ∧
    (s.status.cfgValid = true → s.grid.toNat ≤ s.arg.toNat → exec (.wrblk e.1) s = .next (raise .rangeError s)) ∧
    (s.status.cfgValid = true → s.arg.toNat < s.grid.toNat → s.GeometryValid blockParams →
      ∃ m : Memory, exec (.wrblk e.1) s = .next { s with rast := m } ∧
        (∀ a ∈ footprint s s.arg.toNat, ∀ j, j < 4 → m.read? (a + j) = some (byteOf e.2 j)) ∧
        (∀ x, (∀ a ∈ footprint s s.arg.toNat, x < a ∨ a + 4 ≤ x) → m.read? x = s.rast.read? x))

/-- 41_framecodec.md R160, RDBLK: the checks in order, else RESULT is the class of the sample pixel's channels; only RESULT (and the
model's count of draws, log 2, and that not when the four bytes of the sample pixel are written) changes. -/
def Obligations.RdblkClassifiesSample : Prop :=
  formatN .rdblk 0x00000023#32 ∧
  ∀ s : State, s.status.err = false →
    (s.status.cfgValid = false → exec .rdblk s = .next (raise .sequenceError s)) ∧
    (s.status.cfgValid = true → s.grid.toNat ≤ s.arg.toNat → exec .rdblk s = .next (raise .rangeError s)) ∧
    (s.status.cfgValid = true → s.arg.toNat < s.grid.toNat → s.GeometryValid blockParams →
      ∃ (v : Nat → Byte) (d : Nat),
        exec .rdblk s = .next { s with
          result := BitVec.ofNat 32 (classNumber s.thresh.toNat (v 0).toNat (v 1).toNat (v 2).toNat)
          draws := d } ∧
        (∀ j b, j < 4 → s.rast.read? (4 * ((s.arg.toNat / s.gridw.toNat * s.bsize.toNat + s.bsize.toNat / 2) * s.width.toNat
            + (s.arg.toNat % s.gridw.toNat * s.bsize.toNat + s.bsize.toNat / 2)) + j) = some b → v j = b) ∧
        ((∀ j, j < 4 → s.rast.read? (sampleAddress s s.arg.toNat + j) ≠ none) → d = s.draws))

/-- 41_framecodec.md R146: on a valid geometry WIDTH = GRIDW*BSIZE and HEIGHT = GRIDH*BSIZE, the footprint of block g is the
BSIZE x BSIZE pixels at (bx*BSIZE, by*BSIZE), and the footprints of blocks 0 .. GRID-1 partition the raster: each pixel of it lies in
exactly one, and each lies inside it. -/
def Obligations.FootprintsPartitionRaster : Prop :=
  ∀ s : State, s.GeometryValid blockParams →
    s.width.toNat = s.gridw.toNat * s.bsize.toNat ∧ s.height.toNat = s.gridh.toNat * s.bsize.toNat ∧
    (∀ g a, a ∈ footprint s g ↔ ∃ dx dy, dx < s.bsize.toNat ∧ dy < s.bsize.toNat ∧
      a = 4 * ((g / s.gridw.toNat * s.bsize.toNat + dy) * s.width.toNat + (g % s.gridw.toNat * s.bsize.toNat + dx))) ∧
    (∀ x y, x < s.width.toNat → y < s.height.toNat →
      ∃! g, g < s.grid.toNat ∧ 4 * (y * s.width.toNat + x) ∈ footprint s g) ∧
    (∀ g, g < s.grid.toNat → ∀ a ∈ footprint s g, ∃ x y, x < s.width.toNat ∧ y < s.height.toNat ∧ a = 4 * (y * s.width.toNat + x))

/-- 41_framecodec.md R147: the sample pixel of block g is column bx*BSIZE + BSIZE div 2, row by*BSIZE + BSIZE div 2, it lies in the
block's footprint for every BSIZE >= 1, and no other byte of RAST is read: a raster that agrees with this one on the sample pixel
gives the same class and takes the same draws. -/
def Obligations.SampleIsBlockCentre : Prop :=
  ∀ (s : State) (g : Nat), 1 ≤ s.bsize.toNat →
    sampleAddress s g = 4 * ((g / s.gridw.toNat * s.bsize.toNat + s.bsize.toNat / 2) * s.width.toNat
      + (g % s.gridw.toNat * s.bsize.toNat + s.bsize.toNat / 2)) ∧
    sampleAddress s g ∈ footprint s g ∧
    ∀ (n : Memory) (c : Machine.Class) (t : State), (∀ j, j < 4 → n.read? (sampleAddress s g + j) = s.rast.read? (sampleAddress s g + j)) →
      sampleClass blockParams g s = .ok (c, t) → sampleClass blockParams g { s with rast := n } = .ok (c, { t with rast := n })

/-- 41_framecodec.md R150, R151: encodeRaster runs, changes RAST alone, leaves every pixel of every block of the grid in the colour
of that block's class, and leaves every byte beyond the raster as it was. -/
def Obligations.EncodeRasterWritesEveryBlock : Prop :=
  ∀ (s : State) (chunk : List Byte), s.GeometryValid blockParams → chunk.length ≤ s.cap.toNat →
    ∃ m : Memory, encodeRaster blockParams chunk s = .ok { s with rast := m } ∧
      (∀ g, g < s.grid.toNat → ∀ a ∈ footprint s g, ∀ e ∈ colourTable, e.1.toNat = blockClassNumber chunk g →
        ∀ j, j < 4 → m.read? (a + j) = some (byteOf e.2 j)) ∧
      (∀ x, 4 * (s.width.toNat * s.height.toNat) ≤ x → m.read? x = s.rast.read? x)

/-- 41_framecodec.md R152: the raster encodeRaster leaves depends only on the chunk, WIDTH, BSIZE and GRID. -/
def Obligations.EncodingIsDeterministic : Prop :=
  ∀ (s t s' t' : State) (chunk : List Byte), s.GeometryValid blockParams → t.GeometryValid blockParams →
    s.width = t.width → s.bsize = t.bsize → s.grid = t.grid →
    encodeRaster blockParams chunk s = .ok s' → encodeRaster blockParams chunk t = .ok t' →
    ∀ a, a < 4 * (s.width.toNat * s.height.toNat) → s'.rast.read? a = t'.rast.read? a

/-- 41_framecodec.md R153, R154: decoding the raster in RAST. With `v g j` byte j of the sample pixel of block g (as written, free where
never written) and `c g` its class code: if gs is the first block of class 4, reachedSentinel is true and the chunk holds gs div 4
bytes; with no such block it is false and the chunk holds CAP bytes. Byte i is the four symbols of blocks 4i .. 4i+3. Only the model's
count of draws (log 2) moves, and not when every sampled byte is written: blocks after the first Sentinel are not sampled. -/
def Obligations.DecodeRasterStopsAtSentinel : Prop :=
  ∀ s : State, s.GeometryValid blockParams →
    ∃ (v : Nat → Nat → Byte) (chunk : List Byte) (reached : Bool) (d : Nat),
      let c := fun g => classNumber s.thresh.toNat (v g 0).toNat (v g 1).toNat (v g 2).toNat
      let written := fun g => ∀ j, j < 4 → s.rast.read? (sampleAddress s g + j) ≠ none
      decodeRaster blockParams s = .ok (chunk, reached, { s with draws := d }) ∧
      (∀ g j b, g < s.grid.toNat → j < 4 → s.rast.read? (sampleAddress s g + j) = some b → v g j = b) ∧
      (∀ gs, gs < s.grid.toNat → c gs = 4 → (∀ g, g < gs → c g ≠ 4) →
        reached = true ∧ chunk.length = gs / 4 ∧ ((∀ g, g ≤ gs → written g) → d = s.draws)) ∧
      ((∀ g, g < s.grid.toNat → c g ≠ 4) →
        reached = false ∧ chunk.length = s.cap.toNat ∧ ((∀ g, g < s.grid.toNat → written g) → d = s.draws)) ∧
      (∀ i (b : Byte), chunk[i]? = some b →
        b.toNat = 64 * c (4 * i) + 16 * c (4 * i + 1) + 4 * c (4 * i + 2) + c (4 * i + 3))

/-- 41_framecodec.md R156, the raster round trip: what encodeRaster wrote for a chunk of at most CAP bytes decodes, in any state with
the same geometry and threshold and the same raster bytes, to (chunk, |chunk| < CAP). -/
def Obligations.RasterRoundTrip : Prop :=
  ∀ (s t u : State) (chunk : List Byte), s.GeometryValid blockParams → chunk.length ≤ s.cap.toNat →
    encodeRaster blockParams chunk s = .ok t →
    u.GeometryValid blockParams → u.width = s.width → u.height = s.height → u.bsize = s.bsize → u.thresh = s.thresh →
    (∀ a, a < 4 * (s.width.toNat * s.height.toNat) → u.rast.read? a = t.rast.read? a) →
    decodeRaster blockParams u = .ok (chunk, decide (chunk.length < s.cap.toNat), u)

/-- 41_framecodec.md R161: no command reads or writes a RAST byte at an address >= 4*WIDTH*HEIGHT. Such bytes are unchanged, and a
memory that differs from RAST only there changes nothing else of the outcome. -/
def Obligations.BytesBeyondRasterAreInert : Prop :=
  ∀ (i : Instr) (s t : State) (n : Memory), s.Inv blockParams → exec i s = .next t →
    (∀ a, a < 4 * (s.width.toNat * s.height.toNat) → n.read? a = s.rast.read? a) →
    (∀ a, 4 * (s.width.toNat * s.height.toNat) ≤ a → t.rast.read? a = s.rast.read? a) ∧
    ∃ m : Memory, exec i { s with rast := n } = .next { t with rast := m } ∧
      (∀ a, a < 4 * (s.width.toNat * s.height.toNat) → m.read? a = t.rast.read? a) ∧
      (∀ a, 4 * (s.width.toNat * s.height.toNat) ≤ a → m.read? a = n.read? a)

/-! ## ChunkSequencer -/

/-- 42_sequencer.md R182, ENC_START: the checks in order, else the registers of an open encode stream and nothing else. -/
def Obligations.EncStartOpensStream : Prop :=
  formatN .encStart 0x00000030#32 ∧
  ∀ s : State, s.status.err = false →
    (s.status.mode ≠ .idle → exec .encStart s = .next (raise .sequenceError s)) ∧
    (s.status.mode = .idle → s.status.cfgValid = false → exec .encStart s = .next (raise .sequenceError s)) ∧
    (s.status.mode = .idle → s.status.cfgValid = true → blockParams.srcBytes < s.srcLen.toNat →
      exec .encStart s = .next (raise .rangeError s)) ∧
    (s.status.mode = .idle → s.status.cfgValid = true → s.srcLen.toNat ≤ blockParams.srcBytes →
      exec .encStart s = .next { s with
        seq := 0, srcPos := 0, chunkLen := 0
        status := { s.status with final := false, done := false, mode := .enc } })

/-- 42_sequencer.md R183, ENC_FRAME: SEQUENCE_ERROR outside an encode stream. Inside one (in a state that meets the invariant), with
len = min(CAP, SRC_LEN - SRC_POS), a chunk of len bytes whose written bytes are those of SRC is encoded into every block of the raster,
and the registers change as the rule says. Every byte of RAST beyond the raster, SRC, ACC and everything else is unchanged (but the
model's count of draws, log 2, and that not when the chunk's SRC bytes are all written). -/
def Obligations.EncFrameEncodesNextChunk : Prop :=
  formatN .encFrame 0x00000031#32 ∧
  ∀ s : State, s.status.err = false →
    (s.status.mode ≠ .enc → exec .encFrame s = .next (raise .sequenceError s)) ∧
    (s.status.mode = .enc → s.Inv blockParams →
      let len := min s.cap.toNat (s.srcLen.toNat - s.srcPos.toNat)
      ∃ (chunk : List Byte) (m : Memory) (d : Nat), chunk.length = len ∧
        (∀ i b, i < len → s.src.read? (s.srcPos.toNat + i) = some b → chunk[i]? = some b) ∧
        ((∀ i, i < len → s.src.read? (s.srcPos.toNat + i) ≠ none) → d = s.draws) ∧
        exec .encFrame s = .next { s with
          rast := m, draws := d
          chunkLen := BitVec.ofNat 32 len
          srcPos := BitVec.ofNat 32 (s.srcPos.toNat + len)
          seq := BitVec.ofNat 32 (s.seq.toNat + 1)
          status := if len < s.cap.toNat then { s.status with final := true, done := true, mode := .idle }
            else { s.status with final := false } } ∧
        (∀ g, g < s.grid.toNat → ∀ a ∈ footprint s g, ∀ e ∈ colourTable, e.1.toNat = blockClassNumber chunk g →
          ∀ j, j < 4 → m.read? (a + j) = some (byteOf e.2 j)) ∧
        (∀ x, 4 * (s.width.toNat * s.height.toNat) ≤ x → m.read? x = s.rast.read? x))

/-- 42_sequencer.md R186, DEC_START: the checks in order, else the registers of an open decode stream; ACC is not cleared. -/
def Obligations.DecStartOpensStream : Prop :=
  formatN .decStart 0x00000038#32 ∧
  ∀ s : State, s.status.err = false →
    (s.status.mode ≠ .idle → exec .decStart s = .next (raise .sequenceError s)) ∧
    (s.status.mode = .idle → s.status.cfgValid = false → exec .decStart s = .next (raise .sequenceError s)) ∧
    (s.status.mode = .idle → s.status.cfgValid = true →
      exec .decStart s = .next { s with
        accLen := 0, seq := 0, chunkLen := 0
        status := { s.status with sent := false, done := false, mode := .dec } })

/-- 42_sequencer.md R187, DEC_FRAME: the checks in order; else the chunk that decodeRaster returns is appended at ACC_LEN, every other
byte of ACC unchanged, and the registers change as the rule says, or RANGE_ERROR is raised when it would overflow ACC, nothing appended.
It completes whenever ACC has room for a full chunk. (The model's count of draws moves with never-written raster bytes, log 2.) -/
def Obligations.DecFrameAppendsChunk : Prop :=
  formatN .decFrame 0x00000039#32 ∧
  ∀ s : State, s.status.err = false →
    (s.status.mode ≠ .dec → exec .decFrame s = .next (raise .sequenceError s)) ∧
    (s.status.mode = .dec → s.status.done = false → (s.inWidth ≠ s.width ∨ s.inHeight ≠ s.height) →
      exec .decFrame s = .next (raise .formatError s)) ∧
    (s.status.mode = .dec → s.status.done = false → s.inWidth = s.width → s.inHeight = s.height → s.Inv blockParams →
      ∃ (chunk : List Byte) (reached : Bool) (d : Nat),
        decodeRaster blockParams s = .ok (chunk, reached, { s with draws := d }) ∧ chunk.length ≤ s.cap.toNat ∧
        (blockParams.accBytes < s.accLen.toNat + chunk.length →
          exec .decFrame s = .next (raise .rangeError { s with draws := d })) ∧
        (s.accLen.toNat + chunk.length ≤ blockParams.accBytes →
          ∃ m : Memory, exec .decFrame s = .next { s with
              acc := m, draws := d
              accLen := BitVec.ofNat 32 (s.accLen.toNat + chunk.length)
              chunkLen := BitVec.ofNat 32 chunk.length
              seq := BitVec.ofNat 32 (s.seq.toNat + 1)
              status := { s.status with sent := reached, done := reached } } ∧
            (∀ a, m.read? a = if s.accLen.toNat ≤ a ∧ a < s.accLen.toNat + chunk.length then chunk[a - s.accLen.toNat]?
              else s.acc.read? a)))

/-- 42_sequencer.md R187: DEC_FRAME completes with its own effect in every state that meets the invariant, in an open decode stream
not yet done, with the raster's dimensions and with room for a full chunk in ACC. -/
def Obligations.DecFrameCompletesWithRoom : Prop :=
  ∀ s : State, s.Inv blockParams → s.status.err = false → s.status.mode = .dec → s.status.done = false →
    s.inWidth = s.width → s.inHeight = s.height → s.accLen.toNat + s.cap.toNat ≤ blockParams.accBytes →
    ∃ t : State, exec .decFrame s = .next t ∧ t.status.err = false ∧ t.status.mode = .dec ∧ t.seq = s.seq + 1 ∧
      t.accLen.toNat = s.accLen.toNat + t.chunkLen.toNat ∧ t.chunkLen.toNat ≤ s.cap.toNat ∧
      t.status.done = t.status.sent ∧ (t.status.sent = false → t.chunkLen = s.cap) ∧ t.rast = s.rast ∧ t.src = s.src

/-- 42_sequencer.md R188: a DEC_FRAME with MODE = DEC and DONE = 1 has no effect, whatever the dimensions. -/
def Obligations.FramesAfterEndAreIgnored : Prop :=
  ∀ s : State, s.status.mode = .dec → s.status.done = true → exec .decFrame s = .next s

/-- 42_sequencer.md R189, DEC_END: SEQUENCE_ERROR outside a decode stream, MISSING_TERMINATOR before a Sentinel, else MODE = IDLE and
nothing else. -/
def Obligations.DecEndClosesStream : Prop :=
  formatN .decEnd 0x0000003A#32 ∧
  ∀ s : State, s.status.err = false →
    (s.status.mode ≠ .dec → exec .decEnd s = .next (raise .sequenceError s)) ∧
    (s.status.mode = .dec → s.status.done = false → exec .decEnd s = .next (raise .missingTerminator s)) ∧
    (s.status.mode = .dec → s.status.done = true → exec .decEnd s = .next { s with status := { s.status with mode := .idle } })

/-- 42_sequencer.md R184: after ENC_START with SRC_LEN = n, exactly n div CAP + 1 ENC_FRAME commands succeed. Every one before the last
leaves FINAL = DONE = 0 and MODE = ENC with a chunk of CAP bytes; the last encodes n mod CAP bytes, sets DONE and FINAL and closes the
stream with SRC_POS = n and SEQ = (n div CAP + 1) mod 2^32; one more raises SEQUENCE_ERROR. -/
def Obligations.EncodeStreamHasAllFrames : Prop :=
  ∀ s : State, s.Inv blockParams → s.status.err = false → s.status.mode = .idle → s.status.cfgValid = true →
    s.srcLen.toNat ≤ blockParams.srcBytes →
    ∃ s₁, exec .encStart s = .next s₁ ∧
      (∀ k, k ≤ s.srcLen.toNat / s.cap.toNat →
        ∃ rs t, encodeFrames k s₁ = some (rs, t) ∧ t.status.mode = .enc ∧ t.status.done = false ∧ t.status.final = false ∧
          t.srcPos.toNat = k * s.cap.toNat ∧ t.seq = BitVec.ofNat 32 k ∧
          (0 < k → t.chunkLen = s.cap)) ∧
      ∃ rs t, encodeFrames (s.srcLen.toNat / s.cap.toNat + 1) s₁ = some (rs, t) ∧ t.status.mode = .idle ∧
        t.status.done = true ∧ t.status.final = true ∧ t.srcPos = s.srcLen ∧
        t.chunkLen.toNat = s.srcLen.toNat % s.cap.toNat ∧
        t.seq = BitVec.ofNat 32 (s.srcLen.toNat / s.cap.toNat + 1) ∧
        exec .encFrame t = .next (raise .sequenceError t)

/-- 42_sequencer.md R181, the chunking law: with C = CAP and a file of n bytes b in SRC, the encode stream has n div C + 1 frames, and
frame k is the raster of the chunk b[k*C ..], of C bytes for k < n div C and of n mod C bytes for k = n div C. -/
def Obligations.EncodeStreamFollowsChunkingLaw : Prop :=
  ∀ (s : State) (b : List Byte), s.Inv blockParams → s.status.err = false → s.status.mode = .idle → s.status.cfgValid = true →
    s.srcLen.toNat = b.length → b.length ≤ blockParams.srcBytes → (∀ i, i < b.length → s.src.read? i = b[i]?) →
    ∃ s₁ rs s₂, exec .encStart s = .next s₁ ∧
      encodeFrames (b.length / s.cap.toNat + 1) s₁ = some (rs, s₂) ∧ rs.length = b.length / s.cap.toNat + 1 ∧
      exec .encFrame s₂ = .next (raise .sequenceError s₂) ∧
      ∀ k, k ≤ b.length / s.cap.toNat → ∃ m : Memory, rs[k]? = some m ∧
        let chunk := (b.drop (k * s.cap.toNat)).take s.cap.toNat
        chunk.length = (if k < b.length / s.cap.toNat then s.cap.toNat else b.length % s.cap.toNat) ∧
        ∀ g, g < s.grid.toNat → ∀ a ∈ footprint s g, ∀ e ∈ colourTable, e.1.toNat = blockClassNumber chunk g →
          ∀ j, j < 4 → m.read? (a + j) = some (byteOf e.2 j)

/-- 42_sequencer.md R191, the end-to-end round trip: the rasters of an encode stream of the bytes b, loaded back losslessly and in order
with the configured dimensions into a decode stream, leave no error, DONE = 1, ACC_LEN = n and ACC[0 .. n-1] = b. -/
def Obligations.EncodeThenDecodeRestoresFile : Prop :=
  ∀ (s : State) (b : List Byte), s.Inv blockParams → s.status.err = false → s.status.mode = .idle → s.status.cfgValid = true →
    s.srcLen.toNat = b.length → b.length ≤ blockParams.srcBytes → b.length ≤ blockParams.accBytes →
    (∀ i, i < b.length → s.src.read? i = b[i]?) →
    ∃ s₁ rs s₂ d₁ d₂ d₃, exec .encStart s = .next s₁ ∧
      encodeFrames (b.length / s.cap.toNat + 1) s₁ = some (rs, s₂) ∧ s₂.status.done = true ∧ s₂.status.mode = .idle ∧
      exec .decStart s₂ = .next d₁ ∧ decodeFrames rs d₁ = some d₂ ∧ exec .decEnd d₂ = .next d₃ ∧
      d₃.status.err = false ∧ d₃.status.done = true ∧ d₃.status.mode = .idle ∧ d₃.accLen.toNat = b.length ∧
      ∀ i, i < b.length → d₃.acc.read? i = b[i]?

/-! ## Control -/

/-- 43_control.md R220, NOP: no state change, in any state; a word with OP 0x00 and another bit set raises ILLEGAL_COMMAND. -/
def Obligations.NopChangesNothing : Prop :=
  formatN .nop 0x00000000#32 ∧ ∀ s : State, exec .nop s = .next s

/-- 43_control.md R221, R222, CONFIG: SEQUENCE_ERROR in a stream, CONFIG_ERROR when a check fails, else the derived sizes and
CFG_VALID = 1 and nothing else. -/
def Obligations.ConfigComputesGeometry : Prop :=
  formatN .config 0x00000001#32 ∧
  ∀ s : State, s.status.err = false →
    let W := s.width.toNat; let H := s.height.toNat; let S := s.bsize.toNat; let T := s.thresh.toNat
    let ok := S ≠ 0 ∧ (W ≠ 0 ∧ H ≠ 0) ∧ (W % S = 0 ∧ H % S = 0) ∧ W * H ≤ 2073600 ∧ (W / S) * (H / S) % 4 = 0 ∧ T ≤ 254
    (s.status.mode ≠ .idle → exec .config s = .next (raise .sequenceError s)) ∧
    (s.status.mode = .idle → ¬ ok → exec .config s = .next (raise .configError s)) ∧
    (s.status.mode = .idle → ok → ∃ t : State,
      exec .config s = .next t ∧
      t = { s with gridw := t.gridw, gridh := t.gridh, grid := t.grid, cap := t.cap, status := { s.status with cfgValid := true } } ∧
      t.gridw.toNat = W / S ∧ t.gridh.toNat = H / S ∧ t.grid.toNat = (W / S) * (H / S) ∧ t.cap.toNat = (W / S) * (H / S) / 4 ∧
      4 ≤ t.grid.toNat ∧ 1 ≤ t.cap.toNat)

/-- 43_control.md R223, ABORT: MODE = IDLE and nothing else; in IDLE it changes nothing. -/
def Obligations.AbortClosesStream : Prop :=
  formatN .abort 0x00000002#32 ∧
  ∀ s : State, s.status.err = false →
    exec .abort s = .next { s with status := { s.status with mode := .idle } } ∧
    (s.status.mode = .idle → exec .abort s = .next s)

/-- 43_control.md R224, IOFAIL: always IO_ERROR, in any mode: the error latch and nothing else, ERR_SEQ = SEQ. -/
def Obligations.IofailLatchesIoError : Prop :=
  formatN .iofail 0x00000003#32 ∧
  ∀ s : State, s.status.err = false →
    exec .iofail s = .next { s with
      status := { s.status with err := true, errCode := .ioError, mode := .idle }, errSeq := s.seq }

/-- 43_control.md R225 and 70_reset_and_hazards.md R290, SRESET, the hardware reset and power-on: every register at its reset value, in
every state, ERR = 1 among them; SRESET and a hardware reset keep every byte of memory and its written status. Only the exact word
0x0000000F is SRESET. -/
def Obligations.ResetsRestoreEveryRegister : Prop :=
  registersReset State.reset ∧
  encode .sreset = 0x0000000F#32 ∧
  (∀ w : Word, decode w = .ok .sreset ↔ w = 0x0000000F#32) ∧
  ∀ s : State, ∃ t u : State,
    runCommand 0x0000000F#32 s = .next t ∧ exec .sreset s = .next t ∧ hostAccess blockParams .hardReset s = .next t ∧
    registersReset t ∧ t.src = s.src ∧ t.rast = s.rast ∧ t.acc = s.acc ∧
    hostAccess blockParams .powerOn s = .next u ∧ registersReset u

/-- 70_reset_and_hazards.md R292: at power-on no byte of any memory counts as written; a reset while powered and SRESET leave the
memories unchanged. -/
def Obligations.ResetsAndMemory : Prop :=
  (∀ s : State, ∃ t, hostAccess blockParams .powerOn s = .next t ∧
    ∀ sp a, (t.mem sp).read? a = none) ∧
  (∀ sp a, (State.reset.mem sp).read? a = none) ∧
  (∀ s t : State, (exec .sreset s = .next t ∨ hostAccess blockParams .hardReset s = .next t) → ∀ sp, t.mem sp = s.mem sp)

/-! ## Errors -/

/-- 60_exceptions.md R251, R252: whatever command raises an error, the error latch is all it changed: ERR, ERRCODE, MODE = IDLE and
ERR_SEQ = SEQ; no other register, no byte of memory. (The model's count of draws, log 2, may have moved, and only in
DEC_FRAME.) -/
def Obligations.ErrorsArePrecise : Prop :=
  ∀ (i : Instr) (s t : State), exec i s = .next t → s.status.err = false → t.status.err = true →
    ∃ (e : ErrCode) (d : Nat), e ≠ .none ∧ (i ≠ .decFrame → d = s.draws) ∧
      t = { s with
        status := { s.status with err := true, errCode := e, mode := .idle }
        errSeq := s.seq
        draws := d }

/-- 60_exceptions.md R254, R255: while ERR = 1 a word is ignored or is SRESET; otherwise an illegal word raises ILLEGAL_COMMAND; otherwise
the error a command raises is the first check of its row that fails, and with none it latches no error. -/
def Obligations.FirstFailingCheckIsRaised : Prop :=
  ∀ (w : Word) (s : State), s.Inv blockParams →
    (s.status.err = true → runCommand w s = if w = 0x0000000F#32 then exec .sreset s else .next s) ∧
    (s.status.err = false → illegalWord w → runCommand w s = .next (raise .illegalCommand s)) ∧
    (s.status.err = false → ∀ i : Instr, decode w = .ok i →
      ∃ t, runCommand w s = .next t ∧
        (∀ e, errorOf blockParams i s = some e → t.status.err = true ∧ t.status.errCode = e ∧ t.errSeq = s.seq) ∧
        (errorOf blockParams i s = none → t.status.err = false))

/-- 60_exceptions.md R257: while ERR = 1 no command executes except SRESET, so the first ERRCODE and ERR_SEQ are kept. -/
def Obligations.NothingRunsWhileErrorLatched : Prop :=
  ∀ s : State, s.status.err = true →
    (∀ i : Instr, i.wellFormed = true → i ≠ .sreset → exec i s = .next s) ∧
    (∀ w : Word, w ≠ 0x0000000F#32 → runCommand w s = .next s)

/-- 10_state.md R30: a step clears ERR only by SRESET, a hardware reset or power-on; a step sets it only by the error latch, in a command;
while it is 1 every command word but SRESET is ignored. -/
def Obligations.OnlyResetClearsError : Prop :=
  (∀ s t : State, step s = .next t →
    (s.status.err = true → t.status.err = false → ∃ a rest, s.pending = a :: rest ∧
      (a = .hardReset ∨ a = .powerOn ∨ a = .writeReg 0x00#8 4 0x0000000F#32)) ∧
    (s.status.err = false → t.status.err = true → ∃ w rest e d, s.pending = .writeReg 0x00#8 4 w :: rest ∧
      t = raise e { s with pending := rest, draws := d })) ∧
  (∀ (s : State) (w : Word), s.status.err = true → w ≠ 0x0000000F#32 → runCommand w s = .next s)

/-! ## Who writes what -/

/-- 10_state.md R26: MODE changes only by the commands the rule lists, each to the mode it lists, by the error latch, or by a reset. -/
def Obligations.ModeWriters : Prop :=
  ∀ s t : State, step s = .next t → t.status.mode ≠ s.status.mode → ∃ a rest, s.pending = a :: rest ∧
    ((a = .hardReset ∨ a = .powerOn) ∧ t.status.mode = .idle ∨
      ∃ w, a = .writeReg 0x00#8 4 w ∧
        (decode w = .ok .encStart ∧ t.status.mode = .enc ∨
          decode w = .ok .decStart ∧ t.status.mode = .dec ∨
          decode w = .ok .encFrame ∧ t.status.final = true ∧ t.status.mode = .idle ∨
          decode w = .ok .decEnd ∧ t.status.mode = .idle ∨
          decode w = .ok .abort ∧ t.status.mode = .idle ∨
          decode w = .ok .sreset ∧ t.status.mode = .idle ∨
          s.status.err = false ∧ t.status.err = true ∧ t.status.mode = .idle))

/-- The "written by" column of 10_state.md R55 (section 8) over commands, and for what R55 does not list: GRIDW .. CAP (R37, section 4),
ARG and RESULT (R45, R46, section 6), the geometry registers, THRESH, SRC_LEN and the IN_ registers, which only the host and SRESET
write (sections 3 and 5), and SRC, RAST and ACC (20_memory.md R60, R62, section 1): a command that changes a piece of state is one the
spec names for it. `pending` and `busData` are the model's own fields (logs 1 and 3), and no command changes them. -/
def Obligations.CommandFrames : Prop :=
  ∀ (i : Instr) (s t : State), exec i s = .next t →
    let latched := s.status.err = false ∧ t.status.err = true
    (t.status.cfgValid ≠ s.status.cfgValid → i = .config ∨ i = .sreset) ∧
    (t.status.mode ≠ s.status.mode → i ∈ [.encStart, .encFrame, .decStart, .decEnd, .abort, .sreset] ∨ latched) ∧
    (t.status.done ≠ s.status.done → i ∈ [.encStart, .encFrame, .decStart, .decFrame, .sreset]) ∧
    (t.status.final ≠ s.status.final → i ∈ [.encStart, .encFrame, .sreset]) ∧
    (t.status.sent ≠ s.status.sent → i ∈ [.decStart, .decFrame, .sreset]) ∧
    (t.status.err ≠ s.status.err ∨ t.status.errCode ≠ s.status.errCode ∨ t.errSeq ≠ s.errSeq → i = .sreset ∨ latched) ∧
    (t.status.busy ≠ s.status.busy → i = .sreset) ∧
    (t.gridw ≠ s.gridw ∨ t.gridh ≠ s.gridh ∨ t.grid ≠ s.grid ∨ t.cap ≠ s.cap → i = .config ∨ i = .sreset) ∧
    (t.width ≠ s.width ∨ t.height ≠ s.height ∨ t.bsize ≠ s.bsize ∨ t.thresh ≠ s.thresh ∨ t.srcLen ≠ s.srcLen
      ∨ t.inWidth ≠ s.inWidth ∨ t.inHeight ≠ s.inHeight ∨ t.arg ≠ s.arg → i = .sreset) ∧
    (t.seq ≠ s.seq ∨ t.chunkLen ≠ s.chunkLen → i ∈ [.encStart, .encFrame, .decStart, .decFrame, .sreset]) ∧
    (t.srcPos ≠ s.srcPos → i ∈ [.encStart, .encFrame, .sreset]) ∧
    (t.accLen ≠ s.accLen → i ∈ [.decStart, .decFrame, .sreset]) ∧
    (t.result ≠ s.result → i ∈ [.pack, .unpack, .classify, .rdblk, .sreset] ∨ ∃ cls, i = .symcolor cls) ∧
    t.src = s.src ∧ t.pending = s.pending ∧ t.busData = s.busData ∧
    (t.rast ≠ s.rast → i = .encFrame ∨ ∃ cls, i = .wrblk cls) ∧
    (t.acc ≠ s.acc → i = .decFrame)

/-! ## The host's side -/

/-- 10_state.md R24: STATUS by its bits as the host reads it at offset 0x04; 0 after reset; ERRCODE = 0 when ERR = 0; a host write to it
is ignored. -/
def Obligations.StatusReadsByFields : Prop :=
  ∀ s : State, s.status.busy = false → ∃ v : Word,
    hostAccess blockParams (.readReg 0x04#8 4) s = .next { s with busData := v } ∧
    v.getLsbD 0 = s.status.cfgValid ∧
    (v.extractLsb' 1 2).toNat = (match s.status.mode with | .idle => 0 | .enc => 1 | .dec => 2) ∧
    v.getLsbD 3 = s.status.done ∧ v.getLsbD 4 = s.status.final ∧ v.getLsbD 5 = s.status.sent ∧ v.getLsbD 6 = s.status.err ∧
    v.getLsbD 7 = s.status.busy ∧
    (v.extractLsb' 8 3).toNat = (match s.status.errCode with
      | .none => 0 | .configError => 1 | .ioError => 2 | .formatError => 3 | .missingTerminator => 4 | .sequenceError => 5
      | .illegalCommand => 6 | .rangeError => 7) ∧
    v.extractLsb' 11 21 = 0 ∧
    (s.Inv blockParams → s.status.err = false → v.extractLsb' 8 3 = 0) ∧
    statusWord State.reset.status = 0 ∧
    (∀ w, hostAccess blockParams (.writeReg 0x04#8 4 w) s = .next s)

/-- 10_state.md R48: a host read of a register returns its host-visible bits and 0 elsewhere, 0 for CMD and at every reserved offset,
and changes nothing of the block. -/
def Obligations.HostReadsReturnRegisters : Prop :=
  ∀ s : State, s.status.busy = false →
    (∀ e ∈ [(0x00#8, (0#32 : Word)), (0x04#8, statusWord s.status), (0x08#8, s.width.setWidth 32), (0x0C#8, s.height.setWidth 32),
        (0x10#8, s.bsize.setWidth 32), (0x14#8, s.thresh.setWidth 32), (0x18#8, s.gridw), (0x1C#8, s.gridh), (0x20#8, s.grid),
        (0x24#8, s.cap)]
        ++ [(0x28#8, s.seq), (0x2C#8, s.srcLen), (0x30#8, s.srcPos), (0x34#8, s.chunkLen), (0x38#8, s.accLen),
        (0x3C#8, s.errSeq), (0x40#8, s.inWidth.setWidth 32), (0x44#8, s.inHeight.setWidth 32), (0x48#8, s.arg), (0x4C#8, s.result)],
      hostAccess blockParams (.readReg e.1 4) s = .next { s with busData := e.2 }) ∧
    (∀ off : BitVec 8, off.toNat % 4 = 0 → 0x50 ≤ off.toNat →
      hostAccess blockParams (.readReg off 4) s = .next { s with busData := 0 })

/-- 10_state.md R49: host writes by the register's access: an RO register and a reserved offset ignore the write, an RW register stores
the low bits of its field (a geometry register in IDLE mode, SRC_LEN outside ENC mode, R50 and R51), CMD executes the word. Nothing
here depends on ERR. -/
def Obligations.HostWritesByAccess : Prop :=
  ∀ (s : State) (v : Word), s.status.busy = false →
    (∀ off ∈ [0x04#8, 0x18#8, 0x1C#8, 0x20#8, 0x24#8, 0x28#8, 0x30#8, 0x34#8, 0x38#8, 0x3C#8, 0x4C#8],
      hostAccess blockParams (.writeReg off 4 v) s = .next s) ∧
    (∀ off : BitVec 8, off.toNat % 4 = 0 → 0x50 ≤ off.toNat → hostAccess blockParams (.writeReg off 4 v) s = .next s) ∧
    hostAccess blockParams (.writeReg 0x40#8 4 v) s = .next { s with inWidth := v.setWidth 16 } ∧
    hostAccess blockParams (.writeReg 0x44#8 4 v) s = .next { s with inHeight := v.setWidth 16 } ∧
    hostAccess blockParams (.writeReg 0x48#8 4 v) s = .next { s with arg := v } ∧
    (s.status.mode = .idle →
      (∃ t, hostAccess blockParams (.writeReg 0x08#8 4 v) s = .next t ∧ t.width = v.setWidth 16) ∧
      (∃ t, hostAccess blockParams (.writeReg 0x0C#8 4 v) s = .next t ∧ t.height = v.setWidth 16) ∧
      (∃ t, hostAccess blockParams (.writeReg 0x10#8 4 v) s = .next t ∧ t.bsize = v.setWidth 16) ∧
      (∃ t, hostAccess blockParams (.writeReg 0x14#8 4 v) s = .next t ∧ t.thresh = v.setWidth 8)) ∧
    (s.status.mode ≠ .enc → ∃ t, hostAccess blockParams (.writeReg 0x2C#8 4 v) s = .next t ∧ t.srcLen = v) ∧
    hostAccess blockParams (.writeReg 0x00#8 4 v) s = runCommand v s

/-- 10_state.md R50: a host write of WIDTH, HEIGHT, BSIZE or THRESH is ignored unless MODE = IDLE; then it stores the low bits and
clears CFG_VALID and the derived sizes, also when the value is the one already held. -/
def Obligations.GeometryWritesClearConfig : Prop :=
  ∀ (s : State) (v : Word), s.status.busy = false →
    (s.status.mode ≠ .idle → ∀ off ∈ [0x08#8, 0x0C#8, 0x10#8, 0x14#8], hostAccess blockParams (.writeReg off 4 v) s = .next s) ∧
    (s.status.mode = .idle →
      let c : State := { s with gridw := 0, gridh := 0, grid := 0, cap := 0, status := { s.status with cfgValid := false } }
      hostAccess blockParams (.writeReg 0x08#8 4 v) s = .next { c with width := v.setWidth 16 } ∧
      hostAccess blockParams (.writeReg 0x0C#8 4 v) s = .next { c with height := v.setWidth 16 } ∧
      hostAccess blockParams (.writeReg 0x10#8 4 v) s = .next { c with bsize := v.setWidth 16 } ∧
      hostAccess blockParams (.writeReg 0x14#8 4 v) s = .next { c with thresh := v.setWidth 8 })

/-- 10_state.md R51: a host write to SRC_LEN is ignored while MODE = ENC and stores the full 32 bits in any other mode. -/
def Obligations.SourceLengthFrozenWhileEncoding : Prop :=
  ∀ (s : State) (v : Word), s.status.busy = false →
    (s.status.mode = .enc → hostAccess blockParams (.writeReg 0x2C#8 4 v) s = .next s) ∧
    (s.status.mode ≠ .enc → hostAccess blockParams (.writeReg 0x2C#8 4 v) s = .next { s with srcLen := v })

/-- 20_memory.md R61: every register access that is not a whole 32-bit word at an offset that is a multiple of 4 is refused and gives no
value; every aligned word read gives one, and so does an aligned word write of a register other than CMD. -/
def Obligations.UndefinedCyclesAreRefused : Prop :=
  ∀ s : State, s.status.busy = false → ∀ (off : BitVec 8) (bytes : Nat) (v : Word),
    ((bytes ≠ 4 ∨ off.toNat % 4 ≠ 0) →
      hostAccess blockParams (.readReg off bytes) s = .refused (.registerCycle off bytes) ∧
      hostAccess blockParams (.writeReg off bytes v) s = .refused (.registerCycle off bytes)) ∧
    (off.toNat % 4 = 0 → ∃ t, hostAccess blockParams (.readReg off 4) s = .next t) ∧
    (off.toNat % 4 = 0 → off ≠ 0x00#8 → ∃ t, hostAccess blockParams (.writeReg off 4 v) s = .next t)

/-- 20_memory.md R72: a host byte write changes that byte of that space and nothing else; a host byte read returns the last byte written
there, or some byte where nothing was written, and changes nothing of the block (but the model's count of draws, log 2); an address
outside the space is refused. -/
def Obligations.HostMemoryAccesses : Prop :=
  ∀ (s : State) (sp : Space) (a : Nat), s.status.busy = false →
    (a < spaceBytes blockParams sp →
      (∀ b : Byte, ∃ t, hostAccess blockParams (.writeMem sp a b) s = .next t ∧
        t = { s with src := t.src, rast := t.rast, acc := t.acc } ∧
        (t.mem sp).read? a = some b ∧
        (∀ sq x, (sq ≠ sp ∨ x ≠ a) → (t.mem sq).read? x = (s.mem sq).read? x)) ∧
      (∀ b : Byte, (s.mem sp).read? a = some b →
        hostAccess blockParams (.readMem sp a) s = .next { s with busData := b.setWidth 32 }) ∧
      ((s.mem sp).read? a = none →
        ∃ (b : Byte) (d : Nat), hostAccess blockParams (.readMem sp a) s = .next { s with busData := b.setWidth 32, draws := d })) ∧
    (spaceBytes blockParams sp ≤ a →
      hostAccess blockParams (.readMem sp a) s = .refused (.memoryCycle sp a) ∧
      ∀ b : Byte, hostAccess blockParams (.writeMem sp a b) s = .refused (.memoryCycle sp a))

/-- 20_memory.md section 2 (R66), in the form the model chose for it (log 2): a read of a range gives each written byte as last written,
and for each never-written byte a draw of its own, at rising counts. The engine's reads and the host's reads start at the state's count
and leave it past their draws, and no step, reset or power-on among them, takes the count back. So no two reads of never-written bytes,
in one access or in later ones, are the same draw. -/
def Obligations.UnwrittenBytesAreFreshDraws : Prop :=
  (∀ (m : Memory) (n a d : Nat),
    let unwritten := fun k => ((List.range k).filter fun i => m.read? (a + i) = none).length
    (m.readBytes a n d).2 = d + unwritten n ∧
    (m.readBytes a n d).1.length = n ∧
    (∀ i, i < n → (m.readBytes a n d).1[i]? =
      match m.read? (a + i) with
      | some b => some b
      | none => some (Config.freeByte (d + unwritten i))) ∧
    (∀ b : Byte, (m.write a b).read? a = some b ∧ ∀ x, x ≠ a → (m.write a b).read? x = m.read? x)) ∧
  (∀ (sp : Space) (a n : Nat) (s t : State) (bs : List Byte), memRead blockParams sp a n s = .ok (bs, t) →
    (bs, t.draws) = (s.mem sp).readBytes a n s.draws) ∧
  (∀ (s : State) (sp : Space) (a : Nat), s.status.busy = false → a < spaceBytes blockParams sp → (s.mem sp).read? a = none →
    hostAccess blockParams (.readMem sp a) s =
      .next { s with busData := (Config.freeByte s.draws).setWidth 32, draws := s.draws + 1 }) ∧
  (∀ s t : State, step s = .next t → s.draws ≤ t.draws)

/-- 20_memory.md R65, R67 and 00_scope.md R14: the bytes of a pixel are R, G, B, A at p .. p+3, and MemRead(RAST, p, 4) of a written
pixel is its RGBA word. -/
def Obligations.PixelBytesAreTheRgbaWord : Prop :=
  ∀ (s : State) (x y : Nat) (r g b al : Byte), pixelAddress s x y + 4 ≤ spaceBytes blockParams .rast →
    pixelAddress s x y = 4 * (y * s.width.toNat + x) ∧
    (s.rast.read? (pixelAddress s x y) = some r → s.rast.read? (pixelAddress s x y + 1) = some g →
      s.rast.read? (pixelAddress s x y + 2) = some b → s.rast.read? (pixelAddress s x y + 3) = some al →
      ∃ bs, memRead blockParams .rast (pixelAddress s x y) 4 s = .ok (bs, s) ∧
        leValue bs = al.toNat * 2 ^ 24 + b.toNat * 2 ^ 16 + g.toNat * 2 ^ 8 + r.toNat ∧
        BitVec.ofNat 32 (leValue bs) = rgbaWord r g b al ∧ redOf (rgbaWord r g b al) = r ∧ greenOf (rgbaWord r g b al) = g ∧
        blueOf (rgbaWord r g b al) = b ∧ alphaOf (rgbaWord r g b al) = al)

/-- 70_reset_and_hazards.md R297: BUSY is never 1 in a state that meets the invariant; while BUSY = 1 a host access other than a read of
STATUS is refused and never gets a value, and a read of STATUS changes nothing of the block. -/
def Obligations.AccessWhileBusyIsRefused : Prop :=
  (∀ s : State, s.Inv blockParams → s.status.busy = false) ∧
  ∀ (s : State) (a : HostAccess), s.status.busy = true →
    (a ≠ .readReg 0x04#8 4 → a ≠ .hardReset → a ≠ .powerOn → hostAccess blockParams a s = .refused .accessWhileBusy) ∧
    hostAccess blockParams (.readReg 0x04#8 4) s = .next { s with busData := statusWord s.status }

/-- 30_encoding.md R104, R102: the pseudo-instructions as the bus accesses of their expansions: a register write or read at its offset,
a command as the write of its word to CMD. -/
def Obligations.PseudoInstructionsExpand : Prop :=
  (∀ v : Word,
    expandLine (.packImm v) = [.writeReg 0x48#8 4 v, .writeReg 0x00#8 4 0x00000010#32] ∧
    expandLine (.unpackImm v) = [.writeReg 0x48#8 4 v, .writeReg 0x00#8 4 0x00000011#32] ∧
    expandLine (.classifyImm v) = [.writeReg 0x48#8 4 v, .writeReg 0x00#8 4 0x00000021#32] ∧
    expandLine (.rdblkImm v) = [.writeReg 0x48#8 4 v, .writeReg 0x00#8 4 0x00000023#32] ∧
    (∀ c : BitVec 3, expandLine (.wrblkImm c v) =
      [.writeReg 0x48#8 4 v, .writeReg 0x00#8 4 (BitVec.ofNat 32 (256 * c.toNat + 0x22))]) ∧
    expandLine (.encOpen v) = [.writeReg 0x2C#8 4 v, .writeReg 0x00#8 4 0x00000030#32]) ∧
  (∀ w h s t : Word,
    expandLine (.configure w h s t) = [.writeReg 0x08#8 4 w, .writeReg 0x0C#8 4 h, .writeReg 0x10#8 4 s, .writeReg 0x14#8 4 t,
      .writeReg 0x00#8 4 0x00000001#32] ∧
    expandLine (.decFrameIn w h) = [.writeReg 0x40#8 4 w, .writeReg 0x44#8 4 h, .writeReg 0x00#8 4 0x00000039#32]) ∧
  expandLine .wait = [.readReg 0x04#8 4]
end

