-- ==== Sys2Proof/Laws/Geometry.lean ====
section
/-! SUPPORT. The block geometry of a valid configuration: footprints partition the raster (41_framecodec.md R145 to R147). -/

namespace Sys2Proof.Machine

/-- The number of raster pixels, WIDTH * HEIGHT. -/
def pixels (s : State) : Nat := s.width.toNat * s.height.toNat

namespace State.GeometryValid

variable {p : Params} {s : State}

theorem width_eq (h : s.GeometryValid p) : s.width.toNat = s.gridw.toNat * s.bsize.toNat := by
  rw [h.gridw_eq]; exact (Nat.div_mul_cancel (Nat.dvd_of_mod_eq_zero h.width_div)).symm

theorem height_eq (h : s.GeometryValid p) : s.height.toNat = s.gridh.toNat * s.bsize.toNat := by
  rw [h.gridh_eq]; exact (Nat.div_mul_cancel (Nat.dvd_of_mod_eq_zero h.height_div)).symm

theorem grid_pos (h : s.GeometryValid p) : 0 < s.grid.toNat := by
  have := h.cap_pos; rw [h.cap_eq] at this; omega

theorem gridw_pos (h : s.GeometryValid p) : 0 < s.gridw.toNat := by
  have h1 := h.grid_pos; rw [h.grid_eq] at h1; exact Nat.pos_of_mul_pos_right h1

theorem grid_four (h : s.GeometryValid p) : s.grid.toNat = 4 * s.cap.toNat := by
  have := h.cap_eq; have := h.grid_mod; omega

theorem column_lt (h : s.GeometryValid p) (g : Nat) : blockColumn s g < s.gridw.toNat := Nat.mod_lt _ h.gridw_pos

theorem row_lt (h : s.GeometryValid p) {g : Nat} (hg : g < s.grid.toNat) : blockRow s g < s.gridh.toNat := by
  rw [blockRow, Nat.div_lt_iff_lt_mul h.gridw_pos, Nat.mul_comm, ← h.grid_eq]; exact hg

/-- A pixel of a block lies in the raster: its column. -/
theorem x_lt (h : s.GeometryValid p) (g : Nat) {dx : Nat} (hd : dx < s.bsize.toNat) :
    blockColumn s g * s.bsize.toNat + dx < s.width.toNat := by
  have h1 : (blockColumn s g + 1) * s.bsize.toNat ≤ s.gridw.toNat * s.bsize.toNat := Nat.mul_le_mul_right _ (h.column_lt g)
  rw [Nat.add_mul, Nat.one_mul] at h1
  rw [h.width_eq]; omega

/-- A pixel of a block lies in the raster: its row. -/
theorem y_lt (h : s.GeometryValid p) {g dy : Nat} (hg : g < s.grid.toNat) (hd : dy < s.bsize.toNat) :
    blockRow s g * s.bsize.toNat + dy < s.height.toNat := by
  have h1 : (blockRow s g + 1) * s.bsize.toNat ≤ s.gridh.toNat * s.bsize.toNat := Nat.mul_le_mul_right _ (h.row_lt hg)
  rw [Nat.add_mul, Nat.one_mul] at h1
  rw [h.height_eq]; omega

end State.GeometryValid

/-! ### Pixels -/

theorem pixelAddress_mod (s : State) (x y : Nat) : pixelAddress s x y % 4 = 0 := by simp [pixelAddress]

theorem pixelAddress_lt {s : State} {x y : Nat} (hx : x < s.width.toNat) (hy : y < s.height.toNat) :
    pixelAddress s x y + 4 ≤ 4 * pixels s := by
  have h1 : (y + 1) * s.width.toNat ≤ s.height.toNat * s.width.toNat := Nat.mul_le_mul_right _ hy
  rw [Nat.add_mul, Nat.one_mul] at h1
  rw [pixelAddress, pixels, Nat.mul_comm s.width.toNat]; omega

theorem pixelAddress_inj {s : State} {x y x' y' : Nat} (hx : x < s.width.toNat) (hx' : x' < s.width.toNat)
    (h : pixelAddress s x y = pixelAddress s x' y') : x = x' ∧ y = y' := by
  have hw : 0 < s.width.toNat := by omega
  have h1 : y * s.width.toNat + x = y' * s.width.toNat + x' := by unfold pixelAddress at h; omega
  have hx1 : (y * s.width.toNat + x) % s.width.toNat = x := by rw [Nat.mul_add_mod', Nat.mod_eq_of_lt hx]
  have hx2 : (y' * s.width.toNat + x') % s.width.toNat = x' := by rw [Nat.mul_add_mod', Nat.mod_eq_of_lt hx']
  have hxx : x = x' := by rw [← hx1, ← hx2, h1]
  refine ⟨hxx, ?_⟩
  subst hxx
  exact Nat.eq_of_mul_eq_mul_right hw (by omega)

/-! ### Footprints -/

theorem mem_footprint {s : State} {g a : Nat} :
    a ∈ footprint s g ↔ ∃ dy dx, dy < s.bsize.toNat ∧ dx < s.bsize.toNat ∧
      a = pixelAddress s (blockColumn s g * s.bsize.toNat + dx) (blockRow s g * s.bsize.toNat + dy) := by
  simp only [footprint, List.mem_flatMap, List.mem_map, List.mem_range]
  constructor
  · rintro ⟨dy, hdy, dx, hdx, rfl⟩; exact ⟨dy, dx, hdy, hdx, rfl⟩
  · rintro ⟨dy, dx, hdy, hdx, rfl⟩; exact ⟨dy, hdy, dx, hdx, rfl⟩

theorem footprint_mod {s : State} {g a : Nat} (h : a ∈ footprint s g) : a % 4 = 0 := by
  obtain ⟨dy, dx, -, -, rfl⟩ := mem_footprint.1 h; exact pixelAddress_mod _ _ _

/-- A footprint lies inside the raster (41_framecodec.md R146, R161). -/
theorem footprint_lt {p : Params} {s : State} (hs : s.GeometryValid p) {g a : Nat} (hg : g < s.grid.toNat)
    (h : a ∈ footprint s g) : a + 4 ≤ 4 * pixels s := by
  obtain ⟨dy, dx, hdy, hdx, rfl⟩ := mem_footprint.1 h
  exact pixelAddress_lt (hs.x_lt g hdx) (hs.y_lt hg hdy)

/-- Footprints of two blocks are disjoint (41_framecodec.md R146). -/
theorem footprint_disjoint {p : Params} {s : State} (hs : s.GeometryValid p) {g g' a : Nat}
    (h : a ∈ footprint s g) (h' : a ∈ footprint s g') : g = g' := by
  obtain ⟨dy, dx, hdy, hdx, rfl⟩ := mem_footprint.1 h
  obtain ⟨ey, ex, hey, hex, he⟩ := mem_footprint.1 h'
  obtain ⟨hx, hy⟩ := pixelAddress_inj (hs.x_lt g hdx) (hs.x_lt g' hex) he
  have key : ∀ {u v d e : Nat}, d < s.bsize.toNat → e < s.bsize.toNat → u * s.bsize.toNat + d = v * s.bsize.toNat + e → u = v := by
    intro u v d e hd he h
    have h1 : (u * s.bsize.toNat + d) / s.bsize.toNat = u := by
      rw [Nat.mul_comm, Nat.mul_add_div hs.bsize_pos, Nat.div_eq_of_lt hd, Nat.add_zero]
    have h2 : (v * s.bsize.toNat + e) / s.bsize.toNat = v := by
      rw [Nat.mul_comm, Nat.mul_add_div hs.bsize_pos, Nat.div_eq_of_lt he, Nat.add_zero]
    rw [← h1, ← h2, h]
  have hc := key hdx hex hx
  have hr := key hdy hey hy
  unfold blockColumn at hc
  unfold blockRow at hr
  rw [← Nat.div_add_mod g s.gridw.toNat, ← Nat.div_add_mod g' s.gridw.toNat, hc, hr]

/-- The block that holds pixel (x, y). -/
def blockAt (s : State) (x y : Nat) : Nat := (y / s.bsize.toNat) * s.gridw.toNat + x / s.bsize.toNat

/-- Every raster pixel lies in the footprint of a block of the grid (41_framecodec.md R146). -/
theorem pixel_covered {p : Params} {s : State} (hs : s.GeometryValid p) {x y : Nat} (hx : x < s.width.toNat)
    (hy : y < s.height.toNat) : blockAt s x y < s.grid.toNat ∧ pixelAddress s x y ∈ footprint s (blockAt s x y) := by
  have hcol : x / s.bsize.toNat < s.gridw.toNat := by
    rw [Nat.div_lt_iff_lt_mul hs.bsize_pos, ← hs.width_eq]; exact hx
  have hrow : y / s.bsize.toNat < s.gridh.toNat := by
    rw [Nat.div_lt_iff_lt_mul hs.bsize_pos, ← hs.height_eq]; exact hy
  constructor
  · have h1 : (y / s.bsize.toNat + 1) * s.gridw.toNat ≤ s.gridh.toNat * s.gridw.toNat := Nat.mul_le_mul_right _ hrow
    rw [Nat.add_mul, Nat.one_mul] at h1
    rw [hs.grid_eq, Nat.mul_comm s.gridw.toNat]; unfold blockAt; omega
  · refine mem_footprint.2 ⟨y % s.bsize.toNat, x % s.bsize.toNat, Nat.mod_lt _ hs.bsize_pos, Nat.mod_lt _ hs.bsize_pos, ?_⟩
    have hbc : blockColumn s (blockAt s x y) = x / s.bsize.toNat := by
      rw [blockColumn, blockAt, Nat.mul_add_mod', Nat.mod_eq_of_lt hcol]
    have hbr : blockRow s (blockAt s x y) = y / s.bsize.toNat := by
      rw [blockRow, blockAt, Nat.mul_comm, Nat.mul_add_div hs.gridw_pos, Nat.div_eq_of_lt hcol, Nat.add_zero]
    rw [hbc, hbr, Nat.mul_comm, Nat.div_add_mod, Nat.mul_comm, Nat.div_add_mod]

/-- The sample pixel lies in its block's footprint (41_framecodec.md R147). -/
theorem sample_mem_footprint {s : State} (hb : 0 < s.bsize.toNat) (g : Nat) : sampleAddress s g ∈ footprint s g :=
  mem_footprint.2 ⟨s.bsize.toNat / 2, s.bsize.toNat / 2, by omega, by omega, rfl⟩

/-- An address of the raster is a byte of some pixel. -/
theorem address_is_pixel {s : State} {a : Nat} (h : a < 4 * pixels s) :
    ∃ x y, x < s.width.toNat ∧ y < s.height.toNat ∧ pixelAddress s x y = a - a % 4 := by
  have hq : a / 4 < s.width.toNat * s.height.toNat := by unfold pixels at h; omega
  have hw : 0 < s.width.toNat := by
    rcases Nat.eq_zero_or_pos s.width.toNat with h0 | h0
    · rw [h0, Nat.zero_mul] at hq; omega
    · exact h0
  refine ⟨a / 4 % s.width.toNat, a / 4 / s.width.toNat, Nat.mod_lt _ hw, ?_, ?_⟩
  · rw [Nat.div_lt_iff_lt_mul hw, Nat.mul_comm]; exact hq
  · rw [pixelAddress, Nat.mul_comm (a / 4 / s.width.toNat), Nat.div_add_mod]; omega

end Sys2Proof.Machine
end

