-- ==== Sys2Proof/Laws/Memory.lean ====
section
/-! SUPPORT. The laws of one memory: read after write, the canonical form, and reads with draws. -/

namespace Sys2Proof.Machine

@[simp] theorem read?_nil (a : Nat) : Memory.read? [] a = none := rfl

theorem read?_cons (c : Host.Cell) (m : Memory) (a : Nat) :
    Memory.read? (c :: m) a = if a = c.1 then some c.2 else Memory.read? m a := rfl

/-! ### Read after write -/

theorem read?_write (m : Memory) (a x : Nat) (b : Byte) :
    (m.write a b).read? x = if x = a then some b else m.read? x := by
  induction m with
  | nil => simp [Memory.write, Memory.read?]
  | cons c m ih =>
    obtain ⟨k, v⟩ := c
    simp only [Memory.write]
    split
    · simp [Memory.read?]
    · split
      · subst_vars; simp only [Memory.read?]; split <;> simp_all
      · simp only [Memory.read?, ih]
        by_cases hx : x = a
        · subst hx; simp [*]
        · simp [hx]

@[simp] theorem read?_write_same (m : Memory) (a : Nat) (b : Byte) : (m.write a b).read? a = some b := by
  simp [read?_write]

theorem read?_write_other (m : Memory) {a x : Nat} (b : Byte) (h : x ≠ a) : (m.write a b).read? x = m.read? x := by
  simp [read?_write, h]

theorem read?_writeBytes (bs : List Byte) : ∀ (m : Memory) (a x : Nat),
    (m.writeBytes a bs).read? x = if a ≤ x ∧ x < a + bs.length then bs[x - a]? else m.read? x := by
  induction bs with
  | nil => intro m a x; simp only [Memory.writeBytes, List.length_nil]; split <;> first | omega | rfl
  | cons b bs ih =>
    intro m a x
    simp only [Memory.writeBytes, ih, read?_write, List.length_cons]
    by_cases h : x = a
    · subst h; simp
    · by_cases hin : a ≤ x ∧ x < a + (bs.length + 1)
      · obtain ⟨n, hn⟩ : ∃ n, x - a = n + 1 := ⟨x - a - 1, by omega⟩
        rw [if_pos (by omega), if_pos hin, hn, List.getElem?_cons_succ]
        congr 1; omega
      · rw [if_neg (by omega), if_neg h, if_neg hin]

theorem read?_writeBytes_outside (m : Memory) {a x : Nat} {bs : List Byte} (h : x < a ∨ a + bs.length ≤ x) :
    (m.writeBytes a bs).read? x = m.read? x := by
  rw [read?_writeBytes, if_neg (by omega)]

theorem read?_writeBytes_inside (m : Memory) {a x : Nat} {bs : List Byte} (h : a ≤ x ∧ x < a + bs.length) :
    (m.writeBytes a bs).read? x = bs[x - a]? := by
  rw [read?_writeBytes, if_pos h]

/-! ### The canonical form -/

theorem mem_write {m : Memory} {a : Nat} {b : Byte} {c : Host.Cell} (h : c ∈ m.write a b) : c = (a, b) ∨ c ∈ m := by
  induction m with
  | nil => simpa [Memory.write] using h
  | cons d m ih =>
    obtain ⟨k, v⟩ := d
    simp only [Memory.write] at h
    split at h
    · simpa using h
    · split at h
      · simp only [List.mem_cons] at h ⊢; tauto
      · simp only [List.mem_cons] at h ⊢
        rcases h with h | h
        · exact .inr (.inl h)
        · rcases ih h with h | h <;> tauto

theorem write_wf {m : Memory} (h : m.wf) (a : Nat) (b : Byte) : (m.write a b).wf := by
  induction m with
  | nil => simp [Memory.write]
  | cons d m ih =>
    obtain ⟨k, v⟩ := d
    have h' := List.pairwise_cons.1 h
    simp only [Memory.write]
    split
    case isTrue hlt =>
      refine List.pairwise_cons.2 ⟨?_, h⟩
      intro c hc
      rcases List.mem_cons.1 hc with rfl | hc
      · exact hlt
      · exact lt_trans hlt (h'.1 c hc)
    case isFalse hlt =>
      split
      case isTrue heq => subst heq; exact List.pairwise_cons.2 ⟨h'.1, h'.2⟩
      case isFalse hne =>
        refine List.pairwise_cons.2 ⟨?_, ih h'.2⟩
        intro c hc
        rcases mem_write hc with rfl | hc
        · show k < a; omega
        · exact h'.1 c hc

theorem writeBytes_wf (bs : List Byte) : ∀ {m : Memory}, m.wf → ∀ a, (m.writeBytes a bs).wf := by
  induction bs with
  | nil => intro m h a; exact h
  | cons b bs ih => intro m h a; exact ih (write_wf h a b) (a + 1)

theorem write_inside {m : Memory} {n a : Nat} (h : ∀ c ∈ m, c.1 < n) (ha : a < n) (b : Byte) :
    ∀ c ∈ m.write a b, c.1 < n := by
  intro c hc
  rcases mem_write hc with rfl | hc
  · exact ha
  · exact h c hc

theorem writeBytes_inside (n : Nat) (bs : List Byte) : ∀ {m : Memory} (a : Nat), (∀ c ∈ m, c.1 < n) →
    (bs.length = 0 ∨ a + bs.length ≤ n) → ∀ c ∈ m.writeBytes a bs, c.1 < n := by
  induction bs with
  | nil => intro m a h _; exact h
  | cons b bs ih =>
    intro m a h hn
    simp only [List.length_cons] at hn
    exact ih (a + 1) (write_inside h (by omega) b) (by omega)

/-- In a canonical memory two memories that read alike are equal. -/
theorem memory_ext : ∀ {m n : Memory}, m.wf → n.wf → (∀ a, m.read? a = n.read? a) → m = n
  | [], [], _, _, _ => rfl
  | [], d :: n, _, _, h => by have := h d.1; simp [read?_cons] at this
  | c :: m, [], _, _, h => by have := h c.1; simp [read?_cons] at this
  | c :: m, d :: n, hm, hn, h => by
    have hm' := List.pairwise_cons.1 hm
    have hn' := List.pairwise_cons.1 hn
    have none_below : ∀ {l : Memory} {x : Nat}, (∀ e ∈ l, x < e.1) → l.read? x = none := by
      intro l x hl
      induction l with
      | nil => rfl
      | cons e l ih =>
        rw [read?_cons, if_neg (by have := hl e (by simp); omega)]
        exact ih (fun e' he' => hl e' (by simp [he']))
    have key : c.1 = d.1 := by
      by_contra hne
      rcases Nat.lt_or_gt_of_ne hne with hlt | hgt
      · have h1 := h c.1
        rw [read?_cons, if_pos rfl, read?_cons, if_neg hne, none_below (fun e he => lt_trans hlt (hn'.1 e he))] at h1
        exact absurd h1 (by simp)
      · have h1 := h d.1
        rw [read?_cons, if_neg (Ne.symm hne), read?_cons, if_pos rfl,
          none_below (fun e he => lt_trans hgt (hm'.1 e he))] at h1
        exact absurd h1 (by simp)
    have val : c.2 = d.2 := by
      have h1 := h c.1
      rw [read?_cons, if_pos rfl, read?_cons, if_pos key] at h1
      exact Option.some.inj h1
    have tail : m = n := by
      refine memory_ext hm'.2 hn'.2 fun a => ?_
      by_cases ha : a = c.1
      · subst ha
        rw [none_below hm'.1, none_below (fun e he => key ▸ hn'.1 e he)]
      · have h1 := h a
        rwa [read?_cons, if_neg ha, read?_cons, if_neg (key ▸ ha)] at h1
    rw [Prod.ext key val, tail]

/-! ### Reads with draws -/

theorem readByte_written {m : Memory} {a : Nat} {b : Byte} (h : m.read? a = some b) (d : Nat) : m.readByte a d = (b, d) := by
  simp [Memory.readByte, h]

theorem readByte_unwritten {m : Memory} {a : Nat} (h : m.read? a = none) (d : Nat) :
    m.readByte a d = (Config.freeByte d, d + 1) := by
  simp [Memory.readByte, h]

theorem readBytes_succ (m : Memory) (a n d : Nat) :
    m.readBytes a (n + 1) d =
      ((m.readByte a d).1 :: (m.readBytes (a + 1) n (m.readByte a d).2).1, (m.readBytes (a + 1) n (m.readByte a d).2).2) := rfl

@[simp] theorem readBytes_length (m : Memory) (n : Nat) : ∀ a d, (m.readBytes a n d).1.length = n := by
  induction n with
  | zero => intro a d; rfl
  | succ n ih => intro a d; simp [readBytes_succ, ih]

/-- A written byte of the range is read as written, whatever is drawn for the others. -/
theorem readBytes_written (m : Memory) (n : Nat) : ∀ {a d i : Nat} {b : Byte}, i < n → m.read? (a + i) = some b →
    (m.readBytes a n d).1[i]? = some b := by
  induction n with
  | zero => intro a d i b hi; omega
  | succ n ih =>
    intro a d i b hi h
    rw [readBytes_succ]
    cases i with
    | zero => simp only [Nat.add_zero] at h; simp [readByte_written h]
    | succ i =>
      simp only [List.getElem?_cons_succ]
      exact ih (by omega) (by rw [← h]; congr 1; omega)

/-- A range whose bytes are all written is read as written and draws nothing. -/
theorem readBytes_all_written (m : Memory) (bs : List Byte) : ∀ {a d : Nat}, (∀ i, i < bs.length → m.read? (a + i) = bs[i]?) →
    m.readBytes a bs.length d = (bs, d) := by
  induction bs with
  | nil => intro a d _; rfl
  | cons b bs ih =>
    intro a d h
    have h0 : m.read? a = some b := by simpa using h 0 (by simp)
    have hrec : m.readBytes (a + 1) bs.length d = (bs, d) := by
      refine ih fun i hi => ?_
      have := h (i + 1) (by simpa using hi)
      simpa [Nat.add_assoc, Nat.add_comm 1 i] using this
    rw [List.length_cons, readBytes_succ, readByte_written h0]
    simp [hrec]

theorem readBytes_congr {m n : Memory} (k : Nat) : ∀ {a d : Nat}, (∀ i, i < k → m.read? (a + i) = n.read? (a + i)) →
    m.readBytes a k d = n.readBytes a k d := by
  induction k with
  | zero => intro a d _; rfl
  | succ k ih =>
    intro a d h
    have h0 : m.readByte a d = n.readByte a d := by
      have := h 0 (by omega); simp only [Nat.add_zero] at this; simp [Memory.readByte, this]
    rw [readBytes_succ, readBytes_succ, h0, ih]
    intro i hi
    have := h (i + 1) (by omega)
    rwa [Nat.add_assoc, Nat.add_comm 1 i]

/-- A range with no unwritten byte draws nothing. -/
theorem readBytes_written_draws (m : Memory) (n : Nat) : ∀ {a d : Nat}, (∀ i, i < n → m.read? (a + i) ≠ none) →
    (m.readBytes a n d).2 = d := by
  induction n with
  | zero => intro a d _; rfl
  | succ n ih =>
    intro a d h
    obtain ⟨b, hb⟩ := Option.ne_none_iff_exists'.1 (h 0 (Nat.succ_pos n))
    rw [Nat.add_zero] at hb
    rw [readBytes_succ, readByte_written hb]
    exact ih fun i hi => by have := h (i + 1) (by omega); rwa [show a + (i + 1) = a + 1 + i by omega] at this

theorem readBytes_draws_mono (m : Memory) (n : Nat) : ∀ a d, d ≤ (m.readBytes a n d).2 := by
  induction n with
  | zero => intro a d; exact le_refl d
  | succ n ih =>
    intro a d
    rw [readBytes_succ]
    refine le_trans ?_ (ih _ _)
    simp only [Memory.readByte]; split <;> simp

/-! ### Byte order -/

@[simp] theorem leBytes_length (n : Nat) : ∀ v, (leBytes n v).length = n := by
  induction n with
  | zero => intro v; rfl
  | succ n ih => intro v; simp [leBytes, ih]

theorem leValue_leBytes (n : Nat) : ∀ v, leValue (leBytes n v) = v % 256 ^ n := by
  induction n with
  | zero => intro v; simp [leBytes, leValue, Nat.mod_one]
  | succ n ih =>
    intro v
    simp only [leBytes, leValue, ih, BitVec.toNat_ofNat]
    show v % 256 + 256 * (v / 256 % 256 ^ n) = v % 256 ^ (n + 1)
    rw [Nat.pow_succ', Nat.mod_mul]

/-- The four bytes of a word combine to the word (20_memory.md R67, R68). -/
theorem leValue_leBytes_word (w : Word) : BitVec.ofNat 32 (leValue (leBytes 4 w.toNat)) = w := by
  rw [leValue_leBytes]
  apply BitVec.eq_of_toNat_eq
  rw [BitVec.toNat_ofNat, Nat.mod_eq_of_lt (a := w.toNat) (by have := w.isLt; omega), Nat.mod_eq_of_lt w.isLt]

end Sys2Proof.Machine
end

