-- ==== Sys2Proof/Laws/State.lean ====
section
/-! SUPPORT. One lemma per field per update of State, each true by rfl. -/

namespace Sys2Proof.Machine

/-! ### raise -/

@[simp] theorem raise_status (e : ErrCode) (s : State) : (raise e s).status = { s.status with err := true, errCode := e, mode := .idle } := rfl
@[simp] theorem raise_width (e : ErrCode) (s : State) : (raise e s).width = s.width := rfl
@[simp] theorem raise_height (e : ErrCode) (s : State) : (raise e s).height = s.height := rfl
@[simp] theorem raise_bsize (e : ErrCode) (s : State) : (raise e s).bsize = s.bsize := rfl
@[simp] theorem raise_thresh (e : ErrCode) (s : State) : (raise e s).thresh = s.thresh := rfl
@[simp] theorem raise_gridw (e : ErrCode) (s : State) : (raise e s).gridw = s.gridw := rfl
@[simp] theorem raise_gridh (e : ErrCode) (s : State) : (raise e s).gridh = s.gridh := rfl
@[simp] theorem raise_grid (e : ErrCode) (s : State) : (raise e s).grid = s.grid := rfl
@[simp] theorem raise_cap (e : ErrCode) (s : State) : (raise e s).cap = s.cap := rfl
@[simp] theorem raise_seq (e : ErrCode) (s : State) : (raise e s).seq = s.seq := rfl
@[simp] theorem raise_srcLen (e : ErrCode) (s : State) : (raise e s).srcLen = s.srcLen := rfl
@[simp] theorem raise_srcPos (e : ErrCode) (s : State) : (raise e s).srcPos = s.srcPos := rfl
@[simp] theorem raise_chunkLen (e : ErrCode) (s : State) : (raise e s).chunkLen = s.chunkLen := rfl
@[simp] theorem raise_accLen (e : ErrCode) (s : State) : (raise e s).accLen = s.accLen := rfl
@[simp] theorem raise_errSeq (e : ErrCode) (s : State) : (raise e s).errSeq = s.seq := rfl
@[simp] theorem raise_inWidth (e : ErrCode) (s : State) : (raise e s).inWidth = s.inWidth := rfl
@[simp] theorem raise_inHeight (e : ErrCode) (s : State) : (raise e s).inHeight = s.inHeight := rfl
@[simp] theorem raise_arg (e : ErrCode) (s : State) : (raise e s).arg = s.arg := rfl
@[simp] theorem raise_result (e : ErrCode) (s : State) : (raise e s).result = s.result := rfl
@[simp] theorem raise_src (e : ErrCode) (s : State) : (raise e s).src = s.src := rfl
@[simp] theorem raise_rast (e : ErrCode) (s : State) : (raise e s).rast = s.rast := rfl
@[simp] theorem raise_acc (e : ErrCode) (s : State) : (raise e s).acc = s.acc := rfl
@[simp] theorem raise_draws (e : ErrCode) (s : State) : (raise e s).draws = s.draws := rfl
@[simp] theorem raise_pending (e : ErrCode) (s : State) : (raise e s).pending = s.pending := rfl
@[simp] theorem raise_busData (e : ErrCode) (s : State) : (raise e s).busData = s.busData := rfl

/-! ### resetRegisters -/

@[simp] theorem resetRegisters_status (s : State) : (resetRegisters s).status = Status.reset := rfl
@[simp] theorem resetRegisters_width (s : State) : (resetRegisters s).width = 1920 := rfl
@[simp] theorem resetRegisters_height (s : State) : (resetRegisters s).height = 1080 := rfl
@[simp] theorem resetRegisters_bsize (s : State) : (resetRegisters s).bsize = 4 := rfl
@[simp] theorem resetRegisters_thresh (s : State) : (resetRegisters s).thresh = 200 := rfl
@[simp] theorem resetRegisters_gridw (s : State) : (resetRegisters s).gridw = 0 := rfl
@[simp] theorem resetRegisters_gridh (s : State) : (resetRegisters s).gridh = 0 := rfl
@[simp] theorem resetRegisters_grid (s : State) : (resetRegisters s).grid = 0 := rfl
@[simp] theorem resetRegisters_cap (s : State) : (resetRegisters s).cap = 0 := rfl
@[simp] theorem resetRegisters_seq (s : State) : (resetRegisters s).seq = 0 := rfl
@[simp] theorem resetRegisters_srcLen (s : State) : (resetRegisters s).srcLen = 0 := rfl
@[simp] theorem resetRegisters_srcPos (s : State) : (resetRegisters s).srcPos = 0 := rfl
@[simp] theorem resetRegisters_chunkLen (s : State) : (resetRegisters s).chunkLen = 0 := rfl
@[simp] theorem resetRegisters_accLen (s : State) : (resetRegisters s).accLen = 0 := rfl
@[simp] theorem resetRegisters_errSeq (s : State) : (resetRegisters s).errSeq = 0 := rfl
@[simp] theorem resetRegisters_inWidth (s : State) : (resetRegisters s).inWidth = 0 := rfl
@[simp] theorem resetRegisters_inHeight (s : State) : (resetRegisters s).inHeight = 0 := rfl
@[simp] theorem resetRegisters_arg (s : State) : (resetRegisters s).arg = 0 := rfl
@[simp] theorem resetRegisters_result (s : State) : (resetRegisters s).result = 0 := rfl
@[simp] theorem resetRegisters_src (s : State) : (resetRegisters s).src = s.src := rfl
@[simp] theorem resetRegisters_rast (s : State) : (resetRegisters s).rast = s.rast := rfl
@[simp] theorem resetRegisters_acc (s : State) : (resetRegisters s).acc = s.acc := rfl
@[simp] theorem resetRegisters_draws (s : State) : (resetRegisters s).draws = s.draws := rfl
@[simp] theorem resetRegisters_pending (s : State) : (resetRegisters s).pending = s.pending := rfl
@[simp] theorem resetRegisters_busData (s : State) : (resetRegisters s).busData = s.busData := rfl

/-! ### powerOn -/

@[simp] theorem powerOn_status (s : State) : (powerOn s).status = Status.reset := rfl
@[simp] theorem powerOn_width (s : State) : (powerOn s).width = 1920 := rfl
@[simp] theorem powerOn_height (s : State) : (powerOn s).height = 1080 := rfl
@[simp] theorem powerOn_bsize (s : State) : (powerOn s).bsize = 4 := rfl
@[simp] theorem powerOn_thresh (s : State) : (powerOn s).thresh = 200 := rfl
@[simp] theorem powerOn_gridw (s : State) : (powerOn s).gridw = 0 := rfl
@[simp] theorem powerOn_gridh (s : State) : (powerOn s).gridh = 0 := rfl
@[simp] theorem powerOn_grid (s : State) : (powerOn s).grid = 0 := rfl
@[simp] theorem powerOn_cap (s : State) : (powerOn s).cap = 0 := rfl
@[simp] theorem powerOn_seq (s : State) : (powerOn s).seq = 0 := rfl
@[simp] theorem powerOn_srcLen (s : State) : (powerOn s).srcLen = 0 := rfl
@[simp] theorem powerOn_srcPos (s : State) : (powerOn s).srcPos = 0 := rfl
@[simp] theorem powerOn_chunkLen (s : State) : (powerOn s).chunkLen = 0 := rfl
@[simp] theorem powerOn_accLen (s : State) : (powerOn s).accLen = 0 := rfl
@[simp] theorem powerOn_errSeq (s : State) : (powerOn s).errSeq = 0 := rfl
@[simp] theorem powerOn_inWidth (s : State) : (powerOn s).inWidth = 0 := rfl
@[simp] theorem powerOn_inHeight (s : State) : (powerOn s).inHeight = 0 := rfl
@[simp] theorem powerOn_arg (s : State) : (powerOn s).arg = 0 := rfl
@[simp] theorem powerOn_result (s : State) : (powerOn s).result = 0 := rfl
@[simp] theorem powerOn_src (s : State) : (powerOn s).src = [] := rfl
@[simp] theorem powerOn_rast (s : State) : (powerOn s).rast = [] := rfl
@[simp] theorem powerOn_acc (s : State) : (powerOn s).acc = [] := rfl
@[simp] theorem powerOn_draws (s : State) : (powerOn s).draws = s.draws := rfl
@[simp] theorem powerOn_pending (s : State) : (powerOn s).pending = s.pending := rfl
@[simp] theorem powerOn_busData (s : State) : (powerOn s).busData = s.busData := rfl

/-! ### clearDerived -/

@[simp] theorem clearDerived_status (s : State) : (clearDerived s).status = { s.status with cfgValid := false } := rfl
@[simp] theorem clearDerived_width (s : State) : (clearDerived s).width = s.width := rfl
@[simp] theorem clearDerived_height (s : State) : (clearDerived s).height = s.height := rfl
@[simp] theorem clearDerived_bsize (s : State) : (clearDerived s).bsize = s.bsize := rfl
@[simp] theorem clearDerived_thresh (s : State) : (clearDerived s).thresh = s.thresh := rfl
@[simp] theorem clearDerived_gridw (s : State) : (clearDerived s).gridw = 0 := rfl
@[simp] theorem clearDerived_gridh (s : State) : (clearDerived s).gridh = 0 := rfl
@[simp] theorem clearDerived_grid (s : State) : (clearDerived s).grid = 0 := rfl
@[simp] theorem clearDerived_cap (s : State) : (clearDerived s).cap = 0 := rfl
@[simp] theorem clearDerived_seq (s : State) : (clearDerived s).seq = s.seq := rfl
@[simp] theorem clearDerived_srcLen (s : State) : (clearDerived s).srcLen = s.srcLen := rfl
@[simp] theorem clearDerived_srcPos (s : State) : (clearDerived s).srcPos = s.srcPos := rfl
@[simp] theorem clearDerived_chunkLen (s : State) : (clearDerived s).chunkLen = s.chunkLen := rfl
@[simp] theorem clearDerived_accLen (s : State) : (clearDerived s).accLen = s.accLen := rfl
@[simp] theorem clearDerived_errSeq (s : State) : (clearDerived s).errSeq = s.errSeq := rfl
@[simp] theorem clearDerived_inWidth (s : State) : (clearDerived s).inWidth = s.inWidth := rfl
@[simp] theorem clearDerived_inHeight (s : State) : (clearDerived s).inHeight = s.inHeight := rfl
@[simp] theorem clearDerived_arg (s : State) : (clearDerived s).arg = s.arg := rfl
@[simp] theorem clearDerived_result (s : State) : (clearDerived s).result = s.result := rfl
@[simp] theorem clearDerived_src (s : State) : (clearDerived s).src = s.src := rfl
@[simp] theorem clearDerived_rast (s : State) : (clearDerived s).rast = s.rast := rfl
@[simp] theorem clearDerived_acc (s : State) : (clearDerived s).acc = s.acc := rfl
@[simp] theorem clearDerived_draws (s : State) : (clearDerived s).draws = s.draws := rfl
@[simp] theorem clearDerived_pending (s : State) : (clearDerived s).pending = s.pending := rfl
@[simp] theorem clearDerived_busData (s : State) : (clearDerived s).busData = s.busData := rfl

/-! ### configured -/

@[simp] theorem configured_status (s : State) : (configured s).status = { s.status with cfgValid := true } := rfl
@[simp] theorem configured_width (s : State) : (configured s).width = s.width := rfl
@[simp] theorem configured_height (s : State) : (configured s).height = s.height := rfl
@[simp] theorem configured_bsize (s : State) : (configured s).bsize = s.bsize := rfl
@[simp] theorem configured_thresh (s : State) : (configured s).thresh = s.thresh := rfl
@[simp] theorem configured_gridw (s : State) : (configured s).gridw = BitVec.ofNat 32 (s.width.toNat / s.bsize.toNat) := rfl
@[simp] theorem configured_gridh (s : State) : (configured s).gridh = BitVec.ofNat 32 (s.height.toNat / s.bsize.toNat) := rfl
@[simp] theorem configured_grid (s : State) : (configured s).grid = BitVec.ofNat 32 ((s.width.toNat / s.bsize.toNat) * (s.height.toNat / s.bsize.toNat)) := rfl
@[simp] theorem configured_cap (s : State) : (configured s).cap = BitVec.ofNat 32 ((s.width.toNat / s.bsize.toNat) * (s.height.toNat / s.bsize.toNat) / 4) := rfl
@[simp] theorem configured_seq (s : State) : (configured s).seq = s.seq := rfl
@[simp] theorem configured_srcLen (s : State) : (configured s).srcLen = s.srcLen := rfl
@[simp] theorem configured_srcPos (s : State) : (configured s).srcPos = s.srcPos := rfl
@[simp] theorem configured_chunkLen (s : State) : (configured s).chunkLen = s.chunkLen := rfl
@[simp] theorem configured_accLen (s : State) : (configured s).accLen = s.accLen := rfl
@[simp] theorem configured_errSeq (s : State) : (configured s).errSeq = s.errSeq := rfl
@[simp] theorem configured_inWidth (s : State) : (configured s).inWidth = s.inWidth := rfl
@[simp] theorem configured_inHeight (s : State) : (configured s).inHeight = s.inHeight := rfl
@[simp] theorem configured_arg (s : State) : (configured s).arg = s.arg := rfl
@[simp] theorem configured_result (s : State) : (configured s).result = s.result := rfl
@[simp] theorem configured_src (s : State) : (configured s).src = s.src := rfl
@[simp] theorem configured_rast (s : State) : (configured s).rast = s.rast := rfl
@[simp] theorem configured_acc (s : State) : (configured s).acc = s.acc := rfl
@[simp] theorem configured_draws (s : State) : (configured s).draws = s.draws := rfl
@[simp] theorem configured_pending (s : State) : (configured s).pending = s.pending := rfl
@[simp] theorem configured_busData (s : State) : (configured s).busData = s.busData := rfl

/-! ### afterEncode -/

@[simp] theorem afterEncode_status (n : Nat) (s : State) : (afterEncode n s).status = statusEncoded (n < s.cap.toNat) s.status := rfl
@[simp] theorem afterEncode_width (n : Nat) (s : State) : (afterEncode n s).width = s.width := rfl
@[simp] theorem afterEncode_height (n : Nat) (s : State) : (afterEncode n s).height = s.height := rfl
@[simp] theorem afterEncode_bsize (n : Nat) (s : State) : (afterEncode n s).bsize = s.bsize := rfl
@[simp] theorem afterEncode_thresh (n : Nat) (s : State) : (afterEncode n s).thresh = s.thresh := rfl
@[simp] theorem afterEncode_gridw (n : Nat) (s : State) : (afterEncode n s).gridw = s.gridw := rfl
@[simp] theorem afterEncode_gridh (n : Nat) (s : State) : (afterEncode n s).gridh = s.gridh := rfl
@[simp] theorem afterEncode_grid (n : Nat) (s : State) : (afterEncode n s).grid = s.grid := rfl
@[simp] theorem afterEncode_cap (n : Nat) (s : State) : (afterEncode n s).cap = s.cap := rfl
@[simp] theorem afterEncode_seq (n : Nat) (s : State) : (afterEncode n s).seq = s.seq + 1 := rfl
@[simp] theorem afterEncode_srcLen (n : Nat) (s : State) : (afterEncode n s).srcLen = s.srcLen := rfl
@[simp] theorem afterEncode_srcPos (n : Nat) (s : State) : (afterEncode n s).srcPos = s.srcPos + BitVec.ofNat 32 n := rfl
@[simp] theorem afterEncode_chunkLen (n : Nat) (s : State) : (afterEncode n s).chunkLen = BitVec.ofNat 32 n := rfl
@[simp] theorem afterEncode_accLen (n : Nat) (s : State) : (afterEncode n s).accLen = s.accLen := rfl
@[simp] theorem afterEncode_errSeq (n : Nat) (s : State) : (afterEncode n s).errSeq = s.errSeq := rfl
@[simp] theorem afterEncode_inWidth (n : Nat) (s : State) : (afterEncode n s).inWidth = s.inWidth := rfl
@[simp] theorem afterEncode_inHeight (n : Nat) (s : State) : (afterEncode n s).inHeight = s.inHeight := rfl
@[simp] theorem afterEncode_arg (n : Nat) (s : State) : (afterEncode n s).arg = s.arg := rfl
@[simp] theorem afterEncode_result (n : Nat) (s : State) : (afterEncode n s).result = s.result := rfl
@[simp] theorem afterEncode_src (n : Nat) (s : State) : (afterEncode n s).src = s.src := rfl
@[simp] theorem afterEncode_rast (n : Nat) (s : State) : (afterEncode n s).rast = s.rast := rfl
@[simp] theorem afterEncode_acc (n : Nat) (s : State) : (afterEncode n s).acc = s.acc := rfl
@[simp] theorem afterEncode_draws (n : Nat) (s : State) : (afterEncode n s).draws = s.draws := rfl
@[simp] theorem afterEncode_pending (n : Nat) (s : State) : (afterEncode n s).pending = s.pending := rfl
@[simp] theorem afterEncode_busData (n : Nat) (s : State) : (afterEncode n s).busData = s.busData := rfl

/-! ### afterDecode -/

@[simp] theorem afterDecode_status (n : Nat) (r : Bool) (s : State) : (afterDecode n r s).status = statusDecoded r s.status := rfl
@[simp] theorem afterDecode_width (n : Nat) (r : Bool) (s : State) : (afterDecode n r s).width = s.width := rfl
@[simp] theorem afterDecode_height (n : Nat) (r : Bool) (s : State) : (afterDecode n r s).height = s.height := rfl
@[simp] theorem afterDecode_bsize (n : Nat) (r : Bool) (s : State) : (afterDecode n r s).bsize = s.bsize := rfl
@[simp] theorem afterDecode_thresh (n : Nat) (r : Bool) (s : State) : (afterDecode n r s).thresh = s.thresh := rfl
@[simp] theorem afterDecode_gridw (n : Nat) (r : Bool) (s : State) : (afterDecode n r s).gridw = s.gridw := rfl
@[simp] theorem afterDecode_gridh (n : Nat) (r : Bool) (s : State) : (afterDecode n r s).gridh = s.gridh := rfl
@[simp] theorem afterDecode_grid (n : Nat) (r : Bool) (s : State) : (afterDecode n r s).grid = s.grid := rfl
@[simp] theorem afterDecode_cap (n : Nat) (r : Bool) (s : State) : (afterDecode n r s).cap = s.cap := rfl
@[simp] theorem afterDecode_seq (n : Nat) (r : Bool) (s : State) : (afterDecode n r s).seq = s.seq + 1 := rfl
@[simp] theorem afterDecode_srcLen (n : Nat) (r : Bool) (s : State) : (afterDecode n r s).srcLen = s.srcLen := rfl
@[simp] theorem afterDecode_srcPos (n : Nat) (r : Bool) (s : State) : (afterDecode n r s).srcPos = s.srcPos := rfl
@[simp] theorem afterDecode_chunkLen (n : Nat) (r : Bool) (s : State) : (afterDecode n r s).chunkLen = BitVec.ofNat 32 n := rfl
@[simp] theorem afterDecode_accLen (n : Nat) (r : Bool) (s : State) : (afterDecode n r s).accLen = s.accLen + BitVec.ofNat 32 n := rfl
@[simp] theorem afterDecode_errSeq (n : Nat) (r : Bool) (s : State) : (afterDecode n r s).errSeq = s.errSeq := rfl
@[simp] theorem afterDecode_inWidth (n : Nat) (r : Bool) (s : State) : (afterDecode n r s).inWidth = s.inWidth := rfl
@[simp] theorem afterDecode_inHeight (n : Nat) (r : Bool) (s : State) : (afterDecode n r s).inHeight = s.inHeight := rfl
@[simp] theorem afterDecode_arg (n : Nat) (r : Bool) (s : State) : (afterDecode n r s).arg = s.arg := rfl
@[simp] theorem afterDecode_result (n : Nat) (r : Bool) (s : State) : (afterDecode n r s).result = s.result := rfl
@[simp] theorem afterDecode_src (n : Nat) (r : Bool) (s : State) : (afterDecode n r s).src = s.src := rfl
@[simp] theorem afterDecode_rast (n : Nat) (r : Bool) (s : State) : (afterDecode n r s).rast = s.rast := rfl
@[simp] theorem afterDecode_acc (n : Nat) (r : Bool) (s : State) : (afterDecode n r s).acc = s.acc := rfl
@[simp] theorem afterDecode_draws (n : Nat) (r : Bool) (s : State) : (afterDecode n r s).draws = s.draws := rfl
@[simp] theorem afterDecode_pending (n : Nat) (r : Bool) (s : State) : (afterDecode n r s).pending = s.pending := rfl
@[simp] theorem afterDecode_busData (n : Nat) (r : Bool) (s : State) : (afterDecode n r s).busData = s.busData := rfl

/-! ### setMem -/

@[simp] theorem setMem_status (s : State) (sp : Space) (m : Memory) : (s.setMem sp m).status = s.status := by cases sp <;> rfl
@[simp] theorem setMem_width (s : State) (sp : Space) (m : Memory) : (s.setMem sp m).width = s.width := by cases sp <;> rfl
@[simp] theorem setMem_height (s : State) (sp : Space) (m : Memory) : (s.setMem sp m).height = s.height := by cases sp <;> rfl
@[simp] theorem setMem_bsize (s : State) (sp : Space) (m : Memory) : (s.setMem sp m).bsize = s.bsize := by cases sp <;> rfl
@[simp] theorem setMem_thresh (s : State) (sp : Space) (m : Memory) : (s.setMem sp m).thresh = s.thresh := by cases sp <;> rfl
@[simp] theorem setMem_gridw (s : State) (sp : Space) (m : Memory) : (s.setMem sp m).gridw = s.gridw := by cases sp <;> rfl
@[simp] theorem setMem_gridh (s : State) (sp : Space) (m : Memory) : (s.setMem sp m).gridh = s.gridh := by cases sp <;> rfl
@[simp] theorem setMem_grid (s : State) (sp : Space) (m : Memory) : (s.setMem sp m).grid = s.grid := by cases sp <;> rfl
@[simp] theorem setMem_cap (s : State) (sp : Space) (m : Memory) : (s.setMem sp m).cap = s.cap := by cases sp <;> rfl
@[simp] theorem setMem_seq (s : State) (sp : Space) (m : Memory) : (s.setMem sp m).seq = s.seq := by cases sp <;> rfl
@[simp] theorem setMem_srcLen (s : State) (sp : Space) (m : Memory) : (s.setMem sp m).srcLen = s.srcLen := by cases sp <;> rfl
@[simp] theorem setMem_srcPos (s : State) (sp : Space) (m : Memory) : (s.setMem sp m).srcPos = s.srcPos := by cases sp <;> rfl
@[simp] theorem setMem_chunkLen (s : State) (sp : Space) (m : Memory) : (s.setMem sp m).chunkLen = s.chunkLen := by cases sp <;> rfl
@[simp] theorem setMem_accLen (s : State) (sp : Space) (m : Memory) : (s.setMem sp m).accLen = s.accLen := by cases sp <;> rfl
@[simp] theorem setMem_errSeq (s : State) (sp : Space) (m : Memory) : (s.setMem sp m).errSeq = s.errSeq := by cases sp <;> rfl
@[simp] theorem setMem_inWidth (s : State) (sp : Space) (m : Memory) : (s.setMem sp m).inWidth = s.inWidth := by cases sp <;> rfl
@[simp] theorem setMem_inHeight (s : State) (sp : Space) (m : Memory) : (s.setMem sp m).inHeight = s.inHeight := by cases sp <;> rfl
@[simp] theorem setMem_arg (s : State) (sp : Space) (m : Memory) : (s.setMem sp m).arg = s.arg := by cases sp <;> rfl
@[simp] theorem setMem_result (s : State) (sp : Space) (m : Memory) : (s.setMem sp m).result = s.result := by cases sp <;> rfl
@[simp] theorem setMem_draws (s : State) (sp : Space) (m : Memory) : (s.setMem sp m).draws = s.draws := by cases sp <;> rfl
@[simp] theorem setMem_pending (s : State) (sp : Space) (m : Memory) : (s.setMem sp m).pending = s.pending := by cases sp <;> rfl
@[simp] theorem setMem_busData (s : State) (sp : Space) (m : Memory) : (s.setMem sp m).busData = s.busData := by cases sp <;> rfl
@[simp] theorem setMem_mem_same (s : State) (sp : Space) (m : Memory) : (s.setMem sp m).mem sp = m := by cases sp <;> rfl
theorem setMem_mem_other (s : State) {sp sq : Space} (m : Memory) (h : sq ≠ sp) : (s.setMem sp m).mem sq = s.mem sq := by
  cases sp <;> cases sq <;> first | rfl | exact absurd rfl h
@[simp] theorem mem_src (s : State) : s.mem .src = s.src := rfl
@[simp] theorem setMem_src_eq (s : State) (m : Memory) : s.setMem .src m = { s with src := m } := rfl
@[simp] theorem mem_rast (s : State) : s.mem .rast = s.rast := rfl
@[simp] theorem setMem_rast_eq (s : State) (m : Memory) : s.setMem .rast m = { s with rast := m } := rfl
@[simp] theorem mem_acc (s : State) : s.mem .acc = s.acc := rfl
@[simp] theorem setMem_acc_eq (s : State) (m : Memory) : s.setMem .acc m = { s with acc := m } := rfl

/-! ### Status -/

@[simp] theorem statusOpenEncode_cfgValid (t : Status) : (statusOpenEncode t).cfgValid = t.cfgValid := rfl
@[simp] theorem statusOpenEncode_mode (t : Status) : (statusOpenEncode t).mode = Mode.enc := rfl
@[simp] theorem statusOpenEncode_done (t : Status) : (statusOpenEncode t).done = false := rfl
@[simp] theorem statusOpenEncode_final (t : Status) : (statusOpenEncode t).final = false := rfl
@[simp] theorem statusOpenEncode_sent (t : Status) : (statusOpenEncode t).sent = t.sent := rfl
@[simp] theorem statusOpenEncode_err (t : Status) : (statusOpenEncode t).err = t.err := rfl
@[simp] theorem statusOpenEncode_busy (t : Status) : (statusOpenEncode t).busy = t.busy := rfl
@[simp] theorem statusOpenEncode_errCode (t : Status) : (statusOpenEncode t).errCode = t.errCode := rfl
@[simp] theorem statusOpenDecode_cfgValid (t : Status) : (statusOpenDecode t).cfgValid = t.cfgValid := rfl
@[simp] theorem statusOpenDecode_mode (t : Status) : (statusOpenDecode t).mode = Mode.dec := rfl
@[simp] theorem statusOpenDecode_done (t : Status) : (statusOpenDecode t).done = false := rfl
@[simp] theorem statusOpenDecode_final (t : Status) : (statusOpenDecode t).final = t.final := rfl
@[simp] theorem statusOpenDecode_sent (t : Status) : (statusOpenDecode t).sent = false := rfl
@[simp] theorem statusOpenDecode_err (t : Status) : (statusOpenDecode t).err = t.err := rfl
@[simp] theorem statusOpenDecode_busy (t : Status) : (statusOpenDecode t).busy = t.busy := rfl
@[simp] theorem statusOpenDecode_errCode (t : Status) : (statusOpenDecode t).errCode = t.errCode := rfl
@[simp] theorem statusDecoded_cfgValid (r : Bool) (t : Status) : (statusDecoded r t).cfgValid = t.cfgValid := rfl
@[simp] theorem statusDecoded_mode (r : Bool) (t : Status) : (statusDecoded r t).mode = t.mode := rfl
@[simp] theorem statusDecoded_done (r : Bool) (t : Status) : (statusDecoded r t).done = (t.done || r) := rfl
@[simp] theorem statusDecoded_final (r : Bool) (t : Status) : (statusDecoded r t).final = t.final := rfl
@[simp] theorem statusDecoded_sent (r : Bool) (t : Status) : (statusDecoded r t).sent = r := rfl
@[simp] theorem statusDecoded_err (r : Bool) (t : Status) : (statusDecoded r t).err = t.err := rfl
@[simp] theorem statusDecoded_busy (r : Bool) (t : Status) : (statusDecoded r t).busy = t.busy := rfl
@[simp] theorem statusDecoded_errCode (r : Bool) (t : Status) : (statusDecoded r t).errCode = t.errCode := rfl
@[simp] theorem statusClose_cfgValid (t : Status) : (statusClose t).cfgValid = t.cfgValid := rfl
@[simp] theorem statusClose_mode (t : Status) : (statusClose t).mode = Mode.idle := rfl
@[simp] theorem statusClose_done (t : Status) : (statusClose t).done = t.done := rfl
@[simp] theorem statusClose_final (t : Status) : (statusClose t).final = t.final := rfl
@[simp] theorem statusClose_sent (t : Status) : (statusClose t).sent = t.sent := rfl
@[simp] theorem statusClose_err (t : Status) : (statusClose t).err = t.err := rfl
@[simp] theorem statusClose_busy (t : Status) : (statusClose t).busy = t.busy := rfl
@[simp] theorem statusClose_errCode (t : Status) : (statusClose t).errCode = t.errCode := rfl
@[simp] theorem statusEncoded_cfgValid (x : Bool) (t : Status) : (statusEncoded x t).cfgValid = t.cfgValid := by cases x <;> rfl
@[simp] theorem statusEncoded_sent (x : Bool) (t : Status) : (statusEncoded x t).sent = t.sent := by cases x <;> rfl
@[simp] theorem statusEncoded_err (x : Bool) (t : Status) : (statusEncoded x t).err = t.err := by cases x <;> rfl
@[simp] theorem statusEncoded_busy (x : Bool) (t : Status) : (statusEncoded x t).busy = t.busy := by cases x <;> rfl
@[simp] theorem statusEncoded_errCode (x : Bool) (t : Status) : (statusEncoded x t).errCode = t.errCode := by cases x <;> rfl
@[simp] theorem statusEncoded_final (x : Bool) (t : Status) : (statusEncoded x t).final = x := by cases x <;> rfl
@[simp] theorem statusEncoded_done (x : Bool) (t : Status) : (statusEncoded x t).done = (x || t.done) := by cases x <;> rfl
@[simp] theorem statusEncoded_mode (x : Bool) (t : Status) : (statusEncoded x t).mode = if x then .idle else t.mode := by cases x <;> rfl

end Sys2Proof.Machine
end

