-- ==== Sys2Proof/Laws/Raster.lean ====
section
/-! SUPPORT. What each engine operation on memory does: one lemma per operation of Ops and FrameCodec. -/

namespace Sys2Proof.Machine

/-! ### MemRead and MemWrite -/

theorem memRead_ok {p : Params} {sp : Space} {a n : Nat} {s : State} (h : inSpace p sp a n) :
    memRead p sp a n s = .ok (((s.mem sp).readBytes a n s.draws).1, { s with draws := ((s.mem sp).readBytes a n s.draws).2 }) := by
  simp only [memRead, if_pos h]

theorem memWrite_ok {p : Params} {sp : Space} {a : Nat} {bs : List Byte} {s : State} (h : inSpace p sp a bs.length) :
    memWrite p sp a bs s = .ok (s.setMem sp ((s.mem sp).writeBytes a bs)) := by
  simp only [memWrite, if_pos h]

/-- Everything a MemRead can do. -/
theorem memRead_cases {p : Params} {sp : Space} {a n : Nat} {s : State} {r : List Byte × State} (h : memRead p sp a n s = .ok r) :
    inSpace p sp a n ∧ r = (((s.mem sp).readBytes a n s.draws).1, { s with draws := ((s.mem sp).readBytes a n s.draws).2 }) := by
  unfold memRead at h
  split at h
  · exact ⟨‹_›, (Except.ok.inj h).symm⟩
  · cases h

/-- Everything a MemWrite can do. -/
theorem memWrite_cases {p : Params} {sp : Space} {a : Nat} {bs : List Byte} {s t : State} (h : memWrite p sp a bs s = .ok t) :
    inSpace p sp a bs.length ∧ t = s.setMem sp ((s.mem sp).writeBytes a bs) := by
  unfold memWrite at h
  split at h
  · exact ⟨‹_›, (Except.ok.inj h).symm⟩
  · cases h

/-! ### Writing pixels -/

/-- RAST after a word is written at each address of a list. -/
def Memory.writeWords (m : Memory) (w : Word) : List Nat → Memory
  | [] => m
  | a :: as => Memory.writeWords (m.writeBytes a (leBytes 4 w.toNat)) w as

theorem writePixels_ok {p : Params} {w : Word} (as : List Nat) : ∀ {s : State}, (∀ a ∈ as, a + 4 ≤ 4 * p.maxPixels) →
    writePixels p w as s = .ok { s with rast := s.rast.writeWords w as } := by
  induction as with
  | nil => intro s _; rfl
  | cons a as ih =>
    intro s h
    have ha : inSpace p .rast a (leBytes 4 w.toNat).length := by
      rw [leBytes_length]; exact .inr (h a (by simp))
    simp only [writePixels, memWrite_ok ha]
    rw [ih (fun b hb => h b (by simp [hb]))]
    rfl

/-- Whatever its addresses, a write of pixels changes RAST alone. -/
theorem writePixels_cases {p : Params} {w : Word} (as : List Nat) : ∀ {s t : State}, writePixels p w as s = .ok t →
    (∀ a ∈ as, a + 4 ≤ 4 * p.maxPixels) ∧ t = { s with rast := s.rast.writeWords w as } := by
  induction as with
  | nil => intro s t h; exact ⟨by simp, (Except.ok.inj h).symm⟩
  | cons a as ih =>
    intro s t h
    simp only [writePixels] at h
    split at h
    · cases h
    · rename_i s₁ h1
      obtain ⟨hin, rfl⟩ := memWrite_cases h1
      obtain ⟨hr, rfl⟩ := ih h
      refine ⟨?_, rfl⟩
      intro b hb
      rcases List.mem_cons.1 hb with rfl | hb
      · rw [leBytes_length] at hin
        rcases hin with hin | hin
        · omega
        · exact hin
      · exact hr b hb

theorem writeWords_wf (w : Word) (as : List Nat) : ∀ {m : Memory}, m.wf → (m.writeWords w as).wf := by
  induction as with
  | nil => intro m h; exact h
  | cons a as ih => intro m h; exact ih (writeBytes_wf _ h a)

theorem writeWords_inside {n : Nat} (w : Word) (as : List Nat) : ∀ {m : Memory}, (∀ c ∈ m, c.1 < n) → (∀ a ∈ as, a + 4 ≤ n) →
    ∀ c ∈ m.writeWords w as, c.1 < n := by
  induction as with
  | nil => intro m h _; exact h
  | cons a as ih =>
    intro m h has
    refine ih (writeBytes_inside n _ a h (.inr ?_)) (fun b hb => has b (by simp [hb]))
    have := has a (by simp); simpa using this

/-- A byte outside every written pixel is unchanged. -/
theorem writeWords_outside (w : Word) (as : List Nat) : ∀ {m : Memory} {x : Nat}, (∀ a ∈ as, x < a ∨ a + 4 ≤ x) →
    (m.writeWords w as).read? x = m.read? x := by
  induction as with
  | nil => intro m x _; rfl
  | cons a as ih =>
    intro m x h
    rw [Memory.writeWords, ih (fun b hb => h b (by simp [hb]))]
    exact read?_writeBytes_outside m (by have := h a (by simp); simpa using this)

/-- Byte `j` of a written pixel is byte `j` of the word. -/
theorem writeWords_inside_read (w : Word) (as : List Nat) (hal : ∀ a ∈ as, a % 4 = 0) : ∀ {m : Memory} {a j : Nat}, a ∈ as → j < 4 →
    (m.writeWords w as).read? (a + j) = (leBytes 4 w.toNat)[j]? := by
  induction as with
  | nil => intro m a j h; cases h
  | cons b as ih =>
    intro m a j h hj
    by_cases hmem : a ∈ as
    · exact ih (fun c hc => hal c (by simp [hc])) hmem hj
    · have hab : a = b := by rcases List.mem_cons.1 h with h | h; exacts [h, absurd h hmem]
      subst hab
      rw [Memory.writeWords, writeWords_outside, read?_writeBytes_inside]
      · congr 1; omega
      · simp only [leBytes_length]; omega
      · intro c hc
        have h1 := hal a (by simp)
        have h2 := hal c (by simp [hc])
        have h3 : c ≠ a := fun h => hmem (h ▸ hc)
        omega

/-! ### Filling blocks -/

theorem fillBlock_ok {p : Params} {s : State} (hs : s.GeometryValid p) {g : Nat} (hg : g < s.grid.toNat) (c : Class) :
    fillBlock p g c s = .ok { s with rast := s.rast.writeWords (colourWord c) (footprint s g) } := by
  refine writePixels_ok _ fun a ha => ?_
  have h1 := footprint_lt hs hg ha
  have h2 := hs.fits
  unfold pixels at h1; omega

/-- RAST after the blocks of a list are filled for a chunk, the geometry that of `s`. -/
def Memory.writeBlocks (s : State) (chunk : List Byte) : List Nat → Memory → Memory
  | [], m => m
  | g :: gs, m => Memory.writeBlocks s chunk gs (m.writeWords (colourWord (encClass chunk g)) (footprint s g))

theorem fillBlocks_ok {p : Params} {chunk : List Byte} (gs : List Nat) : ∀ {s : State}, s.GeometryValid p →
    (∀ g ∈ gs, g < s.grid.toNat) → fillBlocks p chunk gs s = .ok { s with rast := Memory.writeBlocks s chunk gs s.rast } := by
  induction gs with
  | nil => intro s _ _; rfl
  | cons g gs ih =>
    intro s hs hg
    have hs' : ({ s with rast := s.rast.writeWords (colourWord (encClass chunk g)) (footprint s g) } : State).GeometryValid p :=
      ⟨hs.1, hs.2, hs.3, hs.4, hs.5, hs.6, hs.7, hs.8, hs.9, hs.10, hs.11⟩
    have hcongr : ∀ (t : State) (m : Memory) (l : List Nat) (k : Memory),
        Memory.writeBlocks { t with rast := m } chunk l k = Memory.writeBlocks t chunk l k := by
      intro t m l
      induction l with
      | nil => intro k; rfl
      | cons x l ihl => intro k; exact ihl _
    simp only [fillBlocks, fillBlock_ok hs (hg g (by simp))]
    rw [ih hs' (fun x hx => hg x (by simp [hx]))]
    simp only [hcongr]
    rfl

/-- encodeRaster runs on a valid geometry and changes RAST alone (41_framecodec.md R151). -/
theorem encodeRaster_ok {p : Params} {s : State} (hs : s.GeometryValid p) (chunk : List Byte) :
    encodeRaster p chunk s = .ok { s with rast := Memory.writeBlocks s chunk (List.range s.grid.toNat) s.rast } :=
  fillBlocks_ok _ hs fun _ hg => List.mem_range.1 hg

theorem writeBlocks_wf (s : State) (chunk : List Byte) (gs : List Nat) : ∀ {m : Memory}, m.wf →
    (Memory.writeBlocks s chunk gs m).wf := by
  induction gs with
  | nil => intro m h; exact h
  | cons g gs ih => intro m h; exact ih (writeWords_wf _ _ h)

theorem writeBlocks_inside {p : Params} {s : State} (hs : s.GeometryValid p) (chunk : List Byte) (gs : List Nat) :
    ∀ {m : Memory}, (∀ g ∈ gs, g < s.grid.toNat) → (∀ c ∈ m, c.1 < 4 * p.maxPixels) →
    ∀ c ∈ Memory.writeBlocks s chunk gs m, c.1 < 4 * p.maxPixels := by
  induction gs with
  | nil => intro m _ h; exact h
  | cons g gs ih =>
    intro m hg h
    refine ih (fun x hx => hg x (by simp [hx])) (writeWords_inside _ _ h fun a ha => ?_)
    have h1 := footprint_lt hs (hg g (by simp)) ha
    have h2 := hs.fits
    unfold pixels at h1; omega

/-- A byte outside the footprints of the listed blocks is unchanged. -/
theorem writeBlocks_outside (s : State) (chunk : List Byte) (gs : List Nat) : ∀ {m : Memory} {x : Nat},
    (∀ g ∈ gs, ∀ a ∈ footprint s g, x < a ∨ a + 4 ≤ x) → (Memory.writeBlocks s chunk gs m).read? x = m.read? x := by
  induction gs with
  | nil => intro m x _; rfl
  | cons g gs ih =>
    intro m x h
    rw [Memory.writeBlocks, ih (fun y hy => h y (by simp [hy])), writeWords_outside _ _ (h g (by simp))]

/-- A pixel of a listed block holds the colour of that block's class. -/
theorem writeBlocks_read {p : Params} {s : State} (hs : s.GeometryValid p) (chunk : List Byte) (gs : List Nat) :
    ∀ {m : Memory} {g a j : Nat}, g ∈ gs → a ∈ footprint s g → j < 4 →
    (Memory.writeBlocks s chunk gs m).read? (a + j) = (leBytes 4 (colourWord (encClass chunk g)).toNat)[j]? := by
  induction gs with
  | nil => intro m g a j h; cases h
  | cons k gs ih =>
    intro m g a j h ha hj
    by_cases hmem : g ∈ gs
    · exact ih hmem ha hj
    · have hgk : g = k := by rcases List.mem_cons.1 h with h | h; exacts [h, absurd h hmem]
      subst hgk
      rw [Memory.writeBlocks, writeBlocks_outside, writeWords_inside_read _ _ (fun _ h => footprint_mod h) ha hj]
      intro k hk b hb
      have h1 := footprint_mod ha
      have h2 := footprint_mod hb
      have h3 : b ≠ a := by
        rintro rfl; exact hmem (footprint_disjoint hs ha hb ▸ hk)
      omega

/-! ### Sampling blocks -/

theorem sample_in_space {p : Params} {s : State} (hs : s.GeometryValid p) {g : Nat} (hg : g < s.grid.toNat) :
    inSpace p .rast (sampleAddress s g) 4 := by
  have h1 := footprint_lt hs hg (sample_mem_footprint hs.bsize_pos g)
  have h2 := hs.fits
  right; simp only [spaceBytes]; unfold pixels at h1; omega

/-- sampleClass reads the four bytes of the sample pixel and changes nothing but the draws (41_framecodec.md R149). -/
theorem sampleClass_ok {p : Params} {s : State} (hs : s.GeometryValid p) {g : Nat} (hg : g < s.grid.toNat) :
    sampleClass p g s =
      .ok (classifyWord s.thresh (BitVec.ofNat 32 (leValue (s.rast.readBytes (sampleAddress s g) 4 s.draws).1)),
        { s with draws := (s.rast.readBytes (sampleAddress s g) 4 s.draws).2 }) := by
  simp only [sampleClass, memRead_ok (sample_in_space hs hg), mem_rast]

/-- The class of a sample pixel whose bytes are a word's is the class of that word, and nothing is drawn. -/
theorem sampleClass_written {p : Params} {s : State} (hs : s.GeometryValid p) {g : Nat} (hg : g < s.grid.toNat) {w : Word}
    (h : ∀ j, j < 4 → s.rast.read? (sampleAddress s g + j) = (leBytes 4 w.toNat)[j]?) :
    sampleClass p g s = .ok (classifyWord s.thresh w, s) := by
  have hr : s.rast.readBytes (sampleAddress s g) 4 s.draws = (leBytes 4 w.toNat, s.draws) := by
    have := readBytes_all_written s.rast (leBytes 4 w.toNat) (a := sampleAddress s g) (d := s.draws) (by simpa using h)
    simpa using this
  rw [sampleClass_ok hs hg, hr]
  simp only [leValue_leBytes_word]

/-- Everything sampleClass can do: it changes the draws alone. -/
theorem sampleClass_cases {p : Params} {s : State} {g : Nat} {r : Class × State} (h : sampleClass p g s = .ok r) :
    ∃ d, s.draws ≤ d ∧ r.2 = { s with draws := d } := by
  unfold sampleClass at h
  split at h
  · cases h
  · rename_i bs s₁ h1
    obtain ⟨-, he⟩ := memRead_cases h1
    obtain rfl := (Except.ok.inj h).symm
    exact ⟨_, readBytes_draws_mono _ _ _ _, congrArg Prod.snd he⟩

/-- Everything the reads of a raster can do: they change the draws alone. -/
theorem readSymbols_cases {p : Params} (gs : List Nat) : ∀ {s : State} {r : List Sym × Bool × State},
    readSymbols p gs s = .ok r → (∃ d, s.draws ≤ d ∧ r.2.2 = { s with draws := d }) ∧
      r.1.length ≤ gs.length ∧ (r.2.1 = false → r.1.length = gs.length) ∧ (r.2.1 = true → r.1.length < gs.length) := by
  induction gs with
  | nil =>
    intro s r h
    obtain rfl := Except.ok.inj h
    exact ⟨⟨s.draws, le_refl _, rfl⟩, le_refl _, fun _ => rfl, fun h => by cases h⟩
  | cons g gs ih =>
    intro s r h
    simp only [readSymbols] at h
    split at h
    · cases h
    · rename_i c s₁ h1
      obtain ⟨d, hd, he⟩ := sampleClass_cases h1
      simp only at he
      split at h
      · obtain rfl := Except.ok.inj h
        exact ⟨⟨d, hd, he⟩, by simp, by simp, by simp⟩
      · split at h
        · cases h
        · rename_i y _ ys reached s₂ h2
          obtain rfl := Except.ok.inj h
          obtain ⟨⟨d', hd', he'⟩, hl, hf, ht⟩ := ih h2
          subst he
          refine ⟨⟨d', le_trans hd hd', ?_⟩, by simpa using hl, fun h => by simpa using hf h, fun h => by simpa using ht h⟩
          simp only at he' ⊢
          rw [he']

/-- unpack succeeds exactly on whole groups (40_bitpacker.md R124). -/
theorem unpack_isSome : ∀ (l : List Sym), l.length % 4 = 0 → ∃ bs, unpack l = some bs ∧ bs.length = l.length / 4
  | [], _ => ⟨[], rfl, rfl⟩
  | [_], h => by simp at h
  | [_, _], h => by simp at h
  | [_, _, _], h => by simp at h
  | a :: b :: c :: d :: l, h => by
    obtain ⟨bs, hb, hl⟩ := unpack_isSome l (by simp only [List.length_cons] at h; omega)
    refine ⟨unpack4 a b c d :: bs, by simp [unpack, hb], ?_⟩
    simp only [List.length_cons, hl]; omega

/-- A raster of valid geometry decodes: no fault, a chunk of at most CAP bytes, the draws alone changed (41_framecodec.md R153). -/
theorem readSymbols_ok {p : Params} (gs : List Nat) : ∀ {s : State}, s.GeometryValid p → (∀ g ∈ gs, g < s.grid.toNat) →
    ∃ r, readSymbols p gs s = .ok r := by
  induction gs with
  | nil => intro s _ _; exact ⟨_, rfl⟩
  | cons g gs ih =>
    intro s hs hg
    simp only [readSymbols, sampleClass_ok hs (hg g (by simp))]
    split
    · exact ⟨_, rfl⟩
    · obtain ⟨r, hr⟩ := ih (s := { s with draws := (s.rast.readBytes (sampleAddress s g) 4 s.draws).2 })
        ⟨hs.1, hs.2, hs.3, hs.4, hs.5, hs.6, hs.7, hs.8, hs.9, hs.10, hs.11⟩ (fun x hx => hg x (by simp [hx]))
      rw [hr]; exact ⟨_, rfl⟩

theorem decodeRaster_ok {p : Params} {s : State} (hs : s.GeometryValid p) :
    ∃ chunk reached d, decodeRaster p s = .ok (chunk, reached, { s with draws := d }) ∧ s.draws ≤ d ∧
      chunk.length ≤ s.cap.toNat ∧ (reached = false → chunk.length = s.cap.toNat) := by
  obtain ⟨⟨syms, reached, t⟩, hr⟩ := readSymbols_ok (List.range s.grid.toNat) hs fun _ hg => List.mem_range.1 hg
  obtain ⟨⟨d, hd, he⟩, hl, hf, -⟩ := readSymbols_cases _ hr
  obtain ⟨bs, hb, hbl⟩ := unpack_isSome (syms.take (4 * (syms.length / 4))) (by rw [List.length_take]; omega)
  simp only at he hl hf
  subst he
  have hcap := hs.grid_four
  simp only [List.length_range] at hl hf
  refine ⟨bs, reached, d, ?_, hd, ?_, ?_⟩
  · simp only [decodeRaster, hr, hb]
  · rw [hbl, List.length_take]; omega
  · intro h; have := hf h; rw [hbl, List.length_take]; omega

/-- Everything decodeRaster can do: it changes the draws alone. -/
theorem decodeRaster_cases {p : Params} {s : State} {r : List Byte × Bool × State} (h : decodeRaster p s = .ok r) :
    ∃ d, s.draws ≤ d ∧ r.2.2 = { s with draws := d } := by
  unfold decodeRaster at h
  split at h
  · cases h
  · rename_i syms reached t hr
    obtain ⟨hd, -⟩ := readSymbols_cases _ hr
    split at h
    · cases h
    · obtain rfl := Except.ok.inj h; exact hd

end Sys2Proof.Machine
end

