-- ==== Sys2Proof/Laws/Commands.lean ====
section
/-! SUPPORT. The shared parts of commands: the error gate, the operand checks, and what a command that runs can do. -/

namespace Sys2Proof.Machine

theorem unlessError_latched {s : State} (h : s.status.err = true) (k : Host.Outcome State Fault Refusal) :
    unlessError s k = .next s := by simp [unlessError, h]

theorem unlessError_running {s : State} (h : s.status.err = false) (k : Host.Outcome State Fault Refusal) :
    unlessError s k = k := by simp [unlessError, h]

@[simp] theorem raising_eq (e : ErrCode) (s : State) : raising e s = .next (raise e s) := rfl

@[simp] theorem writeResult_eq (v : Word) (s : State) : writeResult v s = .next { s with result := v } := rfl

@[simp] theorem orFault_ok {α : Type} (x : α) (k : α → Host.Outcome State Fault Refusal) : orFault (.ok x) k = k x := rfl

@[simp] theorem orFault_error {α : Type} (f : Fault) (k : α → Host.Outcome State Fault Refusal) :
    orFault (.error f) k = .fault f := rfl

/-- A computation that reaches a next state did not fault. -/
theorem orFault_next {α : Type} {r : Except Fault α} {k : α → Host.Outcome State Fault Refusal} {t : State}
    (h : orFault r k = .next t) : ∃ x, r = .ok x ∧ k x = .next t := by
  cases r with
  | error f => cases h
  | ok x => exact ⟨x, rfl, h⟩

theorem illegalCommand_running {s : State} (h : s.status.err = false) : illegalCommand s = .next (raise .illegalCommand s) :=
  unlessError_running h _

theorem illegalCommand_latched {s : State} (h : s.status.err = true) : illegalCommand s = .next s := unlessError_latched h _

theorem withClass_legal {cls : BitVec 3} {c : Class} (h : classOfCode cls = some c) (s : State)
    (k : Class → Host.Outcome State Fault Refusal) : withClass cls s k = k c := by simp [withClass, h]

theorem withClass_illegal {cls : BitVec 3} (h : classOfCode cls = none) (s : State)
    (k : Class → Host.Outcome State Fault Refusal) : withClass cls s k = illegalCommand s := by simp [withClass, h]

theorem classOfCode_isSome : ∀ {cls : BitVec 3}, cls.toNat ≤ 4 → ∃ c, classOfCode cls = some c ∧ classCode c = cls := by
  have h : ∀ cls : BitVec 3, cls.toNat ≤ 4 → (classOfCode cls).map classCode = some cls := by decide
  intro cls hc
  have := h cls hc
  simpa [Option.map_eq_some_iff] using this

theorem classOfCode_eq_none : ∀ {cls : BitVec 3}, 4 < cls.toNat → classOfCode cls = none := by decide

theorem withBlock_unconfigured {s : State} (h : s.status.cfgValid = false) (k : Nat → Host.Outcome State Fault Refusal) :
    withBlock s k = .next (raise .sequenceError s) := by simp [withBlock, h]

theorem withBlock_range {s : State} (h : s.status.cfgValid = true) (hg : s.grid.toNat ≤ s.arg.toNat)
    (k : Nat → Host.Outcome State Fault Refusal) : withBlock s k = .next (raise .rangeError s) := by
  simp [withBlock, h, argBlock, hg]

theorem withBlock_ok {s : State} (h : s.status.cfgValid = true) (hg : s.arg.toNat < s.grid.toNat)
    (k : Nat → Host.Outcome State Fault Refusal) : withBlock s k = k s.arg.toNat := by
  simp [withBlock, h, argBlock, Nat.not_le.2 hg]

/-- A geometry stays valid when nothing it speaks of changes. -/
theorem GeometryValid_congr {p : Params} {s t : State} (h : s.GeometryValid p) (hw : t.width = s.width) (hh : t.height = s.height)
    (hb : t.bsize = s.bsize) (ht : t.thresh = s.thresh) (h1 : t.gridw = s.gridw) (h2 : t.gridh = s.gridh) (h3 : t.grid = s.grid)
    (h4 : t.cap = s.cap) : t.GeometryValid p := by
  obtain ⟨a, b, c, d, e, f, g, i, j, k, l⟩ := h
  constructor <;> simp only [hw, hh, hb, ht, h1, h2, h3, h4] <;> assumption

/-- The parameters of this block meet their constraints (00_scope.md R7). -/
theorem blockParams_ok : blockParams.ok := by
  refine ⟨by decide, ?_, ?_⟩
  · show 1 ≤ Config.srcCode.val + 1 ∧ Config.srcCode.val + 1 ≤ 2 ^ 32 - 1
    have := Config.srcCode.isLt; omega
  · show 1 ≤ Config.accCode.val + 1 ∧ Config.accCode.val + 1 ≤ 2 ^ 32 - 1
    have := Config.accCode.isLt; omega

/-! ### What a command that runs can do -/

/-- Everything WRBLK can do on a legal class, past its checks. -/
theorem fillBlock_cases {p : Params} {g : Nat} {c : Class} {s t : State} (h : fillBlock p g c s = .ok t) :
    t = { s with rast := s.rast.writeWords (colourWord c) (footprint s g) } ∧ ∀ a ∈ footprint s g, a + 4 ≤ 4 * p.maxPixels :=
  ⟨(writePixels_cases _ h).2, (writePixels_cases _ h).1⟩

theorem fillBlocks_cases {p : Params} {chunk : List Byte} (gs : List Nat) : ∀ {s t : State},
    fillBlocks p chunk gs s = .ok t → t = { s with rast := t.rast } := by
  induction gs with
  | nil => intro s t h; obtain rfl := Except.ok.inj h; rfl
  | cons g gs ih =>
    intro s t h
    simp only [fillBlocks] at h
    split at h
    · cases h
    · rename_i s₁ h1
      have h2 := (fillBlock_cases h1).1
      have h3 := ih h
      rw [h3, h2]

/-- Whatever the state, encodeRaster changes RAST alone (41_framecodec.md R151). -/
theorem encodeRaster_cases {p : Params} {chunk : List Byte} {s t : State} (h : encodeRaster p chunk s = .ok t) :
    t = { s with rast := t.rast } := fillBlocks_cases _ h

/-- Everything ENC_FRAME can do past its check: RAST, the draws and its own registers change. -/
theorem encFrame_cases {p : Params} {s t : State} (he : s.status.err = false) (hm : s.status.mode = .enc)
    (h : encFrame p s = .next t) :
    ∃ m d, s.draws ≤ d ∧ t = afterEncode (nextChunkLength s) { s with rast := m, draws := d } := by
  rw [encFrame, unlessError_running he, if_neg (by simp [hm])] at h
  obtain ⟨r, h1, h5⟩ := orFault_next h
  obtain ⟨s₁, h2, h4⟩ := orFault_next h5
  obtain ⟨-, rfl⟩ := memRead_cases h1
  have h3 := encodeRaster_cases h2
  simp only at h3
  refine ⟨s₁.rast, ((s.mem .src).readBytes s.srcPos.toNat (nextChunkLength s) s.draws).2, readBytes_draws_mono _ _ _ _, ?_⟩
  have ht : t = afterEncode (nextChunkLength s) s₁ := by injection h4 with h4; exact h4.symm
  exact ht.trans (congrArg (afterEncode (nextChunkLength s)) h3)

/-- The blocks written depend on the geometry of a state alone. -/
theorem writeBlocks_congr {s t : State} {chunk : List Byte} (h : ∀ g, footprint t g = footprint s g) (gs : List Nat) :
    ∀ m : Memory, Memory.writeBlocks t chunk gs m = Memory.writeBlocks s chunk gs m := by
  induction gs with
  | nil => intro m; rfl
  | cons g gs ih => intro m; simp only [Memory.writeBlocks, h, ih]

/-- ENC_FRAME in an open stream on a valid geometry: what it reads, writes and sets. -/
theorem encFrame_ok {p : Params} {s : State} (he : s.status.err = false) (hm : s.status.mode = .enc) (hg : s.GeometryValid p)
    (h1 : s.srcLen.toNat ≤ p.srcBytes) (h2 : s.srcPos.toNat ≤ s.srcLen.toNat) :
    encFrame p s = .next (afterEncode (nextChunkLength s) { s with
      draws := (s.src.readBytes s.srcPos.toNat (nextChunkLength s) s.draws).2
      rast := Memory.writeBlocks s (s.src.readBytes s.srcPos.toNat (nextChunkLength s) s.draws).1 (List.range s.grid.toNat) s.rast }) := by
  have hin : inSpace p .src s.srcPos.toNat (nextChunkLength s) := by
    right; simp only [nextChunkLength, spaceBytes]; omega
  have hg' : ({ s with draws := (s.src.readBytes s.srcPos.toNat (nextChunkLength s) s.draws).2 } : State).GeometryValid p :=
    GeometryValid_congr hg rfl rfl rfl rfl rfl rfl rfl rfl
  rw [encFrame, unlessError_running he, if_neg (by simp [hm]), memRead_ok hin]
  simp only [orFault_ok, mem_src, encodeRaster_ok hg', writeBlocks_congr (s := s)
    (t := { s with draws := (s.src.readBytes s.srcPos.toNat (nextChunkLength s) s.draws).2 }) (fun _ => rfl)]

/-- Everything the append of DEC_FRAME can do. -/
theorem appendChunk_cases {p : Params} {chunk : List Byte} {reached : Bool} {s t : State} (h : appendChunk p chunk reached s = .next t) :
    (p.accBytes < s.accLen.toNat + chunk.length ∧ t = raise .rangeError s) ∨
    (s.accLen.toNat + chunk.length ≤ p.accBytes ∧
      t = afterDecode chunk.length reached { s with acc := s.acc.writeBytes s.accLen.toNat chunk }) := by
  unfold appendChunk at h
  split at h
  · refine .inl ⟨‹_›, ?_⟩; injection h with h; exact h.symm
  · refine .inr ⟨by omega, ?_⟩
    obtain ⟨s₁, h1, h⟩ := orFault_next h
    obtain ⟨-, rfl⟩ := memWrite_cases h1
    injection h with h; exact h.symm

/-- The append of DEC_FRAME, when the chunk fits. -/
theorem appendChunk_ok {p : Params} {chunk : List Byte} {reached : Bool} {s : State} (h : s.accLen.toNat + chunk.length ≤ p.accBytes) :
    appendChunk p chunk reached s =
      .next (afterDecode chunk.length reached { s with acc := s.acc.writeBytes s.accLen.toNat chunk }) := by
  rw [appendChunk, if_neg (by omega), memWrite_ok (.inr h)]; rfl

/-- Everything DEC_FRAME can do past its checks. -/
theorem decFrame_cases {p : Params} {s t : State} (he : s.status.err = false) (hm : s.status.mode = .dec)
    (hd : s.status.done = false) (hw : s.inWidth = s.width) (hh : s.inHeight = s.height) (h : decFrame p s = .next t) :
    ∃ chunk reached d, s.draws ≤ d ∧ decodeRaster p s = .ok (chunk, reached, { s with draws := d }) ∧
      ((p.accBytes < s.accLen.toNat + chunk.length ∧ t = raise .rangeError { s with draws := d }) ∨
      (s.accLen.toNat + chunk.length ≤ p.accBytes ∧
        t = afterDecode chunk.length reached { s with draws := d, acc := s.acc.writeBytes s.accLen.toNat chunk })) := by
  rw [decFrame, unlessError_running he, if_neg (by simp [hm]), if_neg (by simp [hd]), if_neg (by simp [hw, hh])] at h
  obtain ⟨⟨chunk, reached, s₁⟩, h1, h⟩ := orFault_next h
  obtain ⟨d, hd, h2⟩ := decodeRaster_cases h1
  simp only at h2
  subst h2
  exact ⟨chunk, reached, d, hd, h1, appendChunk_cases h⟩

end Sys2Proof.Machine
end

