-- ==== Sys2Proof/Laws/Bus.lean ====
section
/-! SUPPORT. The register map, and what each host access does when the block is ready. -/

namespace Sys2Proof.Machine

/-! ### The register map (10_state.md R21) -/

theorem regAt_regOffset (r : Reg) : regAt (regOffset r) = some r := by cases r <;> decide

theorem regAt_reserved : ∀ {off : BitVec 8}, off.toNat % 4 = 0 → 0x50 ≤ off.toNat → regAt off = none := by decide +kernel

theorem regOffset_aligned (r : Reg) : (regOffset r).toNat % 4 = 0 := by cases r <;> decide

@[simp] theorem offsetValue_regOffset (s : State) (r : Reg) : offsetValue s (regOffset r) = regValue s r := by
  simp [offsetValue, regAt_regOffset]

theorem offsetValue_reserved {off : BitVec 8} (h : off.toNat % 4 = 0) (hr : 0x50 ≤ off.toNat) (s : State) :
    offsetValue s off = 0 := by simp [offsetValue, regAt_reserved h hr]

theorem writeOffset_reserved {off : BitVec 8} (h : off.toNat % 4 = 0) (hr : 0x50 ≤ off.toNat) (v : Word) (s : State) :
    writeOffset off v s = .next s := by simp [writeOffset, regAt_reserved h hr]

@[simp] theorem writeOffset_cmd (v : Word) (s : State) : writeOffset (regOffset .cmd) v s = runCommand v s := rfl

theorem writeOffset_regOffset {r : Reg} (h : r ≠ .cmd) (v : Word) (s : State) :
    writeOffset (regOffset r) v s = .next (storeReg r v s) := by
  cases r <;> first | exact absurd rfl h | rfl

theorem geometryWrite_open {s : State} (h : s.status.mode ≠ .idle) (f : State → State) : geometryWrite s f = s := by
  simp [geometryWrite, h]

theorem geometryWrite_idle {s : State} (h : s.status.mode = .idle) (f : State → State) : geometryWrite s f = clearDerived (f s) := by
  simp [geometryWrite, h]

/-! ### Host accesses while BUSY = 0 -/

theorem hostAccess_readReg {s : State} (hb : s.status.busy = false) (p : Params) {off : BitVec 8} (h : off.toNat % 4 = 0) :
    hostAccess p (.readReg off 4) s = .next { s with busData := offsetValue s off } := by
  simp [hostAccess, hb, wordCycle, h]

theorem hostAccess_writeReg {s : State} (hb : s.status.busy = false) (p : Params) {off : BitVec 8} (h : off.toNat % 4 = 0) (v : Word) :
    hostAccess p (.writeReg off 4 v) s = writeOffset off v s := by
  simp [hostAccess, hb, wordCycle, h]

theorem hostAccess_readMem {s : State} (hb : s.status.busy = false) {p : Params} {sp : Space} {a : Nat} (h : a < spaceBytes p sp) :
    hostAccess p (.readMem sp a) s = .next { s with
      draws := ((s.mem sp).readByte a s.draws).2, busData := ((s.mem sp).readByte a s.draws).1.setWidth 32 } := by
  simp [hostAccess, hb, h]

theorem hostAccess_writeMem {s : State} (hb : s.status.busy = false) {p : Params} {sp : Space} {a : Nat} (h : a < spaceBytes p sp)
    (b : Byte) : hostAccess p (.writeMem sp a b) s = .next (s.setMem sp ((s.mem sp).write a b)) := by
  simp [hostAccess, hb, h]

theorem hostAccess_issue {s : State} (hb : s.status.busy = false) (p : Params) (w : Word) :
    hostAccess p (issue w) s = runCommand w s := hostAccess_writeReg hb p rfl w

@[simp] theorem hostAccess_hardReset (p : Params) (s : State) : hostAccess p .hardReset s = .next (resetRegisters s) := by
  simp [hostAccess, allowedWhileBusy]

@[simp] theorem hostAccess_powerOn (p : Params) (s : State) : hostAccess p .powerOn s = .next (powerOn s) := by
  simp [hostAccess, allowedWhileBusy]

/-- Everything a host access that gives a next state can do. -/
theorem hostAccess_cases {p : Params} {a : HostAccess} {s t : State} (h : hostAccess p a s = .next t) :
    (∃ off, a = .readReg off 4 ∧ t = { s with busData := offsetValue s off }) ∨
    (∃ off v, a = .writeReg off 4 v ∧ off.toNat % 4 = 0 ∧ writeOffset off v s = .next t) ∨
    (∃ sp x, a = .readMem sp x ∧ t = { s with
      draws := ((s.mem sp).readByte x s.draws).2, busData := ((s.mem sp).readByte x s.draws).1.setWidth 32 }) ∨
    (∃ sp x b, a = .writeMem sp x b ∧ x < spaceBytes p sp ∧ t = s.setMem sp ((s.mem sp).write x b)) ∨
    (a = .hardReset ∧ t = resetRegisters s) ∨ (a = .powerOn ∧ t = powerOn s) := by
  unfold hostAccess at h
  split at h
  · cases h
  · cases a with
    | readReg off bytes =>
      simp only at h
      split at h
      · rename_i hc; obtain ⟨rfl, -⟩ := hc; injection h with h; exact .inl ⟨off, rfl, h.symm⟩
      · cases h
    | writeReg off bytes v =>
      simp only at h
      split at h
      · rename_i hc; obtain ⟨rfl, ha⟩ := hc; exact .inr (.inl ⟨off, v, rfl, ha, h⟩)
      · cases h
    | readMem sp x =>
      simp only at h
      split at h
      · injection h with h; exact .inr (.inr (.inl ⟨sp, x, rfl, h.symm⟩))
      · cases h
    | writeMem sp x b =>
      simp only at h
      split at h
      · rename_i hx; injection h with h; exact .inr (.inr (.inr (.inl ⟨sp, x, b, rfl, hx, h.symm⟩)))
      · cases h
    | hardReset => injection h with h; exact .inr (.inr (.inr (.inr (.inl ⟨rfl, h.symm⟩))))
    | powerOn => injection h with h; exact .inr (.inr (.inr (.inr (.inr ⟨rfl, h.symm⟩))))

/-- A write at an aligned offset: nothing, a command, or a register stored. -/
theorem writeOffset_cases {off : BitVec 8} {v : Word} {s t : State} (h : writeOffset off v s = .next t) :
    t = s ∨ (off = regOffset .cmd ∧ runCommand v s = .next t) ∨ ∃ r, r ≠ .cmd ∧ t = storeReg r v s := by
  unfold writeOffset at h
  split at h
  · injection h with h; exact .inl h.symm
  · rename_i hr
    have := List.find?_some hr
    exact .inr (.inl ⟨by simpa using (eq_of_beq this).symm, h⟩)
  · rename_i r hne hr
    injection h with h; exact .inr (.inr ⟨r, fun hc => hne (hc ▸ rfl), h.symm⟩)

/-- No host store touches ERR, MODE, the draws, a memory or an error register. -/
theorem storeReg_frame (r : Reg) (v : Word) (s : State) :
    (storeReg r v s).status = { s.status with cfgValid := (storeReg r v s).status.cfgValid } ∧
    (storeReg r v s).errSeq = s.errSeq ∧ (storeReg r v s).src = s.src ∧ (storeReg r v s).rast = s.rast ∧
    (storeReg r v s).acc = s.acc ∧ (storeReg r v s).draws = s.draws := by
  cases r <;> simp only [storeReg, geometryWrite] <;> (try split) <;> simp [clearDerived]

end Sys2Proof.Machine
end

