-- ==== Sys2Proof/Laws/PerInstr.lean ====
section
/-! SUPPORT. Per-instruction families (LAWS.json): EncodingShape, the fields of every command's word (30_encoding.md R91 to R95). -/

namespace Sys2Proof.Laws.EncodingShape

open Sys2Proof

/-- The word of a command has its OP, its CLS and RSV = 0, and the opcode map has a row for it that makes it. -/
def Statement (i : Instr) : Prop :=
  fieldOp (encode i) = i.opcode ∧ fieldCls (encode i) = i.classField ∧ fieldRsv (encode i) = 0 ∧
    (opcodeRow i.opcode).map (fun r => r.make i.classField) = some i

theorem nop : Statement .nop := by refine ⟨?_, ?_, ?_, ?_⟩ <;> decide
theorem config : Statement .config := by refine ⟨?_, ?_, ?_, ?_⟩ <;> decide
theorem abort : Statement .abort := by refine ⟨?_, ?_, ?_, ?_⟩ <;> decide
theorem iofail : Statement .iofail := by refine ⟨?_, ?_, ?_, ?_⟩ <;> decide
theorem sreset : Statement .sreset := by refine ⟨?_, ?_, ?_, ?_⟩ <;> decide
theorem pack : Statement .pack := by refine ⟨?_, ?_, ?_, ?_⟩ <;> decide
theorem unpack : Statement .unpack := by refine ⟨?_, ?_, ?_, ?_⟩ <;> decide
theorem symcolor (cls : BitVec 3) : Statement (.symcolor cls) := by
  refine ⟨?_, ?_, ?_, ?_⟩ <;> revert cls <;> decide
theorem classify : Statement .classify := by refine ⟨?_, ?_, ?_, ?_⟩ <;> decide
theorem wrblk (cls : BitVec 3) : Statement (.wrblk cls) := by
  refine ⟨?_, ?_, ?_, ?_⟩ <;> revert cls <;> decide
theorem rdblk : Statement .rdblk := by refine ⟨?_, ?_, ?_, ?_⟩ <;> decide
theorem encStart : Statement .encStart := by refine ⟨?_, ?_, ?_, ?_⟩ <;> decide
theorem encFrame : Statement .encFrame := by refine ⟨?_, ?_, ?_, ?_⟩ <;> decide
theorem decStart : Statement .decStart := by refine ⟨?_, ?_, ?_, ?_⟩ <;> decide
theorem decFrame : Statement .decFrame := by refine ⟨?_, ?_, ?_, ?_⟩ <;> decide
theorem decEnd : Statement .decEnd := by refine ⟨?_, ?_, ?_, ?_⟩ <;> decide

end Sys2Proof.Laws.EncodingShape
end

