-- ==== Sys2Proof/Tests/Slice0.lean ====
section
/-! SUPPORT. Tests: expected values are the spec's worked examples and vectors (95_test_vectors.md and the command rules). After them
one witness per obligation that has hypotheses: a concrete state and operands that meet them. -/

namespace Sys2Proof.Tests

open Sys2Proof Sys2Proof.Machine

/-! ### Well-formedness (30_encoding.md R94) -/

theorem test_wellFormed_refuses_symcolor_5 : (Instr.symcolor 5).wellFormed = false := by decide
theorem test_wellFormed_refuses_wrblk_7 : (Instr.wrblk 7).wellFormed = false := by decide
theorem test_wellFormed_accepts_sentinel : (Instr.symcolor 4).wellFormed = true ∧ (Instr.wrblk 4).wellFormed = true := by decide

/-! ### Decoding: words written out bit by bit as {RSV, CLS, OP} (30_encoding.md R91 to R95) -/

/-- No two rows of the opcode map share an OP. -/
theorem test_opcodes_distinct : (opcodeMap.map fun r => r.op).Pairwise (· ≠ ·) := by decide

theorem test_decode_control : decode 0b000000000000000000000_000_00000001#32 = .ok .config
    ∧ decode 0b000000000000000000000_000_00001111#32 = .ok .sreset
    ∧ decode 0b000000000000000000000_000_00000000#32 = .ok .nop
    ∧ decode 0b000000000000000000000_000_00000010#32 = .ok .abort
    ∧ decode 0b000000000000000000000_000_00000011#32 = .ok .iofail := ⟨rfl, rfl, rfl, rfl, rfl⟩

theorem test_decode_bitpacker : decode 0b000000000000000000000_000_00010000#32 = .ok .pack
    ∧ decode 0b000000000000000000000_000_00010001#32 = .ok .unpack := ⟨rfl, rfl⟩

/-- 30_encoding.md R103: `symcolor blue` is 0x00000320, `wrblk sentinel` is 0x00000422. -/
theorem test_decode_framecodec : decode 0b000000000000000000000_011_00100000#32 = .ok (.symcolor 3)
    ∧ decode 0b000000000000000000000_100_00100010#32 = .ok (.wrblk 4)
    ∧ decode 0b000000000000000000000_000_00100001#32 = .ok .classify
    ∧ decode 0b000000000000000000000_000_00100011#32 = .ok .rdblk := ⟨rfl, rfl, rfl, rfl⟩

theorem test_decode_sequencer : decode 0b000000000000000000000_000_00110000#32 = .ok .encStart
    ∧ decode 0b000000000000000000000_000_00110001#32 = .ok .encFrame
    ∧ decode 0b000000000000000000000_000_00111000#32 = .ok .decStart
    ∧ decode 0b000000000000000000000_000_00111001#32 = .ok .decFrame
    ∧ decode 0b000000000000000000000_000_00111010#32 = .ok .decEnd := ⟨rfl, rfl, rfl, rfl, rfl⟩

/-- The four kinds of illegal word (30_encoding.md R97). -/
theorem test_decode_refuses : decode 0b000000000000000000000_000_00000100#32 = .error .unassignedOpcode
    ∧ decode 0b000000000000000000001_000_00000000#32 = .error .reservedBits
    ∧ decode 0b000000000000000000000_001_00010000#32 = .error .classInFormatN
    ∧ decode 0b000000000000000000000_101_00100010#32 = .error .illegalClass := ⟨rfl, rfl, rfl, rfl⟩

theorem test_decodeTableWord : decodeTableWord 32 0x00000422 = some (.wrblk 4) ∧ decodeTableWord 32 0x00000522 = none := by decide

/-! ### States -/

/-- The state of an outcome. -/
def nextOf : Host.Outcome State Fault Refusal → Option State
  | .next t => some t
  | .fault _ => none
  | .refused _ => none

/-- A block with small memories, for the commands that look at SRC_BYTES or ACC_BYTES. -/
def smallParams : Params := { maxPixels := 16, srcBytes := 8, accBytes := 8 }

/-- STATUS of a configured block. -/
def cfgStatus (m : Mode) : Status := { Status.reset with cfgValid := true, mode := m }

/-- WIDTH = HEIGHT = 4, BSIZE = 2 after CONFIG: GRID = 4, CAP = 1 (95_test_vectors.md W5). -/
def demo (m : Mode) : State :=
  { State.reset with width := 4, height := 4, bsize := 2, gridw := 2, gridh := 2, grid := 4, cap := 1, status := cfgStatus m }

/-- A 4 x 4 raster of one RGBA word. -/
def solid (w : Word) : Memory := (List.range 64).map fun a => (a, byteOf w (a % 4))

/-- The four bytes of the pixel at an address. -/
def pixelAt (m : Memory) (a : Nat) : List (Option Byte) := [m.read? a, m.read? (a + 1), m.read? (a + 2), m.read? (a + 3)]

/-! ### Commands -/

theorem test_reset_status : statusWord State.reset.status = 0#32 := by decide

/-- 43_control.md R220. -/
theorem test_nop : exec .nop (demo .enc) = .next (demo .enc) := rfl

/-- 95_test_vectors.md W3: the deployment geometry. -/
theorem test_config : (nextOf (exec .config State.reset)).map (fun t => (t.gridw, t.gridh, t.grid, t.cap, statusWord t.status))
    = some (480, 270, 129600, 32400, 1) := by decide +kernel

/-- 43_control.md R222, check 6. -/
theorem test_config_refuses_thresh_255 : (nextOf (exec .config { State.reset with thresh := 255 })).map (fun t => statusWord t.status)
    = some 0x140#32 := by decide +kernel

/-- 43_control.md R223. -/
theorem test_abort : (nextOf (exec .abort (demo .dec))).map (fun t => statusWord t.status) = some 1#32 := by decide

/-- The example of 43_control.md R224. -/
theorem test_iofail : (nextOf (exec .iofail { demo .dec with seq := 2 })).map (fun t => (statusWord t.status, t.errSeq))
    = some (0x241#32, 2#32) := by decide

/-- 43_control.md R225. -/
theorem test_sreset : (nextOf (exec .sreset (raise .configError (demo .dec)))).map (fun t => (statusWord t.status, t.width))
    = some (0#32, 1920) := by decide

/-- 95_test_vectors.md 2.1. -/
theorem test_pack : (nextOf (exec .pack { State.reset with arg := 0x12345678 })).map (·.result) = some 0x2D#32
    ∧ (nextOf (exec .pack { State.reset with arg := 0x1B })).map (·.result) = some 0xE4#32 := by decide
theorem test_unpack : (nextOf (exec .unpack { State.reset with arg := 0xE4 })).map (·.result) = some 0x1B#32
    ∧ (nextOf (exec .unpack { State.reset with arg := 0x80 })).map (·.result) = some 0x02#32 := by decide

/-- 95_test_vectors.md 2.2. -/
theorem test_symcolor : (nextOf (exec (.symcolor 1) State.reset)).map (·.result) = some 0xFF0000FF#32 := by decide
theorem test_symcolor_5 : (nextOf (exec (.symcolor 5) State.reset)).map (fun t => statusWord t.status) = some 0x640#32 := by decide

/-- 95_test_vectors.md 2.3: equal is off, RED has priority. -/
theorem test_classify : (nextOf (exec .classify { State.reset with arg := 0xFFC8C8C8 })).map (·.result) = some 0#32
    ∧ (nextOf (exec .classify { State.reset with arg := 0x00C900C9 })).map (·.result) = some 1#32 := by decide
theorem test_classify_sentinel : (nextOf (exec .classify { State.reset with arg := 0x00C9C9C9 })).map (·.result) = some 4#32 := by decide

/-- 95_test_vectors.md 2.4, row 1: `wrblk blue, #3`. -/
theorem test_wrblk : (nextOf (exec (.wrblk 3) { demo .idle with arg := 3 })).map (fun t =>
      ([40, 44, 56, 60].map (pixelAt t.rast), t.rast.length))
    = some (List.replicate 4 [some 0x00#8, some 0x00#8, some 0xFF#8, some 0xFF#8], 16) := by decide +kernel
/-- Row 8: RANGE_ERROR. -/
theorem test_wrblk_range : (nextOf (exec (.wrblk 1) { demo .idle with arg := 0xFFFFFFFF })).map (fun t => (statusWord t.status, t.rast))
    = some (0x741#32, []) := by decide +kernel

/-- Row 5: only the sample pixel, at address 20, is read. -/
theorem test_rdblk : (nextOf (exec .rdblk { demo .idle with
      rast := (solid 0xFFFFFFFF#32).writeBytes 20 [0xFF#8, 0x00#8, 0x00#8, 0xFF#8] })).map (·.result) = some 1#32 := by decide +kernel
/-- Row 9: SEQUENCE_ERROR. -/
theorem test_rdblk_unconfigured : (nextOf (exec .rdblk State.reset)).map (fun t => statusWord t.status) = some 0x540#32 := by decide

/-- The example of 42_sequencer.md R182. -/
theorem test_encStart : (nextOf (encStart smallParams { demo .idle with srcLen := 2, seq := 7 })).map (fun t =>
      (statusWord t.status, t.seq, t.srcPos)) = some (3#32, 0#32, 0#32) := by decide
/-- RANGE_ERROR one byte above SRC_BYTES, none at it. -/
theorem test_encStart_range : (nextOf (encStart smallParams { demo .idle with srcLen := 9 })).map (fun t => statusWord t.status) = some 0x741#32
    ∧ (nextOf (encStart smallParams { demo .idle with srcLen := 8 })).map (fun t => statusWord t.status) = some 3#32 := by decide

/-- 95_test_vectors.md W5 at ENC_FRAME 1: an all-BLUE raster. -/
theorem test_encFrame :
    let t := nextOf (encFrame smallParams { demo .enc with src := [(0, 0x00), (1, 0xFF)], srcLen := 2, srcPos := 1, seq := 1 })
    t.map (fun t => [statusWord t.status, t.seq, t.srcPos, t.chunkLen]) = some [3, 2, 2, 1] ∧
      t.map (·.rast) = some (solid 0xFFFF0000#32) := by decide +kernel
/-- W5 at ENC_FRAME 2: the empty terminating chunk. -/
theorem test_encFrame_final : (nextOf (encFrame smallParams { demo .enc with srcLen := 2, srcPos := 2, seq := 2 })).map (fun t =>
      (statusWord t.status, t.seq, t.chunkLen, t.rast)) = some (0x19#32, 3#32, 0#32, solid 0xFFFFFFFF#32) := by decide +kernel

/-- The example of 42_sequencer.md R186, FINAL kept. -/
theorem test_decStart : (nextOf (exec .decStart { demo .idle with
      status := { cfgStatus .idle with done := true, final := true }, accLen := 3 })).map (fun t => (statusWord t.status, t.accLen))
    = some (0x15#32, 0#32) := by decide

/-- The example of 42_sequencer.md R187: an all-BLUE raster appends 0xFF. -/
theorem test_decFrame : (nextOf (decFrame smallParams { demo .dec with
      rast := solid 0xFFFF0000#32, inWidth := 4, inHeight := 4, accLen := 2 })).map (fun t =>
      (statusWord t.status, t.accLen, t.chunkLen, t.acc)) = some (5#32, 3#32, 1#32, [(2, 0xFF#8)]) := by decide +kernel
/-- A chunk that would overflow ACC raises RANGE_ERROR and appends nothing. -/
theorem test_decFrame_range : (nextOf (decFrame smallParams { demo .dec with
      rast := solid 0xFFFF0000#32, inWidth := 4, inHeight := 4, accLen := 8 })).map (fun t =>
      (statusWord t.status, t.accLen, t.acc)) = some (0x741#32, 8#32, []) := by decide +kernel

/-- The example of 42_sequencer.md R189. -/
theorem test_decEnd : (nextOf (exec .decEnd { demo .dec with status := { cfgStatus .dec with done := true, sent := true } })).map
      (fun t => statusWord t.status) = some 0x29#32 := by decide
theorem test_decEnd_missing : (nextOf (exec .decEnd (demo .dec))).map (fun t => statusWord t.status) = some 0x441#32 := by decide

/-! ### Steps -/

/-- A placed word runs as the next step. -/
theorem test_step_runs_placed_word : (nextOf (step ({ State.reset with arg := 0x1B }.withFetchWord 32 0x10))).map (·.result)
    = some 0xE4#32 := by decide

/-- 10_state.md R50: a geometry write clears CFG_VALID. -/
theorem test_geometry_write : (nextOf (hostAccess blockParams (.writeReg 0x14#8 4 200) (demo .idle))).map (fun t =>
      (statusWord t.status, t.grid, t.thresh)) = some (0#32, 0#32, 200#8) := by decide

/-- 30_encoding.md R102, R103. -/
theorem test_assemble : assemble "wrblk" 4 = some (.wrblk 4) ∧ assemble "enc.frame" 0 = some .encFrame ∧ assemble "foo" 0 = none
    ∧ classOfName "sentinel" = some .sentinel := by decide

/-! ### Witnesses: for each obligation with hypotheses, states and operands that meet them, at the ends of their ranges -/

/-- An error is latched. -/
def latched : State := raise .configError State.reset

/-- `demo` with its stream registers, a source and a raster. -/
def demoWith (m : Mode) (src rast : Memory) (srcLen srcPos accLen : Word) : State :=
  { demo m with src := src, rast := rast, srcLen := srcLen, srcPos := srcPos, accLen := accLen, inWidth := 4, inHeight := 4 }

theorem demoWith_geometry (m : Mode) (src rast : Memory) (srcLen srcPos accLen : Word) :
    (demoWith m src rast srcLen srcPos accLen).GeometryValid blockParams where
  bsize_pos := show 0 < (2#16).toNat by decide
  width_div := show (4#16).toNat % (2#16).toNat = 0 by decide
  height_div := show (4#16).toNat % (2#16).toNat = 0 by decide
  gridw_eq := show (2#32).toNat = (4#16).toNat / (2#16).toNat by decide
  gridh_eq := show (2#32).toNat = (4#16).toNat / (2#16).toNat by decide
  grid_eq := show (4#32).toNat = (2#32).toNat * (2#32).toNat by decide
  cap_eq := show (1#32).toNat = (4#32).toNat / 4 by decide
  grid_mod := show (4#32).toNat % 4 = 0 by decide
  cap_pos := show 1 ≤ (1#32).toNat by decide
  fits := show 16 ≤ Config.maxPixels by decide +kernel
  thresh_le := show (200#8).toNat ≤ 254 by decide

theorem demo_geometry (m : Mode) : (demo m).GeometryValid blockParams :=
  GeometryValid_congr (demoWith_geometry m [] [] 0 0 0) rfl rfl rfl rfl rfl rfl rfl rfl

theorem demoWith_inv (m : Mode) {src rast : Memory} {srcLen srcPos accLen : Word} (h1 : src.wf) (h2 : rast.wf)
    (h3 : src.inside blockParams.srcBytes) (h4 : rast.inside 64) (h5 : srcLen.toNat ≤ blockParams.srcBytes)
    (h6 : srcPos.toNat ≤ srcLen.toNat) (h7 : accLen.toNat ≤ blockParams.accBytes) :
    (demoWith m src rast srcLen srcPos accLen).Inv blockParams where
  src_wf := h1
  rast_wf := h2
  acc_wf := List.Pairwise.nil
  src_inside := h3
  rast_inside := fun c hc => Nat.lt_of_lt_of_le (h4 c hc) (show 64 ≤ 4 * Config.maxPixels by decide +kernel)
  acc_inside := fun c hc => absurd hc List.not_mem_nil
  geometry := fun _ => demoWith_geometry m src rast srcLen srcPos accLen
  derived_clear := fun h => nomatch h
  open_config := fun _ => rfl
  src_len_le := fun _ => h5
  src_pos_le := fun _ => h6
  enc_open := fun _ => ⟨rfl, rfl⟩
  dec_open := fun _ => rfl
  acc_len_le := h7
  err_code := ⟨fun _ => rfl, fun _ => rfl⟩
  err_idle := fun h => nomatch h
  not_busy := rfl

theorem solid_wf_blue : (solid 0xFFFF0000#32).wf := by decide +kernel
theorem solid_wf_white : (solid 0xFFFFFFFF#32).wf := by decide +kernel
theorem solid_inside_blue : (solid 0xFFFF0000#32).inside 64 := by decide +kernel
theorem solid_inside_white : (solid 0xFFFFFFFF#32).inside 64 := by decide +kernel

theorem one_le_srcBytes : 1 ≤ blockParams.srcBytes := blockParams_ok.2.1.1
theorem one_le_accBytes : 1 ≤ blockParams.accBytes := blockParams_ok.2.2.1

/-- A configured block with nothing in its memories. -/
theorem demo_inv (m : Mode) : (demoWith m [] [] 0 0 0).Inv blockParams :=
  demoWith_inv m List.Pairwise.nil List.Pairwise.nil (fun _ hc => absurd hc List.not_mem_nil) (fun _ hc => absurd hc List.not_mem_nil)
    (Nat.zero_le _) (Nat.zero_le _) (Nat.zero_le _)

/-- A one-byte file, none of it consumed. -/
theorem demo_file_inv (m : Mode) : (demoWith m [(0, 0x1B#8)] [] 1 0 0).Inv blockParams :=
  demoWith_inv m (List.pairwise_singleton ..) List.Pairwise.nil
    (fun c hc => by obtain rfl := List.mem_singleton.1 hc; exact one_le_srcBytes) (fun _ hc => absurd hc List.not_mem_nil)
    one_le_srcBytes (Nat.zero_le _) (Nat.zero_le _)

/-- A decode stream over an all-BLUE raster, ACC filled to `n`. -/
theorem demo_blue_inv {n : Word} (hn : n.toNat ≤ blockParams.accBytes) :
    (demoWith .dec [] (solid 0xFFFF0000#32) 0 0 n).Inv blockParams :=
  demoWith_inv .dec List.Pairwise.nil solid_wf_blue (fun _ hc => absurd hc List.not_mem_nil) solid_inside_blue
    (Nat.zero_le _) (Nat.zero_le _) hn

/-- A configured block that has latched an error. -/
theorem latched_inv : (raise .ioError (demoWith .idle [] [] 0 0 0)).Inv blockParams where
  src_wf := List.Pairwise.nil
  rast_wf := List.Pairwise.nil
  acc_wf := List.Pairwise.nil
  src_inside := fun _ hc => absurd hc List.not_mem_nil
  rast_inside := fun _ hc => absurd hc List.not_mem_nil
  acc_inside := fun _ hc => absurd hc List.not_mem_nil
  geometry := fun _ => GeometryValid_congr (demoWith_geometry .idle [] [] 0 0 0) rfl rfl rfl rfl rfl rfl rfl rfl
  derived_clear := fun h => nomatch h
  open_config := fun _ => rfl
  src_len_le := fun h => nomatch h
  src_pos_le := fun h => nomatch h
  enc_open := fun h => nomatch h
  dec_open := fun h => nomatch h
  acc_len_le := Nat.zero_le _
  err_code := Iff.intro (fun h => absurd h (by decide)) (fun h => absurd h (by decide))
  err_idle := fun _ => rfl
  not_busy := rfl

theorem witness_DecodeInvertsEncode : decode 0x00000422#32 = .ok (.wrblk 4)
    ∧ (Instr.wrblk 4).wellFormed = true ∧ encode (.wrblk 4) = 0x00000422#32 := ⟨rfl, rfl, rfl⟩

/-- Every clause of the illegal words, at the ends of its ranges. -/
theorem witness_IllegalWordsRaiseOrAreIgnored :
    (∀ w ∈ [0x04#32, 0x0E#32, 0x12#32, 0x1F#32, 0x24#32, 0x2F#32, 0x32#32, 0x37#32, 0x3B#32, 0xFF#32], illegalWord w)
    ∧ (∀ w ∈ [0x00000800#32, 0x80000000#32, 0x00000100#32, 0x0000070F#32, 0x00000520#32, 0x00000722#32], illegalWord w)
    ∧ ¬ illegalWord 0x0000003A#32 ∧ State.reset.status.err = false ∧ latched.status.err = true := by
  refine ⟨?_, ?_, ?_, rfl, rfl⟩ <;> simp [illegalWord]

theorem witness_CommandWordProcedure : latched.status.err = true ∧ State.reset.status.err = false
    ∧ illegalWord 0x00000004#32 ∧ ¬ illegalWord 0x00000000#32 := by
  refine ⟨rfl, rfl, ?_, ?_⟩ <;> unfold illegalWord <;> decide +kernel

theorem witness_StepRunsTheDecodedCommand : State.reset.pending = []
    ∧ ({ State.reset with pending := [.hardReset] } : State).pending = .hardReset :: []
    ∧ ({ State.reset with pending := [.writeReg 0x00#8 4 0x10#32] } : State).pending = .writeReg 0x00#8 4 0x10#32 :: []
    ∧ ({ State.reset with pending := [.writeReg 0x00#8 4 0x04#32] } : State).pending = .writeReg 0x00#8 4 0x04#32 :: []
    ∧ State.reset.status.busy = false ∧ decode 0x10#32 = .ok .pack ∧ decode 0x04#32 = .error .unassignedOpcode
    ∧ decodeTableWord 32 0x10 = some .pack := ⟨rfl, rfl, rfl, rfl, rfl, rfl, rfl, by decide⟩

/-- The invariant does not look at the accesses to come. -/
theorem inv_pending {s : State} (h : s.Inv blockParams) (l : List HostAccess) : State.Inv blockParams { s with pending := l } :=
  ⟨h.1, h.2, h.3, h.4, h.5, h.6, fun hc => GeometryValid_congr (h.7 hc) rfl rfl rfl rfl rfl rfl rfl rfl, h.8, h.9, h.10, h.11, h.12,
    h.13, h.14, h.15, h.16, h.17⟩

theorem witness_StepAnswersDefinedCycles :
    (demoWith .idle [] [] 0 0 0).Inv blockParams ∧ (demoWith .idle [] [] 0 0 0).pending = []
    ∧ (∀ a, State.Inv blockParams { demoWith .idle [] [] 0 0 0 with pending := [a] })
    ∧ cycleDefined blockParams (.readReg 0xFC#8 4) ∧ ¬ cycleDefined blockParams (.readReg 0xFE#8 4)
    ∧ cycleDefined blockParams (.writeReg 0x00#8 4 0) ∧ ¬ cycleDefined blockParams (.writeReg 0x00#8 2 0)
    ∧ cycleDefined blockParams (.readMem .src 0) ∧ ¬ cycleDefined blockParams (.readMem .src blockParams.srcBytes)
    ∧ cycleDefined blockParams (.writeMem .rast 8294399 0) ∧ ¬ cycleDefined blockParams (.writeMem .rast 8294400 0)
    ∧ cycleDefined blockParams .powerOn :=
  ⟨demo_inv .idle, rfl, fun a => inv_pending (demo_inv .idle) [a], ⟨rfl, rfl⟩, by simp [cycleDefined], ⟨rfl, rfl⟩, by simp [cycleDefined],
    one_le_srcBytes, Nat.lt_irrefl _, show 8294399 < 4 * Config.maxPixels by decide +kernel, show ¬ 8294400 < 4 * Config.maxPixels by decide +kernel, trivial⟩

theorem witness_EngineAccessesStayInRange : (demoWith .enc [] [] 0 0 0).Inv blockParams ∧ (demoWith .dec [] [] 0 0 0).Inv blockParams :=
  ⟨demo_inv .enc, demo_inv .dec⟩

theorem witness_StepKeepsInvariant : ∃ t, State.Inv blockParams { demoWith .idle [] [] 0 0 0 with pending := [issue 0x38#32] }
    ∧ step { demoWith .idle [] [] 0 0 0 with pending := [issue 0x38#32] } = .next t ∧ t.status.mode = .dec :=
  ⟨_, inv_pending (demo_inv .idle) _, rfl, rfl⟩

/-- What the format-N clause of a command's statement looks at: an error latched and none, and another word with its OP. -/
abbrev formatNInputs (word other : Word) : Prop :=
  latched.status.err = true ∧ State.reset.status.err = false ∧ fieldOp other = fieldOp word ∧ other ≠ word

/-- What the format-C clause looks at: the same, and the first class no command has. -/
abbrev formatCInputs (op : Nat) (other : Word) : Prop :=
  latched.status.err = true ∧ State.reset.status.err = false ∧ other.toNat % 256 = op ∧ 256 * 5 ≤ other.toNat ∧ 4 < (5#3).toNat

theorem witness_PackWritesLanes : formatNInputs 0x00000010#32 0x00000810#32 := by decide
theorem witness_UnpackWritesByte : formatNInputs 0x00000011#32 0x00000111#32 := by decide
theorem witness_PackAndUnpackAreInverse : pack [0x1B#8] = pack [0x1B#8] := rfl
theorem witness_PackAndUnpackCommandsAgree : State.reset.status.err = false := rfl
theorem witness_SymcolorWritesColour : formatCInputs 0x20 0x00000520#32 ∧ (0#3, 0xFF000000#32) ∈ colourTable := by decide
theorem witness_ClassifyAppliesThreshold : formatNInputs 0x00000021#32 0x00000121#32 := by decide
theorem witness_AbortClosesStream : formatNInputs 0x00000002#32 0x80000002#32 ∧ State.reset.status.mode = .idle := by decide
theorem witness_IofailLatchesIoError : formatNInputs 0x00000003#32 0x00000703#32 := by decide
theorem witness_NopChangesNothing : formatNInputs 0x00000000#32 0x00000800#32 := by decide

theorem witness_PackIndexesSymbols : ([0x1B#8] : List Byte)[0]? = some 0x1B#8 ∧ (0 : Nat) < 4 ∧ (3 : Nat) < 4 := by decide

theorem witness_UnpackIndexesBytes : unpack [0, 1, 2, 3] = some [0x1B#8] ∧ ([0, 1, 2, 3] : List Sym)[4 * 0]? = some 0
    ∧ ([0, 1, 2, 3] : List Sym)[4 * 0 + 1]? = some 1 ∧ ([0, 1, 2, 3] : List Sym)[4 * 0 + 2]? = some 2
    ∧ ([0, 1, 2, 3] : List Sym)[4 * 0 + 3]? = some 3 := by decide

theorem witness_ClassificationInvertsColours : (254#8).toNat ≤ 254 ∧ (0#8).toNat ≤ 254 ∧ ((4#3, 0xFFFFFFFF#32) ∈ colourTable) := by decide

theorem witness_WrblkFillsFootprint : formatCInputs 0x22 0x00000522#32 ∧ (4#3, 0xFFFFFFFF#32) ∈ colourTable
    ∧ (State.reset.status.err = false ∧ State.reset.status.cfgValid = false)
    ∧ (∀ v ∈ [4#32, 0xFFFFFFFF#32], ∃ s : State, s.status.err = false ∧ s.status.cfgValid = true ∧ s.arg = v ∧ s.grid.toNat ≤ s.arg.toNat)
    ∧ (∀ v ∈ [0#32, 3#32], ∃ s : State, s.status.err = false ∧ s.status.cfgValid = true ∧ s.arg = v ∧ s.arg.toNat < s.grid.toNat
      ∧ s.GeometryValid blockParams)
    ∧ 0 ∈ footprint (demo .idle) 0 ∧ 60 ∈ footprint (demo .idle) 3
    ∧ ∀ a ∈ footprint (demo .idle) 3, 64 < a ∨ a + 4 ≤ 64 := by
  refine ⟨by decide, by decide, ⟨rfl, rfl⟩, ?_, ?_, by decide +kernel, by decide +kernel, by decide +kernel⟩ <;> intro v hv
  · exact ⟨{ demo .idle with arg := v }, rfl, rfl, rfl, by simp at hv; rcases hv with rfl | rfl <;> decide⟩
  · exact ⟨{ demo .idle with arg := v }, rfl, rfl, rfl, by simp at hv; rcases hv with rfl | rfl <;> decide,
      GeometryValid_congr (demo_geometry .idle) rfl rfl rfl rfl rfl rfl rfl rfl⟩

theorem witness_RdblkClassifiesSample : formatNInputs 0x00000023#32 0x00000123#32
    ∧ (State.reset.status.err = false ∧ State.reset.status.cfgValid = false)
    ∧ (∃ s : State, s.status.err = false ∧ s.status.cfgValid = true ∧ s.grid.toNat ≤ s.arg.toNat)
    ∧ (∃ s : State, s.status.err = false ∧ s.status.cfgValid = true ∧ s.arg.toNat < s.grid.toNat ∧ s.GeometryValid blockParams
      ∧ ∀ j : Fin 4, s.rast.read? (4 * ((s.arg.toNat / s.gridw.toNat * s.bsize.toNat + s.bsize.toNat / 2) * s.width.toNat
          + (s.arg.toNat % s.gridw.toNat * s.bsize.toNat + s.bsize.toNat / 2)) + j) = some (byteOf 0xFFFF0000#32 j)) :=
  ⟨by decide, ⟨rfl, rfl⟩, ⟨{ demo .idle with arg := 4 }, rfl, rfl, by decide⟩,
    { demo .idle with arg := 3, rast := solid 0xFFFF0000#32 }, rfl, rfl, by decide,
    GeometryValid_congr (demo_geometry .idle) rfl rfl rfl rfl rfl rfl rfl rfl, by decide +kernel⟩

theorem witness_FootprintsPartitionRaster : (demo .idle).GeometryValid blockParams ∧ 3 < (demo .idle).width.toNat
    ∧ 3 < (demo .idle).height.toNat ∧ 3 < (demo .idle).grid.toNat ∧ 60 ∈ footprint (demo .idle) 3 :=
  ⟨demo_geometry .idle, by decide, by decide, by decide, by decide⟩

/-- BSIZE = 1, the least; and a raster that agrees on the sample pixel of block 3 (written) and differs elsewhere. -/
theorem witness_SampleIsBlockCentre : 1 ≤ ({ demo .idle with bsize := 1 } : State).bsize.toNat
    ∧ ∃ (s t : State) (n : Memory) (c : Machine.Class), 1 ≤ s.bsize.toNat ∧ n ≠ s.rast
      ∧ (∀ j, j < 4 → n.read? (sampleAddress s 3 + j) = s.rast.read? (sampleAddress s 3 + j))
      ∧ sampleClass blockParams 3 s = .ok (c, t) := by
  refine ⟨by decide, demoWith .dec [] (solid 0xFFFF0000#32) 0 0 0, _, (solid 0xFFFF0000#32).write 0 0xFF#8, _, by decide,
    by decide +kernel, by decide +kernel, sampleClass_ok (demoWith_geometry _ _ _ _ _ _) (by decide)⟩

theorem witness_EncodeRasterWritesEveryBlock : (demo .idle).GeometryValid blockParams
    ∧ ([] : List Byte).length ≤ (demo .idle).cap.toNat ∧ [0x1B#8].length ≤ (demo .idle).cap.toNat
    ∧ 3 < (demo .idle).grid.toNat ∧ 60 ∈ footprint (demo .idle) 3
    ∧ (4#3, 0xFFFFFFFF#32) ∈ colourTable ∧ (4#3).toNat = blockClassNumber [] 3 ∧ (3#3).toNat = blockClassNumber [0x1B#8] 3
    ∧ 4 * ((demo .idle).width.toNat * (demo .idle).height.toNat) ≤ 64 :=
  ⟨demo_geometry .idle, by decide, by decide, by decide, by decide, by decide, by decide, by decide, by decide⟩

theorem witness_EncodingIsDeterministic : ∃ s' t', (demo .idle).GeometryValid blockParams ∧ (demo .dec).GeometryValid blockParams
    ∧ (demo .idle).width = (demo .dec).width ∧ (demo .idle).bsize = (demo .dec).bsize ∧ (demo .idle).grid = (demo .dec).grid
    ∧ encodeRaster blockParams [0x1B#8] (demo .idle) = .ok s' ∧ encodeRaster blockParams [0x1B#8] (demo .dec) = .ok t'
    ∧ 63 < 4 * ((demo .idle).width.toNat * (demo .idle).height.toNat) :=
  ⟨_, _, demo_geometry .idle, demo_geometry .dec, rfl, rfl, rfl, encodeRaster_ok (demo_geometry .idle) _,
    encodeRaster_ok (demo_geometry .dec) _, by decide⟩

/-- An all-BLUE raster (no Sentinel), an all-white one (Sentinel at block 0), each with every sample pixel written, and an unwritten one. -/
theorem witness_DecodeRasterStopsAtSentinel :
    (∀ m, (demoWith .dec [] m 0 0 0).GeometryValid blockParams)
    ∧ (∀ g : Fin 4, ∀ j : Fin 4, (solid 0xFFFF0000#32).read? (sampleAddress (demo .dec) g + j) = some (byteOf 0xFFFF0000#32 j))
    ∧ (∀ g : Fin 4, ∀ j : Fin 4, (solid 0xFFFFFFFF#32).read? (sampleAddress (demo .dec) g + j) = some (byteOf 0xFFFFFFFF#32 j))
    ∧ classNumber 200 0 0 255 = 3 ∧ classNumber 200 255 255 255 = 4 ∧ 3 < (demo .dec).grid.toNat
    ∧ Memory.read? [] (sampleAddress (demo .dec) 3) = none :=
  ⟨fun _ => demoWith_geometry _ _ _ _ _ _, by decide +kernel, by decide +kernel, by decide, by decide, by decide, rfl⟩

theorem witness_RasterRoundTrip : ∃ t u : State, (demo .idle).GeometryValid blockParams ∧ [0x1B#8].length ≤ (demo .idle).cap.toNat
    ∧ encodeRaster blockParams [0x1B#8] (demo .idle) = .ok t ∧ u.GeometryValid blockParams ∧ u.width = (demo .idle).width
    ∧ u.height = (demo .idle).height ∧ u.bsize = (demo .idle).bsize ∧ u.thresh = (demo .idle).thresh ∧ u.status.mode = .dec
    ∧ ∀ a, a < 4 * ((demo .idle).width.toNat * (demo .idle).height.toNat) → u.rast.read? a = t.rast.read? a :=
  ⟨_, { demo .dec with rast := Memory.writeBlocks (demo .idle) [0x1B#8] (List.range (demo .idle).grid.toNat) (demo .idle).rast }, demo_geometry .idle,
    by decide, encodeRaster_ok (demo_geometry .idle) _, GeometryValid_congr (demo_geometry .dec) rfl rfl rfl rfl rfl rfl rfl rfl,
    rfl, rfl, rfl, rfl, rfl, fun _ _ => rfl⟩

theorem witness_BytesBeyondRasterAreInert : ∃ t, (demoWith .idle [] [] 0 0 0).Inv blockParams
    ∧ exec (.wrblk 1) (demoWith .idle [] [] 0 0 0) = .next t
    ∧ (∀ a, a < 4 * ((demoWith .idle [] [] 0 0 0).width.toNat * (demoWith .idle [] [] 0 0 0).height.toNat) →
      Memory.read? [(64, 0xAA#8)] a = (demoWith .idle [] [] 0 0 0).rast.read? a) := by
  refine ⟨{ demoWith .idle [] [] 0 0 0 with
    rast := Memory.writeWords [] (colourWord .red) (footprint (demoWith .idle [] [] 0 0 0) 0) }, demo_inv .idle, ?_, ?_⟩
  · rw [exec, execWrblk, wrblk, unlessError_running rfl, withClass_legal (c := .red) rfl, withBlock_ok rfl (by decide),
      fillBlock_ok (demoWith_geometry _ _ _ _ _ _) (by decide)]
    rfl
  intro a ha
  have : a ≠ 64 := by have : a < 64 := ha; omega
  simp [Memory.read?, this]; rfl

/-- The RANGE_ERROR clause has a state unless SRC_BYTES is 2^32 - 1, the largest value SRC_LEN can hold. -/
theorem witness_EncStartOpensStream : formatNInputs 0x00000030#32 0x00000130#32
    ∧ ((demo .enc).status.err = false ∧ (demo .enc).status.mode ≠ .idle)
    ∧ (State.reset.status.err = false ∧ State.reset.status.mode = .idle ∧ State.reset.status.cfgValid = false)
    ∧ (blockParams.srcBytes < 2 ^ 32 - 1 → ∃ s : State, s.status.err = false ∧ s.status.mode = .idle ∧ s.status.cfgValid = true
      ∧ blockParams.srcBytes < s.srcLen.toNat)
    ∧ (∃ s : State, s.status.err = false ∧ s.status.mode = .idle ∧ s.status.cfgValid = true ∧ s.srcLen.toNat ≤ blockParams.srcBytes) :=
  ⟨by decide, by decide, by decide, fun h => ⟨{ demo .idle with srcLen := 0xFFFFFFFF }, rfl, rfl, rfl, h⟩,
    { demo .idle with srcLen := 1 }, rfl, rfl, rfl, one_le_srcBytes⟩

/-- An open stream with one byte left, and one with none. -/
theorem witness_EncFrameEncodesNextChunk : formatNInputs 0x00000031#32 0x00000131#32
    ∧ ((demo .idle).status.err = false ∧ (demo .idle).status.mode ≠ .enc)
    ∧ (∃ s : State, s.status.err = false ∧ s.status.mode = .enc ∧ s.Inv blockParams ∧ min s.cap.toNat (s.srcLen.toNat - s.srcPos.toNat) = 1
      ∧ s.src.read? (s.srcPos.toNat + 0) = some 0x1B#8)
    ∧ (∃ s : State, s.status.err = false ∧ s.status.mode = .enc ∧ s.Inv blockParams
      ∧ min s.cap.toNat (s.srcLen.toNat - s.srcPos.toNat) = 0) :=
  ⟨by decide, by decide, ⟨_, rfl, rfl, demo_file_inv .enc, rfl, rfl⟩, _, rfl, rfl, demo_inv .enc, rfl⟩

theorem witness_DecStartOpensStream : formatNInputs 0x00000038#32 0x00000138#32
    ∧ ((demo .enc).status.err = false ∧ (demo .enc).status.mode ≠ .idle)
    ∧ (State.reset.status.err = false ∧ State.reset.status.mode = .idle ∧ State.reset.status.cfgValid = false)
    ∧ ((demo .idle).status.err = false ∧ (demo .idle).status.mode = .idle ∧ (demo .idle).status.cfgValid = true) := by decide

/-- `accBytes` as ACC_LEN holds it: ACC is full. -/
theorem accBytes_toNat : (BitVec.ofNat 32 blockParams.accBytes).toNat = blockParams.accBytes := by
  have := blockParams_ok.2.2.2
  rw [BitVec.toNat_ofNat, Nat.mod_eq_of_lt (by omega)]

/-- The chunk of a decoded raster. -/
def chunkOf (r : Except Fault (List Byte × Bool × State)) : Option (List Byte) :=
  match r with
  | .ok x => some x.1
  | .error _ => none

/-- An all-BLUE raster decodes to one byte, however full ACC is. -/
theorem blue_decodes : chunkOf (decodeRaster blockParams (demoWith .dec [] (solid 0xFFFF0000#32) 0 0 0)) = some [0xFF#8]
    ∧ chunkOf (decodeRaster blockParams (demoWith .dec [] (solid 0xFFFF0000#32) 0 0 (BitVec.ofNat 32 blockParams.accBytes)))
      = some [0xFF#8] := by decide +kernel

/-- Both wrong dimensions, room in ACC, and a full ACC. -/
theorem witness_DecFrameAppendsChunk : formatNInputs 0x00000039#32 0x00000139#32
    ∧ ((demo .idle).status.err = false ∧ (demo .idle).status.mode ≠ .dec)
    ∧ (∀ w h : Half, (w ≠ 4 ∨ h ≠ 4) → ∃ s : State, s.status.err = false ∧ s.status.mode = .dec ∧ s.status.done = false
      ∧ s.inWidth = w ∧ s.inHeight = h ∧ (s.inWidth ≠ s.width ∨ s.inHeight ≠ s.height))
    ∧ (∀ n ∈ [0#32, BitVec.ofNat 32 blockParams.accBytes], ∃ s : State, s.status.err = false ∧ s.status.mode = .dec
      ∧ s.status.done = false ∧ s.inWidth = s.width ∧ s.inHeight = s.height ∧ s.Inv blockParams ∧ s.accLen = n
      ∧ chunkOf (decodeRaster blockParams s) = some [0xFF#8])
    ∧ (0#32).toNat + [0xFF#8].length ≤ blockParams.accBytes
    ∧ blockParams.accBytes < (BitVec.ofNat 32 blockParams.accBytes).toNat + [0xFF#8].length := by
  refine ⟨by decide, by decide, fun w h hw => ⟨{ demo .dec with inWidth := w, inHeight := h }, rfl, rfl, rfl, rfl, rfl, hw⟩,
    fun n hn => ?_, one_le_accBytes, by rw [accBytes_toNat]; exact Nat.lt_succ_self _⟩
  refine ⟨demoWith .dec [] (solid 0xFFFF0000#32) 0 0 n, rfl, rfl, rfl, rfl, rfl, demo_blue_inv ?_, rfl, ?_⟩
  · rcases List.mem_cons.1 hn with rfl | hn
    · exact Nat.zero_le _
    · rw [List.mem_singleton.1 hn]; exact Nat.le_of_eq accBytes_toNat
  · rcases List.mem_cons.1 hn with rfl | hn
    · exact blue_decodes.1
    · rw [List.mem_singleton.1 hn]; exact blue_decodes.2

theorem witness_DecFrameCompletesWithRoom : ∃ s : State, s.Inv blockParams ∧ s.status.err = false ∧ s.status.mode = .dec
    ∧ s.status.done = false ∧ s.inWidth = s.width ∧ s.inHeight = s.height ∧ s.accLen.toNat + s.cap.toNat ≤ blockParams.accBytes :=
  ⟨_, demo_blue_inv (n := 0) (Nat.zero_le _), rfl, rfl, rfl, rfl, rfl, one_le_accBytes⟩

/-- A decode stream that has reached its Sentinel. -/
def doneDec : State := { demo .dec with status := { cfgStatus .dec with done := true, sent := true } }

theorem witness_FramesAfterEndAreIgnored : doneDec.status.mode = .dec ∧ doneDec.status.done = true := ⟨rfl, rfl⟩

theorem witness_DecEndClosesStream : formatNInputs 0x0000003A#32 0x0000013A#32
    ∧ ((demo .idle).status.err = false ∧ (demo .idle).status.mode ≠ .dec)
    ∧ ((demo .dec).status.err = false ∧ (demo .dec).status.mode = .dec ∧ (demo .dec).status.done = false)
    ∧ (doneDec.status.err = false ∧ doneDec.status.mode = .dec ∧ doneDec.status.done = true) := by decide

/-- An empty file (one frame), and a file of CAP = 1 byte (two). -/
theorem witness_EncodeStreamHasAllFrames : ∀ n ∈ [0, 1], ∃ s : State, s.Inv blockParams ∧ s.status.err = false ∧ s.status.mode = .idle
    ∧ s.status.cfgValid = true ∧ s.srcLen.toNat ≤ blockParams.srcBytes ∧ s.srcLen.toNat / s.cap.toNat = n := by
  intro n hn
  rcases List.mem_cons.1 hn with rfl | hn
  · exact ⟨_, demo_inv .idle, rfl, rfl, rfl, Nat.zero_le _, rfl⟩
  · rw [List.mem_singleton.1 hn]; exact ⟨_, demo_file_inv .idle, rfl, rfl, rfl, one_le_srcBytes, rfl⟩

/-- The file [0x1B] and the empty file. -/
theorem witness_EncodeStreamFollowsChunkingLaw : ∀ b ∈ [[], [0x1B#8]], ∃ s : State, s.Inv blockParams ∧ s.status.err = false
    ∧ s.status.mode = .idle ∧ s.status.cfgValid = true ∧ s.srcLen.toNat = b.length ∧ b.length ≤ blockParams.srcBytes
    ∧ b.length ≤ blockParams.accBytes ∧ (∀ i, i < b.length → s.src.read? i = b[i]?) := by
  intro b hb
  rcases List.mem_cons.1 hb with rfl | hb
  · exact ⟨_, demo_inv .idle, rfl, rfl, rfl, rfl, Nat.zero_le _, Nat.zero_le _, fun i hi => absurd hi (Nat.not_lt_zero i)⟩
  · rw [List.mem_singleton.1 hb]
    exact ⟨_, demo_file_inv .idle, rfl, rfl, rfl, rfl, one_le_srcBytes, one_le_accBytes,
      fun i hi => by obtain rfl : i = 0 := Nat.lt_one_iff.1 hi; rfl⟩

theorem witness_EncodeThenDecodeRestoresFile : ∀ b ∈ [[], [0x1B#8]], ∃ s : State, s.Inv blockParams ∧ s.status.err = false
    ∧ s.status.mode = .idle ∧ s.status.cfgValid = true ∧ s.srcLen.toNat = b.length ∧ b.length ≤ blockParams.srcBytes
    ∧ b.length ≤ blockParams.accBytes ∧ (∀ i, i < b.length → s.src.read? i = b[i]?) := witness_EncodeStreamFollowsChunkingLaw

/-- The reset geometry passes every check with W * H = MAX_PIXELS; then one state for each check that fails. -/
theorem witness_ConfigComputesGeometry : formatNInputs 0x00000001#32 0x00000101#32
    ∧ ((demo .enc).status.err = false ∧ (demo .enc).status.mode ≠ .idle)
    ∧ (State.reset.status.err = false ∧ State.reset.status.mode = .idle
      ∧ State.reset.bsize.toNat ≠ 0 ∧ (State.reset.width.toNat ≠ 0 ∧ State.reset.height.toNat ≠ 0)
      ∧ (State.reset.width.toNat % State.reset.bsize.toNat = 0 ∧ State.reset.height.toNat % State.reset.bsize.toNat = 0)
      ∧ State.reset.width.toNat * State.reset.height.toNat = 2073600
      ∧ (State.reset.width.toNat / State.reset.bsize.toNat) * (State.reset.height.toNat / State.reset.bsize.toNat) % 4 = 0
      ∧ State.reset.thresh.toNat ≤ 254)
    ∧ ({ State.reset with bsize := 0 } : State).bsize.toNat = 0 ∧ ({ State.reset with height := 0 } : State).height.toNat = 0
    ∧ ({ State.reset with width := 1921 } : State).width.toNat % State.reset.bsize.toNat ≠ 0
    ∧ ¬ ({ State.reset with width := 1924 } : State).width.toNat * State.reset.height.toNat ≤ 2073600
    ∧ (({ State.reset with width := 4, height := 4 } : State).width.toNat / State.reset.bsize.toNat)
      * (({ State.reset with width := 4, height := 4 } : State).height.toNat / State.reset.bsize.toNat) % 4 ≠ 0
    ∧ ¬ ({ State.reset with thresh := 255 } : State).thresh.toNat ≤ 254 := by decide

theorem witness_ResetsAndMemory : exec .sreset (demoWith .dec [] (solid 0xFFFF0000#32) 0 0 0)
      = .next (resetRegisters (demoWith .dec [] (solid 0xFFFF0000#32) 0 0 0))
    ∧ hostAccess blockParams .hardReset (demo .dec) = .next (resetRegisters (demo .dec)) := ⟨rfl, hostAccess_hardReset _ _⟩

theorem witness_ErrorsArePrecise : exec .iofail State.reset = .next (raise .ioError State.reset)
    ∧ State.reset.status.err = false ∧ (raise .ioError State.reset).status.err = true := ⟨rfl, rfl, rfl⟩

theorem witness_FirstFailingCheckIsRaised :
    (∃ s : State, s.Inv blockParams ∧ s.status.err = true)
    ∧ (∃ s : State, s.Inv blockParams ∧ s.status.err = false ∧ illegalWord 0x00000522#32
      ∧ decode 0x00000003#32 = .ok .iofail ∧ errorOf blockParams .iofail s = some .ioError
      ∧ decode 0x00000038#32 = .ok .decStart ∧ errorOf blockParams .decStart s = none)
    ∧ errorOf blockParams .decStart (demo .enc) = some .sequenceError
    ∧ errorOf blockParams .decEnd (demo .dec) = some .missingTerminator :=
  ⟨⟨_, latched_inv, rfl⟩, ⟨_, demo_inv .idle, rfl, by simp [illegalWord], rfl, rfl, rfl, by decide⟩, by decide, by decide⟩

theorem witness_NothingRunsWhileErrorLatched : latched.status.err = true ∧ Instr.config.wellFormed = true
    ∧ Instr.config ≠ Instr.sreset ∧ (0x0000010F#32 : Word) ≠ 0x0000000F#32 := ⟨rfl, rfl, by decide, by decide⟩

theorem witness_OnlyResetClearsError :
    (∃ s t, step s = .next t ∧ s.status.err = true ∧ t.status.err = false)
    ∧ (∃ s t, step s = .next t ∧ s.status.err = false ∧ t.status.err = true)
    ∧ (latched.status.err = true ∧ (0x0000010F#32 : Word) ≠ 0x0000000F#32) :=
  ⟨⟨{ latched with pending := [.hardReset] }, _, rfl, rfl, rfl⟩, ⟨{ State.reset with pending := [issue 0x04#32] }, _, rfl, rfl, rfl⟩,
    rfl, by decide⟩

theorem witness_ModeWriters : ∃ t, step { demo .idle with pending := [issue 0x38#32] } = .next t
    ∧ t.status.mode ≠ (demo .idle).status.mode := ⟨_, rfl, by decide⟩

theorem witness_CommandFrames : ∃ t, exec .decStart (demo .idle) = .next t ∧ t.status.mode ≠ (demo .idle).status.mode :=
  ⟨_, rfl, by decide⟩

/-- BUSY = 0; a state that meets the invariant, with ERR = 0. -/
theorem witness_StatusReadsByFields : ∃ s : State, s.status.busy = false ∧ s.Inv blockParams ∧ s.status.err = false :=
  ⟨_, rfl, demo_inv .enc, rfl⟩

theorem witness_HostReadsReturnRegisters : (demo .idle).status.busy = false
    ∧ (∀ off ∈ [0x50#8, 0xFC#8], off.toNat % 4 = 0 ∧ 0x50 ≤ off.toNat) := by decide

theorem witness_HostWritesByAccess : ((demo .idle).status.busy = false ∧ (demo .idle).status.mode = .idle ∧ (demo .idle).status.mode ≠ .enc)
    ∧ ((demo .dec).status.busy = false ∧ (demo .dec).status.mode ≠ .enc)
    ∧ (∀ off ∈ [0x50#8, 0xFC#8], off.toNat % 4 = 0 ∧ 0x50 ≤ off.toNat) := by decide

/-- A half-word and a double-word cycle, offsets 1 and 0xFF off the word grid, and the first and last word offsets. -/
theorem witness_UndefinedCyclesAreRefused : (demo .idle).status.busy = false ∧ (2 : Nat) ≠ 4 ∧ (8 : Nat) ≠ 4
    ∧ (∀ off ∈ [0x01#8, 0xFF#8], off.toNat % 4 ≠ 0) ∧ (∀ off ∈ [0x04#8, 0xFC#8], off.toNat % 4 = 0 ∧ off ≠ 0x00#8)
    ∧ (0x00#8 : BitVec 8).toNat % 4 = 0 := by decide

theorem witness_GeometryWritesClearConfig : ((demo .enc).status.busy = false ∧ (demo .enc).status.mode ≠ .idle)
    ∧ ((demo .dec).status.busy = false ∧ (demo .dec).status.mode ≠ .idle)
    ∧ ((demo .idle).status.busy = false ∧ (demo .idle).status.mode = .idle) := by decide

theorem witness_SourceLengthFrozenWhileEncoding : ((demo .enc).status.busy = false ∧ (demo .enc).status.mode = .enc)
    ∧ ((demo .dec).status.busy = false ∧ (demo .dec).status.mode ≠ .enc) := by decide

/-- The first and last byte of each space, and the first byte outside it; one byte written and one not. -/
theorem witness_HostMemoryAccesses : (demo .idle).status.busy = false
    ∧ (∀ sp, 0 < spaceBytes blockParams sp ∧ spaceBytes blockParams sp - 1 < spaceBytes blockParams sp
      ∧ spaceBytes blockParams sp ≤ spaceBytes blockParams sp)
    ∧ spaceBytes blockParams .rast = 8294400
    ∧ ((demoWith .dec [] (solid 0xFFFF0000#32) 0 0 0).mem .rast).read? 63 = some 0xFF#8
    ∧ ((demoWith .dec [] (solid 0xFFFF0000#32) 0 0 0).mem .rast).read? 64 = none := by
  have h : ∀ sp, 0 < spaceBytes blockParams sp := fun sp => by
    cases sp
    exacts [one_le_srcBytes, show 0 < 4 * Config.maxPixels by decide +kernel, one_le_accBytes]
  exact ⟨rfl, fun sp => ⟨h sp, Nat.sub_lt (h sp) Nat.one_pos, Nat.le_refl _⟩, by decide +kernel, by decide +kernel, by decide +kernel⟩

/-- A range with a written and an unwritten byte, an engine read, a host read of an unwritten byte, and a power-on after draws. -/
theorem witness_UnwrittenBytesAreFreshDraws : ((1 : Nat) < 2 ∧ (1 : Nat) ≠ 0 ∧ Memory.read? [(0, 0xAA#8)] 0 = some 0xAA#8
    ∧ Memory.read? [(0, 0xAA#8)] 1 = none)
    ∧ (∃ bs t, memRead blockParams .rast 0 4 State.reset = .ok (bs, t))
    ∧ (State.reset.status.busy = false ∧ 0 < spaceBytes blockParams .rast ∧ (State.reset.mem .rast).read? 0 = none)
    ∧ (∃ s t, step s = .next t ∧ s.draws = 1 ∧ s.pending = [.powerOn]) :=
  ⟨by decide, ⟨_, _, memRead_ok (.inr (show 4 ≤ 4 * Config.maxPixels by decide +kernel))⟩,
    ⟨rfl, show 0 < 4 * Config.maxPixels by decide +kernel, rfl⟩,
    { State.reset with draws := 1, pending := [.powerOn] }, _, rfl, rfl, rfl⟩

theorem witness_PixelBytesAreTheRgbaWord :
    pixelAddress (demo .idle) 3 3 + 4 ≤ spaceBytes blockParams .rast
    ∧ pixelAt (solid 0xFFFF0000#32) (pixelAddress (demo .idle) 3 3) = [some 0x00#8, some 0x00#8, some 0xFF#8, some 0xFF#8] :=
  ⟨show 64 ≤ 4 * Config.maxPixels by decide +kernel, by decide +kernel⟩

theorem witness_AccessWhileBusyIsRefused : (∃ s : State, s.Inv blockParams)
    ∧ ({ State.reset with status := { Status.reset with busy := true } } : State).status.busy = true
    ∧ HostAccess.readReg 0x08#8 4 ≠ .readReg 0x04#8 4 ∧ HostAccess.readReg 0x08#8 4 ≠ .hardReset
    ∧ HostAccess.readReg 0x08#8 4 ≠ .powerOn := ⟨⟨_, demo_inv .idle⟩, by decide⟩

end Sys2Proof.Tests
end

section
/-! The commands by what they change: every command that runs either raises an error or has the effect its rule states, and what a
word written to CMD can do (30_encoding.md R96; 60_exceptions.md R251). -/

namespace Sys2Proof.Machine

/-! ### Decoding -/

/-- The word of a row's command has the row's OP, and the class field wherever the format has one. -/
theorem encode_make : ∀ r ∈ opcodeMap, ∀ cls : BitVec 3, (r.fmt = .n → cls = 0) →
    encode (r.make cls) = (0#21 ++ cls ++ r.op : BitVec 32) := by decide

/-- A command word is its three fields (30_encoding.md R91). -/
theorem word_eq_fields (w : Word) : w = (fieldRsv w ++ fieldCls w ++ fieldOp w : BitVec 32) := by
  refine BitVec.eq_of_getLsbD_eq fun k hk => ?_
  simp only [fieldRsv, fieldCls, fieldOp, BitVec.getLsbD_append, BitVec.getLsbD_extractLsb']
  split
  · simp [*]
  · split
    · have h8 : 8 + (k - 8) = k := by omega
      simp [*]
    · have h11 : 11 + (k - 8 - 3) = k := by omega
      have hlt : k - 8 - 3 < 21 := by omega
      simp [*]

/-- A word decodes to a command only when it is that command's word (30_encoding.md R96). -/
theorem eq_encode_of_decode {w : Word} {i : Instr} (h : decode w = .ok i) : w = encode i := by
  unfold decode at h
  split at h
  · cases h
  · rename_i r hr
    have hmem : r ∈ opcodeMap := List.mem_of_find?_eq_some hr
    have hop : r.op = fieldOp w := by simpa using List.find?_some hr
    split_ifs at h with hrsv hcls hclass
    obtain rfl := Except.ok.inj h
    have hn : r.fmt = .n → fieldCls w = 0 := fun hf => by_contra fun hc => hcls ⟨hf, hc⟩
    have h0 : fieldRsv w = 0#21 := not_not.1 hrsv
    rw [encode_make r hmem _ hn, hop, ← h0]
    exact word_eq_fields w

/-! ### What a command can do -/

/-- The state after a command that ran without raising an error, as the command's rule gives it. -/
def commandEffect (i : Instr) (s t : State) : Prop :=
  match i with
  | .nop => t = s
  | .config => t = configured s
  | .abort => t = { s with status := statusClose s.status }
  | .iofail => False
  | .sreset => t = resetRegisters s
  | .pack => ∃ v, t = { s with result := v }
  | .unpack => ∃ v, t = { s with result := v }
  | .symcolor _ => ∃ v, t = { s with result := v }
  | .classify => ∃ v, t = { s with result := v }
  | .wrblk _ => ∃ m, t = { s with rast := m }
  | .rdblk => ∃ v d, s.draws ≤ d ∧ t = { s with result := v, draws := d }
  | .encStart => t = { s with seq := 0, srcPos := 0, chunkLen := 0, status := statusOpenEncode s.status }
  | .encFrame => ∃ m d, s.draws ≤ d ∧ t = afterEncode (nextChunkLength s) { s with rast := m, draws := d }
  | .decStart => t = { s with accLen := 0, seq := 0, chunkLen := 0, status := statusOpenDecode s.status }
  | .decFrame => t = s ∨ ∃ n reached m d, s.draws ≤ d ∧ t = afterDecode n reached { s with acc := m, draws := d }
  | .decEnd => t = { s with status := statusClose s.status }

/-- The state after a command that raised an error: the latch, and in DEC_FRAME the draws of its reads (log 2). -/
def commandRaises (i : Instr) (s t : State) : Prop :=
  ∃ e d, e ≠ .none ∧ s.draws ≤ d ∧ (i ≠ .decFrame → d = s.draws) ∧ t = raise e { s with draws := d }

theorem commandRaises_of_raising {e : ErrCode} {i : Instr} {s t : State} (he : e ≠ .none) (h : raising e s = .next t) :
    commandRaises i s t :=
  ⟨e, s.draws, he, le_refl _, fun _ => rfl, (Host.Outcome.next.inj h).symm⟩

/-- While ERR = 1 every command but SRESET is ignored (10_state.md R30). -/
theorem exec_latched {s : State} (he : s.status.err = true) {i : Instr} (hi : i ≠ .sreset) : exec i s = .next s := by
  cases i with
  | nop => rfl
  | sreset => exact absurd rfl hi
  | _ => exact unlessError_latched he _

/-- Past its class operand a command raises ILLEGAL_COMMAND or goes on with a class. -/
theorem withClass_cases {cls : BitVec 3} {s t : State} {k : Class → Host.Outcome State Fault Refusal} (he : s.status.err = false)
    (h : withClass cls s k = .next t) : raising .illegalCommand s = .next t ∨ ∃ c, k c = .next t := by
  unfold withClass at h
  split at h
  · exact .inl ((unlessError_running he _).symm.trans h)
  · exact .inr ⟨_, h⟩

/-- Past its block operand a command raises SEQUENCE_ERROR or RANGE_ERROR, or goes on with a block. -/
theorem withBlock_cases {s t : State} {k : Nat → Host.Outcome State Fault Refusal} (h : withBlock s k = .next t) :
    (∃ e, e ≠ .none ∧ raising e s = .next t) ∨ ∃ g, k g = .next t := by
  unfold withBlock at h
  split_ifs at h
  · exact .inl ⟨_, by decide, h⟩
  · exact .inl ⟨_, by decide, h⟩
  · exact .inr ⟨_, h⟩

section
variable {p : Params} {s t : State} (he : s.status.err = false)
include he

theorem symcolor_running_cases {cls : BitVec 3} (h : execSymcolor cls s = .next t) :
    commandRaises (.symcolor cls) s t ∨ commandEffect (.symcolor cls) s t := by
  rw [execSymcolor, unlessError_running he] at h
  obtain h | ⟨c, h⟩ := withClass_cases he h
  · exact .inl (commandRaises_of_raising (by decide) h)
  · exact .inr ⟨_, (Host.Outcome.next.inj h).symm⟩

theorem wrblk_running_cases {cls : BitVec 3} (h : wrblk p cls s = .next t) :
    commandRaises (.wrblk cls) s t ∨ commandEffect (.wrblk cls) s t := by
  rw [wrblk, unlessError_running he] at h
  obtain h | ⟨c, h⟩ := withClass_cases he h
  · exact .inl (commandRaises_of_raising (by decide) h)
  · obtain ⟨e, hne, h⟩ | ⟨g, h⟩ := withBlock_cases h
    · exact .inl (commandRaises_of_raising hne h)
    · obtain ⟨u, hu, h⟩ := orFault_next h
      exact .inr ⟨_, (Host.Outcome.next.inj h).symm.trans (fillBlock_cases hu).1⟩

theorem rdblk_running_cases (h : rdblk p s = .next t) : commandRaises .rdblk s t ∨ commandEffect .rdblk s t := by
  rw [rdblk, unlessError_running he] at h
  obtain ⟨e, hne, h⟩ | ⟨g, h⟩ := withBlock_cases h
  · exact .inl (commandRaises_of_raising hne h)
  · obtain ⟨⟨c, u⟩, hu, h⟩ := orFault_next h
    obtain ⟨d, hd, hs⟩ := sampleClass_cases hu
    obtain rfl : u = { s with draws := d } := hs
    exact .inr ⟨_, d, hd, (Host.Outcome.next.inj h).symm⟩

theorem config_running_cases (h : config p s = .next t) : commandRaises .config s t ∨ commandEffect .config s t := by
  rw [config, unlessError_running he] at h
  split_ifs at h
  · exact .inl (commandRaises_of_raising (by decide) h)
  · exact .inr (Host.Outcome.next.inj h).symm
  · exact .inl (commandRaises_of_raising (by decide) h)

theorem encStart_running_cases (h : encStart p s = .next t) : commandRaises .encStart s t ∨ commandEffect .encStart s t := by
  rw [encStart, unlessError_running he] at h
  split_ifs at h
  · exact .inl (commandRaises_of_raising (by decide) h)
  · exact .inl (commandRaises_of_raising (by decide) h)
  · exact .inl (commandRaises_of_raising (by decide) h)
  · exact .inr (Host.Outcome.next.inj h).symm

theorem encFrame_running_cases (h : encFrame p s = .next t) : commandRaises .encFrame s t ∨ commandEffect .encFrame s t := by
  by_cases hm : s.status.mode = .enc
  · exact .inr (encFrame_cases he hm h)
  · rw [encFrame, unlessError_running he, if_pos hm] at h
    exact .inl (commandRaises_of_raising (by decide) h)

theorem decStart_running_cases (h : decStart s = .next t) : commandRaises .decStart s t ∨ commandEffect .decStart s t := by
  rw [decStart, unlessError_running he] at h
  split_ifs at h
  · exact .inl (commandRaises_of_raising (by decide) h)
  · exact .inl (commandRaises_of_raising (by decide) h)
  · exact .inr (Host.Outcome.next.inj h).symm

theorem decFrame_running_cases (h : decFrame p s = .next t) : commandRaises .decFrame s t ∨ commandEffect .decFrame s t := by
  have hrun := h
  rw [decFrame, unlessError_running he] at hrun
  split_ifs at hrun with hm hd hdim
  · exact .inl (commandRaises_of_raising (by decide) hrun)
  · exact .inr (.inl (Host.Outcome.next.inj hrun).symm)
  · exact .inl (commandRaises_of_raising (by decide) hrun)
  · obtain ⟨hw, hh⟩ := not_or.1 hdim
    obtain ⟨chunk, reached, d, hle, -, ⟨-, rfl⟩ | ⟨-, rfl⟩⟩ :=
      decFrame_cases he (not_not.1 hm) (Bool.eq_false_of_not_eq_true hd) (not_not.1 hw) (not_not.1 hh) h
    · exact .inl ⟨_, d, by decide, hle, fun hc => absurd rfl hc, rfl⟩
    · exact .inr (.inr ⟨_, _, _, d, hle, rfl⟩)

theorem decEnd_running_cases (h : decEnd s = .next t) : commandRaises .decEnd s t ∨ commandEffect .decEnd s t := by
  rw [decEnd, unlessError_running he] at h
  split_ifs at h
  · exact .inl (commandRaises_of_raising (by decide) h)
  · exact .inl (commandRaises_of_raising (by decide) h)
  · exact .inr (Host.Outcome.next.inj h).symm

/-- Everything a command can do while ERR = 0: it raises an error, or has its own effect. -/
theorem exec_running_cases {i : Instr} (h : exec i s = .next t) : commandRaises i s t ∨ commandEffect i s t := by
  have ungated {k : Host.Outcome State Fault Refusal} (h : unlessError s k = .next t) : k = .next t :=
    (unlessError_running he k).symm.trans h
  cases i with
  | nop => exact .inr (Host.Outcome.next.inj h).symm
  | config => exact config_running_cases he h
  | abort => exact .inr (Host.Outcome.next.inj (ungated h)).symm
  | iofail => exact .inl (commandRaises_of_raising (by decide) (ungated h))
  | sreset => exact .inr (Host.Outcome.next.inj h).symm
  | pack => exact .inr ⟨_, (Host.Outcome.next.inj (ungated h)).symm⟩
  | unpack => exact .inr ⟨_, (Host.Outcome.next.inj (ungated h)).symm⟩
  | symcolor cls => exact symcolor_running_cases he h
  | classify => exact .inr ⟨_, (Host.Outcome.next.inj (ungated h)).symm⟩
  | wrblk cls => exact wrblk_running_cases he h
  | rdblk => exact rdblk_running_cases he h
  | encStart => exact encStart_running_cases he h
  | encFrame => exact encFrame_running_cases he h
  | decStart => exact decStart_running_cases he h
  | decFrame => exact decFrame_running_cases he h
  | decEnd => exact decEnd_running_cases he h

end

/-- A command that raises no error leaves ERR = 0. -/
theorem commandEffect_err {i : Instr} {s t : State} (he : s.status.err = false) (h : commandEffect i s t) : t.status.err = false := by
  cases i with
  | sreset => obtain rfl := h; rfl
  | nop | config | abort | encStart | decStart | decEnd => obtain rfl := h; exact he
  | iofail => exact h.elim
  | pack | unpack | symcolor | classify | wrblk => obtain ⟨_, rfl⟩ := h; exact he
  | rdblk => obtain ⟨_, _, -, rfl⟩ := h; exact he
  | encFrame => obtain ⟨_, _, -, rfl⟩ := h; simpa using he
  | decFrame =>
    obtain rfl | ⟨_, _, _, _, -, rfl⟩ := h
    · exact he
    · exact he

/-- The commands that change MODE without raising an error, each with the mode it leaves (10_state.md R26). -/
theorem commandEffect_mode {i : Instr} {s t : State} (h : commandEffect i s t) :
    t.status.mode = s.status.mode ∨ i = .encStart ∧ t.status.mode = .enc ∨ i = .decStart ∧ t.status.mode = .dec ∨
      i = .encFrame ∧ t.status.final = true ∧ t.status.mode = .idle ∨
      (i = .decEnd ∨ i = .abort ∨ i = .sreset) ∧ t.status.mode = .idle := by
  cases i with
  | nop | config => obtain rfl := h; exact .inl rfl
  | abort | sreset | decEnd => obtain rfl := h; simp [Status.reset]
  | encStart => obtain rfl := h; simp
  | decStart => obtain rfl := h; simp
  | iofail => exact h.elim
  | pack | unpack | symcolor | classify | wrblk => obtain ⟨_, rfl⟩ := h; exact .inl rfl
  | rdblk => obtain ⟨_, _, -, rfl⟩ := h; exact .inl rfl
  | encFrame =>
    obtain ⟨_, _, -, rfl⟩ := h
    by_cases hf : nextChunkLength s < s.cap.toNat
    · simp [hf]
    · simp [hf]
  | decFrame =>
    obtain rfl | ⟨_, _, _, _, -, rfl⟩ := h
    · exact .inl rfl
    · exact .inl rfl

/-! ### What a word written to CMD can do -/

/-- While ERR = 1 a word that is not SRESET's is ignored (10_state.md R30). -/
theorem runCommand_latched {s : State} (he : s.status.err = true) {w : Word} (hw : w ≠ 0x0000000F#32) :
    runCommand w s = .next s := by
  unfold runCommand
  split
  · exact illegalCommand_latched he
  · rename_i i hi
    refine exec_latched he ?_
    rintro rfl
    exact hw (eq_encode_of_decode hi)

/-- While ERR = 0 a word raises an error or has the effect of the command it decodes to. -/
theorem runCommand_running_cases {w : Word} {s t : State} (he : s.status.err = false) (h : runCommand w s = .next t) :
    (∃ e d, e ≠ .none ∧ s.draws ≤ d ∧ t = raise e { s with draws := d }) ∨ ∃ i, decode w = .ok i ∧ commandEffect i s t := by
  unfold runCommand at h
  split at h
  · rw [illegalCommand_running he] at h
    exact .inl ⟨_, s.draws, by decide, le_refl _, (Host.Outcome.next.inj h).symm⟩
  · rename_i i hi
    obtain ⟨e, d, hne, hd, -, ht⟩ | ht := exec_running_cases he h
    · exact .inl ⟨e, d, hne, hd, ht⟩
    · exact .inr ⟨i, hi, ht⟩

/-! ### What a step can do to STATUS -/

/-- A host access other than a reset or a word written to CMD changes no bit of STATUS but CFG_VALID. -/
theorem hostAccess_status_cases {p : Params} {a : HostAccess} {s t : State} (h : hostAccess p a s = .next t) :
    (t.status = { s.status with cfgValid := t.status.cfgValid }) ∨
    ((a = .hardReset ∨ a = .powerOn) ∧ t.status = Status.reset) ∨
    (∃ w, a = issue w ∧ runCommand w s = .next t) := by
  obtain ⟨_, -, rfl⟩ | ⟨off, v, rfl, -, h⟩ | ⟨_, _, -, rfl⟩ | ⟨_, _, _, -, -, rfl⟩ | ⟨rfl, rfl⟩ | ⟨rfl, rfl⟩ := hostAccess_cases h
  · exact .inl rfl
  · obtain rfl | ⟨rfl, h⟩ | ⟨r, -, rfl⟩ := writeOffset_cases h
    · exact .inl rfl
    · exact .inr (.inr ⟨v, rfl, h⟩)
    · exact .inl (storeReg_frame r v s).1
  · exact .inl rfl
  · exact .inl (by simp)
  · exact .inr (.inl ⟨.inl rfl, rfl⟩)
  · exact .inr (.inl ⟨.inr rfl, rfl⟩)

/-- Everything a step can do to STATUS: nothing but CFG_VALID, a reset, or a command. -/
theorem step_status_cases {s t : State} (h : step s = .next t) :
    (t.status = { s.status with cfgValid := t.status.cfgValid }) ∨
    ∃ a rest, s.pending = a :: rest ∧
      ((a = .hardReset ∨ a = .powerOn) ∧ t.status = Status.reset ∨
        ∃ w, a = issue w ∧ runCommand w { s with pending := rest } = .next t) := by
  unfold step hostStep at h
  split at h
  · obtain rfl := Host.Outcome.next.inj h; exact .inl rfl
  · rename_i a rest hp
    obtain h | h | h := hostAccess_status_cases h
    · exact .inl h
    · exact .inr ⟨a, rest, hp, .inl h⟩
    · exact .inr ⟨a, rest, hp, .inr h⟩

end Sys2Proof.Machine
end

section
/-! Who sets and clears ERR, and who changes MODE (10_state.md R26, R30). -/

namespace Sys2Proof.Machine

/-- A step that takes ERR from 1 to 0 is a reset or the SRESET word. -/
theorem step_clears_err {s t : State} (h : step s = .next t) (hs : s.status.err = true) (ht : t.status.err = false) :
    ∃ a rest, s.pending = a :: rest ∧ (a = .hardReset ∨ a = .powerOn ∨ a = issue 0x0000000F#32) := by
  obtain hst | ⟨a, rest, hp, ⟨ha, -⟩ | ⟨w, rfl, hrun⟩⟩ := step_status_cases h
  · rw [hst, hs] at ht; cases ht
  · exact ⟨a, rest, hp, ha.imp_right .inl⟩
  · by_cases hw : w = 0x0000000F#32
    · exact ⟨_, rest, hp, .inr (.inr (congrArg issue hw))⟩
    · rw [runCommand_latched (s := { s with pending := rest }) hs hw] at hrun
      obtain rfl := Host.Outcome.next.inj hrun
      rw [hs] at ht; cases ht

/-- A step that takes ERR from 0 to 1 is a word whose command raised an error. -/
theorem step_sets_err {s t : State} (h : step s = .next t) (hs : s.status.err = false) (ht : t.status.err = true) :
    ∃ w rest e d, s.pending = issue w :: rest ∧ t = raise e { s with pending := rest, draws := d } := by
  obtain hst | ⟨a, rest, hp, ⟨-, hst⟩ | ⟨w, rfl, hrun⟩⟩ := step_status_cases h
  · rw [hst, hs] at ht; cases ht
  · rw [hst] at ht; cases ht
  · obtain ⟨e, d, -, -, rfl⟩ | ⟨i, -, heff⟩ := runCommand_running_cases (s := { s with pending := rest }) hs hrun
    · exact ⟨w, rest, e, d, hp, rfl⟩
    · rw [commandEffect_err (s := { s with pending := rest }) hs heff] at ht; cases ht

/-- Settles O47: a step changes ERR by a reset or a command, and while ERR = 1 the only command is SRESET. -/
theorem onlyResetClearsError : Obligations.OnlyResetClearsError :=
  ⟨fun _ _ h => ⟨step_clears_err h, step_sets_err h⟩, fun _ _ he hw => runCommand_latched he hw⟩

/-- A word written to CMD that changes MODE: a command R26 lists, or the error latch. -/
theorem runCommand_mode {w : Word} {s t : State} (h : runCommand w s = .next t) (hm : t.status.mode ≠ s.status.mode) :
    decode w = .ok .encStart ∧ t.status.mode = .enc ∨
      decode w = .ok .decStart ∧ t.status.mode = .dec ∨
      decode w = .ok .encFrame ∧ t.status.final = true ∧ t.status.mode = .idle ∨
      decode w = .ok .decEnd ∧ t.status.mode = .idle ∨
      decode w = .ok .abort ∧ t.status.mode = .idle ∨
      decode w = .ok .sreset ∧ t.status.mode = .idle ∨
      s.status.err = false ∧ t.status.err = true ∧ t.status.mode = .idle := by
  cases he : s.status.err with
  | true =>
    by_cases hw : w = 0x0000000F#32
    · have hd : decode w = .ok .sreset := by rw [hw]; decide
      rw [runCommand, hd] at h
      obtain rfl : resetRegisters s = t := Host.Outcome.next.inj h
      simp [hd, Status.reset]
    · rw [runCommand_latched he hw] at h
      exact absurd (by rw [Host.Outcome.next.inj h]) hm
  | false =>
    obtain ⟨e, d, -, -, rfl⟩ | ⟨i, hi, heff⟩ := runCommand_running_cases he h
    · simp
    · obtain hsame | ⟨rfl, ht⟩ | ⟨rfl, ht⟩ | ⟨rfl, hf, ht⟩ | ⟨rfl | rfl | rfl, ht⟩ := commandEffect_mode heff
      · exact absurd hsame hm
      all_goals simp [*]

/-- Settles O48: MODE changes only in a reset or in a word written to CMD, and there as `runCommand_mode` says. -/
theorem modeWriters : Obligations.ModeWriters := by
  intro s t h hm
  obtain hst | ⟨a, rest, hp, ⟨ha, hst⟩ | ⟨w, rfl, hrun⟩⟩ := step_status_cases h
  · exact absurd (by rw [hst]) hm
  · exact ⟨a, rest, hp, .inl ⟨ha, by rw [hst]; rfl⟩⟩
  · exact ⟨_, rest, hp, .inr ⟨w, rfl, runCommand_mode (s := { s with pending := rest }) hrun hm⟩⟩

end Sys2Proof.Machine
end

section
/-! The registers as the host reads and writes them (10_state.md R24, R48 to R51). -/

namespace Sys2Proof.Machine

/-! ### STATUS by its bits (10_state.md R24) -/

theorem statusWord_cfgValid (t : Status) : (statusWord t).getLsbD 0 = t.cfgValid := by
  simp only [statusWord, BitVec.getLsbD_append]
  simp

theorem statusWord_done (t : Status) : (statusWord t).getLsbD 3 = t.done := by
  simp only [statusWord, BitVec.getLsbD_append]
  simp

theorem statusWord_final (t : Status) : (statusWord t).getLsbD 4 = t.final := by
  simp only [statusWord, BitVec.getLsbD_append]
  simp

theorem statusWord_sent (t : Status) : (statusWord t).getLsbD 5 = t.sent := by
  simp only [statusWord, BitVec.getLsbD_append]
  simp

theorem statusWord_err (t : Status) : (statusWord t).getLsbD 6 = t.err := by
  simp only [statusWord, BitVec.getLsbD_append]
  simp

theorem statusWord_busy (t : Status) : (statusWord t).getLsbD 7 = t.busy := by
  simp only [statusWord, BitVec.getLsbD_append]
  simp

theorem statusWord_mode (t : Status) : (statusWord t).extractLsb' 1 2 = modeBits t.mode := by
  ext k hk
  simp only [BitVec.getElem_extractLsb', statusWord, BitVec.getLsbD_append]
  simp (disch := omega) only [if_neg, if_pos]
  simp [*]

theorem statusWord_errCode (t : Status) : (statusWord t).extractLsb' 8 3 = errCodeBits t.errCode := by
  ext k hk
  simp only [BitVec.getElem_extractLsb', statusWord, BitVec.getLsbD_append]
  simp (disch := omega) only [if_neg, if_pos, Nat.sub_sub]
  simp [*]

theorem statusWord_reserved (t : Status) : (statusWord t).extractLsb' 11 21 = 0 := by
  ext k hk
  simp only [BitVec.getElem_extractLsb', statusWord, BitVec.getLsbD_append]
  simp (disch := omega) only [if_neg]
  simp

/-! ### Register cycles by register -/

theorem hostAccess_readReg_reg {s : State} (hb : s.status.busy = false) (p : Params) (r : Reg) :
    hostAccess p (.readReg (regOffset r) 4) s = .next { s with busData := regValue s r } := by
  rw [hostAccess_readReg hb p (regOffset_aligned r), offsetValue_regOffset]

theorem hostAccess_writeReg_reg {s : State} (hb : s.status.busy = false) (p : Params) {r : Reg} (hr : r ≠ .cmd) (v : Word) :
    hostAccess p (.writeReg (regOffset r) 4 v) s = .next (storeReg r v s) := by
  rw [hostAccess_writeReg hb p (regOffset_aligned r), writeOffset_regOffset hr]

theorem hostAccess_writeReg_reserved {s : State} (hb : s.status.busy = false) (p : Params) {off : BitVec 8}
    (ha : off.toNat % 4 = 0) (hr : 0x50 ≤ off.toNat) (v : Word) : hostAccess p (.writeReg off 4 v) s = .next s := by
  rw [hostAccess_writeReg hb p ha, writeOffset_reserved ha hr]

/-- The registers a host write leaves alone (10_state.md R21, R49). -/
def readOnlyRegs : List Reg :=
  [.status, .gridw, .gridh, .grid, .cap, .seq, .srcPos, .chunkLen, .accLen, .errSeq, .result]

theorem hostAccess_writeReg_readOnly {s : State} (hb : s.status.busy = false) (p : Params) {r : Reg} (hr : r ∈ readOnlyRegs)
    (v : Word) : hostAccess p (.writeReg (regOffset r) 4 v) s = .next s := by
  have hcmd : r ≠ .cmd := by rintro rfl; revert hr; decide
  have hstore : storeReg r v s = s := by
    simp only [readOnlyRegs, List.mem_cons, List.not_mem_nil, or_false] at hr
    rcases hr with rfl | rfl | rfl | rfl | rfl | rfl | rfl | rfl | rfl | rfl | rfl <;> rfl
  rw [hostAccess_writeReg_reg hb p hcmd, hstore]

/-- The registers whose write clears the configuration (10_state.md R50). -/
def geometryRegs : List Reg := [.width, .height, .bsize, .thresh]

/-- While a stream is open a host write of a geometry register is ignored (10_state.md R50). -/
theorem hostAccess_writeReg_geometry_open {s : State} (hb : s.status.busy = false) (hm : s.status.mode ≠ .idle) (p : Params)
    {r : Reg} (hr : r ∈ geometryRegs) (v : Word) : hostAccess p (.writeReg (regOffset r) 4 v) s = .next s := by
  have hcmd : r ≠ .cmd := by rintro rfl; revert hr; decide
  have hstore : storeReg r v s = s := by
    simp only [geometryRegs, List.mem_cons, List.not_mem_nil, or_false] at hr
    rcases hr with rfl | rfl | rfl | rfl <;> simp only [storeReg, geometryWrite_open hm]
  rw [hostAccess_writeReg_reg hb p hcmd, hstore]

/-! ### The obligations -/

/-- Settles O50: a read of STATUS returns `statusWord`, whose bits are the fields'. -/
theorem statusReadsByFields : Obligations.StatusReadsByFields := by
  intro s hb
  refine ⟨statusWord s.status, hostAccess_readReg_reg hb _ .status, statusWord_cfgValid _, ?mode, statusWord_done _,
    statusWord_final _, statusWord_sent _, statusWord_err _, statusWord_busy _, ?errCode, statusWord_reserved _, ?noError,
    by decide, fun w => hostAccess_writeReg_readOnly hb _ (r := .status) (by decide) w⟩
  case mode => rw [statusWord_mode]; cases s.status.mode <;> rfl
  case errCode => rw [statusWord_errCode]; cases s.status.errCode <;> rfl
  case noError =>
    intro hinv he
    rw [statusWord_errCode, hinv.err_code.1 he]; rfl

/-- Settles O51: the table lists every register with `regValue`, and past it every aligned offset is reserved. -/
theorem hostReadsReturnRegisters : Obligations.HostReadsReturnRegisters := by
  intro s hb
  constructor
  · intro e he
    have hmem : e ∈ allRegs.map fun r => (regOffset r, regValue s r) := he
    obtain ⟨r, -, rfl⟩ := List.mem_map.1 hmem
    exact hostAccess_readReg_reg hb _ r
  · intro off ha hr
    rw [hostAccess_readReg hb _ ha, offsetValue_reserved ha hr]

/-- Settles O53: a geometry write stores and clears the derived sizes in IDLE, and is ignored in a stream. -/
theorem geometryWritesClearConfig : Obligations.GeometryWritesClearConfig := by
  intro s v hb
  constructor
  · intro hm off hoff
    obtain ⟨r, hr, rfl⟩ := List.mem_map.1 (show off ∈ geometryRegs.map regOffset from hoff)
    exact hostAccess_writeReg_geometry_open hb hm _ hr v
  · intro hm
    refine ⟨(hostAccess_writeReg_reg hb _ (r := .width) (by decide) v).trans ?_,
      (hostAccess_writeReg_reg hb _ (r := .height) (by decide) v).trans ?_,
      (hostAccess_writeReg_reg hb _ (r := .bsize) (by decide) v).trans ?_,
      (hostAccess_writeReg_reg hb _ (r := .thresh) (by decide) v).trans ?_⟩
    all_goals simp only [storeReg, geometryWrite_idle hm]; rfl

/-- Settles O54: SRC_LEN takes a host write in every mode but ENC. -/
theorem sourceLengthFrozenWhileEncoding : Obligations.SourceLengthFrozenWhileEncoding := by
  intro s v hb
  have hw := hostAccess_writeReg_reg hb blockParams (r := .srcLen) (by decide) v
  exact ⟨fun hm => hw.trans (by rw [storeReg, if_pos hm]), fun hm => hw.trans (by rw [storeReg, if_neg hm])⟩

/-- Settles O52: by access class, with O53 and O54 for the registers whose write depends on MODE. -/
theorem hostWritesByAccess : Obligations.HostWritesByAccess := by
  intro s v hb
  refine ⟨?readOnly, fun off ha hr => hostAccess_writeReg_reserved hb _ ha hr v,
    hostAccess_writeReg_reg hb _ (r := .inWidth) (by decide) v, hostAccess_writeReg_reg hb _ (r := .inHeight) (by decide) v,
    hostAccess_writeReg_reg hb _ (r := .arg) (by decide) v, ?geometry, ?srcLen, hostAccess_issue hb _ v⟩
  case readOnly =>
    intro off hoff
    obtain ⟨r, hr, rfl⟩ := List.mem_map.1 (show off ∈ readOnlyRegs.map regOffset from hoff)
    exact hostAccess_writeReg_readOnly hb _ hr v
  case geometry =>
    intro hm
    obtain ⟨hwidth, hheight, hbsize, hthresh⟩ := (geometryWritesClearConfig s v hb).2 hm
    exact ⟨⟨_, hwidth, rfl⟩, ⟨_, hheight, rfl⟩, ⟨_, hbsize, rfl⟩, ⟨_, hthresh, rfl⟩⟩
  case srcLen => exact fun hm => ⟨_, (sourceLengthFrozenWhileEncoding s v hb).2 hm, rfl⟩

end Sys2Proof.Machine
end

section
/-! The host's byte accesses of the memories, the register cycles that have no meaning, and the pixel as its four bytes
(20_memory.md R61, R65, R67, R72). -/

namespace Sys2Proof.Machine

/-! ### Bytes and the RGBA word (20_memory.md R67) -/

/-- A byte appended below a word takes the low eight bits. -/
theorem toNat_append_byte {n : Nat} (x : BitVec n) (v : Byte) : (x ++ v).toNat = v.toNat + 256 * x.toNat := by
  rw [BitVec.toNat_append, ← Nat.shiftLeft_add_eq_or_of_lt v.isLt, Nat.shiftLeft_eq, Nat.add_comm, Nat.mul_comm]

/-- The RGBA word is its four bytes, R first, combined little-endian (00_scope.md R14). -/
theorem rgbaWord_toNat (r g b al : Byte) : (rgbaWord r g b al).toNat = leValue [r, g, b, al] := by
  rw [rgbaWord, toNat_append_byte, toNat_append_byte, toNat_append_byte]
  rfl

theorem leValue_rgba (r g b al : Byte) :
    leValue [r, g, b, al] = al.toNat * 2 ^ 24 + b.toNat * 2 ^ 16 + g.toNat * 2 ^ 8 + r.toNat := by
  simp only [leValue]
  omega

@[simp] theorem redOf_rgbaWord (r g b al : Byte) : redOf (rgbaWord r g b al) = r := by
  rw [redOf, rgbaWord, BitVec.extractLsb'_append_eq_right]

@[simp] theorem greenOf_rgbaWord (r g b al : Byte) : greenOf (rgbaWord r g b al) = g := by
  rw [greenOf, rgbaWord, BitVec.extractLsb'_append_eq_of_le (by decide), BitVec.extractLsb'_append_eq_right]

@[simp] theorem blueOf_rgbaWord (r g b al : Byte) : blueOf (rgbaWord r g b al) = b := by
  rw [blueOf, rgbaWord, BitVec.extractLsb'_append_eq_of_le (by decide), BitVec.extractLsb'_append_eq_of_le (by decide),
    BitVec.extractLsb'_append_eq_right]

@[simp] theorem alphaOf_rgbaWord (r g b al : Byte) : alphaOf (rgbaWord r g b al) = al := by
  rw [alphaOf, rgbaWord, BitVec.extractLsb'_append_eq_of_le (by decide), BitVec.extractLsb'_append_eq_of_le (by decide),
    BitVec.extractLsb'_append_eq_left]

/-- A MemRead whose bytes are all written gives them and leaves the state as it is, the count of draws included. -/
theorem memRead_written {p : Params} {sp : Space} {a : Nat} {s : State} (bs : List Byte) (hin : inSpace p sp a bs.length)
    (hw : ∀ i, i < bs.length → (s.mem sp).read? (a + i) = bs[i]?) : memRead p sp a bs.length s = .ok (bs, s) := by
  rw [memRead_ok hin, readBytes_all_written _ bs hw]

/-! ### Register cycles that are no aligned word (20_memory.md R61) -/

theorem hostAccess_readReg_undefined {s : State} (hb : s.status.busy = false) (p : Params) {off : BitVec 8} {bytes : Nat}
    (h : ¬ wordCycle off bytes) : hostAccess p (.readReg off bytes) s = .refused (.registerCycle off bytes) := by
  simp only [hostAccess, hb, Bool.false_and, if_neg h, Bool.false_eq_true, if_false]

theorem hostAccess_writeReg_undefined {s : State} (hb : s.status.busy = false) (p : Params) {off : BitVec 8} {bytes : Nat}
    (h : ¬ wordCycle off bytes) (v : Word) : hostAccess p (.writeReg off bytes v) s = .refused (.registerCycle off bytes) := by
  simp only [hostAccess, hb, Bool.false_and, if_neg h, Bool.false_eq_true, if_false]

theorem regOffset_of_regAt {off : BitVec 8} {r : Reg} (h : regAt off = some r) : regOffset r = off :=
  eq_of_beq (List.find?_some (p := fun r => regOffset r == off) h)

/-- A write anywhere but at CMD gives a next state: it is ignored or stored. -/
theorem writeOffset_answers {off : BitVec 8} (h : off ≠ regOffset .cmd) (v : Word) (s : State) :
    ∃ t, writeOffset off v s = .next t := by
  cases hr : regAt off with
  | none => exact ⟨s, by simp only [writeOffset, hr]⟩
  | some r =>
    have hoff := regOffset_of_regAt hr
    have hcmd : r ≠ .cmd := fun hc => h (hc ▸ hoff.symm)
    exact ⟨storeReg r v s, hoff ▸ writeOffset_regOffset hcmd v s⟩

/-! ### Host byte accesses (20_memory.md R72) -/

theorem hostAccess_readMem_outside {s : State} (hb : s.status.busy = false) {p : Params} {sp : Space} {a : Nat}
    (h : spaceBytes p sp ≤ a) : hostAccess p (.readMem sp a) s = .refused (.memoryCycle sp a) := by
  simp [hostAccess, hb, Nat.not_lt.2 h]

theorem hostAccess_writeMem_outside {s : State} (hb : s.status.busy = false) {p : Params} {sp : Space} {a : Nat}
    (h : spaceBytes p sp ≤ a) (b : Byte) : hostAccess p (.writeMem sp a b) s = .refused (.memoryCycle sp a) := by
  simp [hostAccess, hb, Nat.not_lt.2 h]

theorem hostAccess_readMem_written {s : State} (hb : s.status.busy = false) {p : Params} {sp : Space} {a : Nat}
    (h : a < spaceBytes p sp) {b : Byte} (hr : (s.mem sp).read? a = some b) :
    hostAccess p (.readMem sp a) s = .next { s with busData := b.setWidth 32 } := by
  rw [hostAccess_readMem hb h, readByte_written hr]

theorem hostAccess_readMem_unwritten {s : State} (hb : s.status.busy = false) {p : Params} {sp : Space} {a : Nat}
    (h : a < spaceBytes p sp) (hr : (s.mem sp).read? a = none) :
    hostAccess p (.readMem sp a) s =
      .next { s with busData := (Config.freeByte s.draws).setWidth 32, draws := s.draws + 1 } := by
  rw [hostAccess_readMem hb h, readByte_unwritten hr]

/-- Outside the three memories `setMem` changes nothing. -/
theorem setMem_frame (s : State) (sp : Space) (m : Memory) :
    s.setMem sp m = { s with src := (s.setMem sp m).src, rast := (s.setMem sp m).rast, acc := (s.setMem sp m).acc } := by
  cases sp <;> rfl

/-- A byte written in one space is the only byte of any space that can read otherwise. -/
theorem read?_setMem_write_other (s : State) {sp sq : Space} {a x : Nat} (h : sq ≠ sp ∨ x ≠ a) (b : Byte) :
    ((s.setMem sp ((s.mem sp).write a b)).mem sq).read? x = (s.mem sq).read? x := by
  by_cases hq : sq = sp
  · subst hq
    rw [setMem_mem_same, read?_write_other _ b (h.resolve_left (not_not_intro rfl))]
  · rw [setMem_mem_other _ _ hq]

/-! ### The obligations -/

/-- Settles O58: a written pixel is read without a draw, and the RGBA word is the little-endian value of its bytes. -/
theorem pixelBytesAreTheRgbaWord : Obligations.PixelBytesAreTheRgbaWord := by
  intro s x y r g b al hin
  refine ⟨rfl, fun hr hg hb ha => ⟨[r, g, b, al], ?read, leValue_rgba r g b al, ?word, redOf_rgbaWord .., greenOf_rgbaWord ..,
    blueOf_rgbaWord .., alphaOf_rgbaWord ..⟩⟩
  case read =>
    refine memRead_written [r, g, b, al] (.inr hin) fun i hi => ?_
    match i, hi with
    | 0, _ => exact hr
    | 1, _ => exact hg
    | 2, _ => exact hb
    | 3, _ => exact ha
  case word => rw [← rgbaWord_toNat, BitVec.ofNat_toNat, BitVec.setWidth_eq]

/-- Settles O55: the width and alignment decide the cycle, and an aligned word away from CMD is a plain read or store. -/
theorem undefinedCyclesAreRefused : Obligations.UndefinedCyclesAreRefused := by
  intro s hb off bytes v
  refine ⟨fun h => ?undefined, fun ha => ⟨_, hostAccess_readReg hb _ ha⟩, fun ha hoff => ?write⟩
  case undefined =>
    have hc : ¬ wordCycle off bytes := not_and_or.2 h
    exact ⟨hostAccess_readReg_undefined hb _ hc, hostAccess_writeReg_undefined hb _ hc v⟩
  case write =>
    rw [hostAccess_writeReg hb _ ha]
    exact writeOffset_answers hoff v s

/-- Settles O56: inside the space by the laws of `read?` after `write`, outside it both accesses are refused. -/
theorem hostMemoryAccesses : Obligations.HostMemoryAccesses := by
  intro s sp a hb
  refine ⟨fun ha => ⟨fun b => ?write, fun b hr => hostAccess_readMem_written hb ha hr,
    fun hr => ⟨_, _, hostAccess_readMem_unwritten hb ha hr⟩⟩,
    fun ha => ⟨hostAccess_readMem_outside hb ha, hostAccess_writeMem_outside hb ha⟩⟩
  case write =>
    refine ⟨_, hostAccess_writeMem hb ha b, setMem_frame .., ?_, fun sq x hx => read?_setMem_write_other s hx b⟩
    rw [setMem_mem_same, read?_write_same]

end Sys2Proof.Machine
end

section
/-! The command words: what decodes, the illegal words by their fields, and the decode procedure of a word written to CMD
(30_encoding.md R91 to R97, R104, R105). -/

namespace Sys2Proof.Machine

/-! ### The fields of a word as naturals (30_encoding.md R91) -/

theorem fieldOp_toNat (w : Word) : (fieldOp w).toNat = w.toNat % 256 := by
  rw [fieldOp, BitVec.extractLsb'_toNat, Nat.shiftRight_zero]

theorem fieldCls_toNat (w : Word) : (fieldCls w).toNat = w.toNat / 256 % 8 := by
  rw [fieldCls, BitVec.extractLsb'_toNat, Nat.shiftRight_eq_div_pow]

theorem fieldRsv_toNat (w : Word) : (fieldRsv w).toNat = w.toNat / 2048 := by
  have hw := w.isLt
  rw [fieldRsv, BitVec.extractLsb'_toNat, Nat.shiftRight_eq_div_pow, Nat.mod_eq_of_lt (by omega)]

/-- The word of a command on naturals (30_encoding.md R92, R93). -/
theorem encode_toNat (i : Instr) : (encode i).toNat = 256 * i.classField.toNat + i.opcode.toNat := by
  rw [encode, toNat_append_byte, BitVec.toNat_append, BitVec.toNat_zero, Nat.zero_shiftLeft, Nat.zero_or, Nat.add_comm]

/-! ### The rows of the opcode map (30_encoding.md R95) -/

theorem opcodeRow_some {op : Byte} {r : OpRow} (h : opcodeRow op = some r) : r ∈ opcodeMap ∧ r.op = op :=
  ⟨List.mem_of_find?_eq_some h, eq_of_beq (List.find?_some (p := fun r : OpRow => r.op == op) h)⟩

/-- The OP values that no command has (30_encoding.md R97). -/
def unassignedOp (op : Nat) : Prop :=
  0x04 ≤ op ∧ op ≤ 0x0E ∨ 0x12 ≤ op ∧ op ≤ 0x1F ∨ 0x24 ≤ op ∧ op ≤ 0x2F ∨ 0x32 ≤ op ∧ op ≤ 0x37 ∨ 0x3B ≤ op

theorem opcodeRow_eq_none_iff : ∀ op : Byte, opcodeRow op = none ↔ unassignedOp op.toNat := by
  unfold unassignedOp
  simp only [← Option.isNone_iff_eq_none]
  decide +kernel

/-- Format C is the format of SYMCOLOR and WRBLK alone. -/
theorem row_format : ∀ r ∈ opcodeMap,
    r.fmt = .c ∧ (r.op.toNat = 0x20 ∨ r.op.toNat = 0x22) ∨ r.fmt = .n ∧ r.op.toNat ≠ 0x20 ∧ r.op.toNat ≠ 0x22 := by decide

/-- A row's command is well-formed for every class field its format allows. -/
theorem wellFormed_make : ∀ r ∈ opcodeMap, ∀ cls : BitVec 3, (r.fmt = .c → cls.toNat ≤ 4) →
    (r.make cls).wellFormed = true := by decide

/-! ### When a word decodes (30_encoding.md R96) -/

/-- The class field a format allows: 0 in format N, a class code in format C (30_encoding.md R92, R94). -/
def classAllowed (f : Format) (cls : BitVec 3) : Prop :=
  match f with
  | .n => cls.toNat = 0
  | .c => cls.toNat ≤ 4

/-- Past the opcode row the decoder tests RSV and the class field. -/
theorem decode_eq_ok_iff {w : Word} {r : OpRow} (hr : opcodeRow (fieldOp w) = some r) (i : Instr) :
    decode w = .ok i ↔ (fieldRsv w = 0 ∧ classAllowed r.fmt (fieldCls w)) ∧ r.make (fieldCls w) = i := by
  simp only [decode, hr]
  by_cases hrsv : fieldRsv w = 0#21
  · cases r.fmt with
    | n => by_cases hcls : (fieldCls w).toNat = 0 <;> simp [hrsv, hcls, classAllowed, ← BitVec.toNat_inj]
    | c => by_cases hcls : 4 < (fieldCls w).toNat <;> simp [hrsv, hcls, classAllowed, ← Nat.not_lt]
  · simp [hrsv]

/-- A word whose OP no command has decodes to none. -/
theorem decode_unassigned {w : Word} (hr : opcodeRow (fieldOp w) = none) : decode w = .error .unassignedOpcode := by
  simp only [decode, hr]

theorem illegalWord_of_unassigned {w : Word} (hr : opcodeRow (fieldOp w) = none) : illegalWord w := by
  rw [opcodeRow_eq_none_iff, fieldOp_toNat] at hr
  exact .inl hr

/-- A word whose OP is assigned is illegal exactly when the decoder's tests of RSV and the class field refuse it. -/
theorem illegalWord_iff_of_row {w : Word} {r : OpRow} (hr : opcodeRow (fieldOp w) = some r) :
    illegalWord w ↔ ¬ (fieldRsv w = 0 ∧ classAllowed r.fmt (fieldCls w)) := by
  obtain ⟨hmem, hop⟩ := opcodeRow_some hr
  have hassigned : ¬ unassignedOp (w.toNat % 256) := by
    rw [← fieldOp_toNat, ← opcodeRow_eq_none_iff, hr]; exact Option.some_ne_none r
  have hrsv : fieldRsv w = 0 ↔ w.toNat / 2048 = 0 := by rw [← fieldRsv_toNat, BitVec.toNat_eq]; rfl
  have hfmt := row_format r hmem
  rw [hop, fieldOp_toNat] at hfmt
  change unassignedOp _ ∨ _ ↔ _
  rw [or_iff_right hassigned, hrsv]
  obtain ⟨hf, hc⟩ | ⟨hf, hc⟩ := hfmt <;> simp only [hf, classAllowed, fieldCls_toNat] <;> omega

/-- A word is a command's exactly when it is not in the list of illegal words (30_encoding.md R97). -/
theorem decode_ok_iff_not_illegalWord (w : Word) : (∃ i, decode w = .ok i) ↔ ¬ illegalWord w := by
  cases hr : opcodeRow (fieldOp w) with
  | none => simp [decode_unassigned hr, illegalWord_of_unassigned hr]
  | some r => simp [decode_eq_ok_iff hr, illegalWord_iff_of_row hr]

/-- The decoder answers well-formed commands only (30_encoding.md R94). -/
theorem wellFormed_of_decode {w : Word} {i : Instr} (h : decode w = .ok i) : i.wellFormed = true := by
  cases hr : opcodeRow (fieldOp w) with
  | none => rw [decode_unassigned hr] at h; cases h
  | some r =>
    obtain ⟨⟨-, hcls⟩, rfl⟩ := (decode_eq_ok_iff hr i).1 h
    refine wellFormed_make r (opcodeRow_some hr).1 _ fun hf => ?_
    rwa [hf] at hcls

/-- A well-formed command is read back from its word (30_encoding.md R95). -/
theorem decode_encode {i : Instr} (h : i.wellFormed = true) : decode (encode i) = .ok i := by
  cases i with
  | symcolor cls => revert cls; decide
  | wrblk cls => revert cls; decide
  | _ => rfl

/-! ### What an illegal and a legal word written to CMD do (30_encoding.md R96, R97) -/

theorem runCommand_decoded {w : Word} {i : Instr} (h : decode w = .ok i) (s : State) : runCommand w s = exec i s := by
  simp only [runCommand, h]

theorem runCommand_illegalWord {w : Word} (h : illegalWord w) (s : State) : runCommand w s = illegalCommand s := by
  cases hd : decode w with
  | error e => simp only [runCommand, hd]
  | ok i => exact absurd h ((decode_ok_iff_not_illegalWord w).1 ⟨i, hd⟩)

/-! ### The obligations -/

/-- Settles O3: the decoder refuses exactly the listed words, and each of them runs as `illegalCommand`. -/
theorem illegalWordsRaiseOrAreIgnored : Obligations.IllegalWordsRaiseOrAreIgnored := by
  intro w
  constructor
  · rw [← not_exists, decode_ok_iff_not_illegalWord, not_not]
  · intro hw s
    rw [runCommand_illegalWord hw]
    exact ⟨illegalCommand_running, illegalCommand_latched⟩

/-- Settles O4: the error gate first, then the illegal words, then the command the word decodes to. -/
theorem commandWordProcedure : Obligations.CommandWordProcedure := by
  intro w s
  refine ⟨fun he => ?latched, fun he hw => ((illegalWordsRaiseOrAreIgnored w).2 hw s).1 he, fun _ hw => ?legal⟩
  case latched =>
    split
    · rename_i hw
      exact runCommand_decoded (by rw [hw]; exact decode_encode (i := .sreset) rfl) s
    · exact runCommand_latched he ‹_›
  case legal =>
    obtain ⟨i, hi⟩ := (decode_ok_iff_not_illegalWord w).2 hw
    exact ⟨i, wellFormed_of_decode hi, (eq_encode_of_decode hi).symm, runCommand_decoded hi s⟩

/-- Settles O2: each listed command is well-formed and has the listed word, and `decode_encode` reads it back. -/
theorem commandWordsAreTheListed : Obligations.CommandWordsAreTheListed := by
  intro e he
  obtain ⟨hwf, hword⟩ : e.2.wellFormed = true ∧ encode e.2 = e.1 := by revert e; decide
  exact ⟨hword ▸ decode_encode hwf, hword⟩

/-- The word of WRBLK with each value of its class field (30_encoding.md R93). -/
theorem encode_wrblk (cls : BitVec 3) : encode (.wrblk cls) = BitVec.ofNat 32 (256 * cls.toNat + 0x22) := by
  have hword : 256 * cls.toNat + 0x22 = (encode (.wrblk cls)).toNat := (encode_toNat (.wrblk cls)).symm
  rw [hword, BitVec.ofNat_toNat, BitVec.setWidth_eq]

/-- Settles O60: every line but `wrblk c, #g` unfolds to its accesses with closed words, and that one has `encode_wrblk`. -/
theorem pseudoInstructionsExpand : Obligations.PseudoInstructionsExpand := by
  refine ⟨fun v => ⟨rfl, rfl, rfl, rfl, fun c => ?wrblk, rfl⟩, fun w h s t => ⟨rfl, rfl⟩, rfl⟩
  case wrblk => rw [← encode_wrblk]; rfl

end Sys2Proof.Machine
end

section
/-! The form of a format-N command's rule: its word, the error gate and every other word with its OP (30_encoding.md R92, R96). -/

namespace Sys2Proof.Machine

theorem fieldOp_encode (i : Instr) : fieldOp (encode i) = i.opcode := by
  refine BitVec.eq_of_toNat_eq ?_
  have hop := i.opcode.isLt
  rw [fieldOp_toNat, encode_toNat]
  omega

/-- An OP whose row is in format N has one word: every other word with that OP is illegal. -/
theorem illegalWord_of_formatN {i : Instr} (hrow : opcodeRow i.opcode = some ⟨i.opcode, .n, fun _ => i⟩) {w : Word}
    (hop : fieldOp w = i.opcode) (hw : w ≠ encode i) : illegalWord w := by
  by_contra hlegal
  obtain ⟨j, hj⟩ := (decode_ok_iff_not_illegalWord w).2 hlegal
  obtain ⟨-, rfl⟩ := (decode_eq_ok_iff (hop ▸ hrow) j).1 hj
  exact hw (eq_encode_of_decode hj)

/-- Every format-N command but SRESET keeps the rule of its format. -/
theorem formatN_of_row {i : Instr} (hrow : opcodeRow i.opcode = some ⟨i.opcode, .n, fun _ => i⟩) (hi : i ≠ .sreset) :
    formatN i (encode i) := by
  have hwf : i.wellFormed = true := wellFormed_make _ (opcodeRow_some hrow).1 0 (fun _ => by decide)
  refine ⟨rfl, decode_encode hwf, fun s he => exec_latched he hi, fun w s hop hw he => ?_⟩
  have hill := illegalWord_of_formatN hrow (hop.trans (fieldOp_encode i)) hw
  exact (runCommand_illegalWord hill s).trans (illegalCommand_running he)

end Sys2Proof.Machine
end

section
/-! BitPacker and BitUnpacker: symbols and bytes as numbers, the inverse laws, and the pair reversal that PACK and UNPACK compute
(40_bitpacker.md R120 to R128). -/

namespace Sys2Proof.Machine

/-! ### Symbols and bytes as numbers (40_bitpacker.md R121, R123) -/

theorem packSym_toNat (b : Byte) (k : Nat) : (packSym b k).toNat = b.toNat / 2 ^ (6 - 2 * k) % 4 := by
  rw [packSym, BitVec.toNat_setWidth, BitVec.toNat_ushiftRight, Nat.shiftRight_eq_div_pow]

theorem shiftedSym_toNat (s : Sym) {n : Nat} (hn : n ≤ 6) : (s.setWidth 8 <<< n).toNat = s.toNat <<< n := by
  have hbits : s.toNat <<< n < 2 ^ (2 + n) := Nat.shiftLeft_lt s.isLt
  have hbyte : 2 ^ (2 + n) ≤ 2 ^ 8 := Nat.pow_le_pow_right (by decide) (by omega)
  rw [BitVec.toNat_shiftLeft, BitVec.toNat_setWidth_of_le (by decide), Nat.mod_eq_of_lt (by omega)]

/-- The four shifted symbols share no bit, so their disjunction is their sum. -/
theorem unpack4_toNat (s₀ s₁ s₂ s₃ : Sym) :
    (unpack4 s₀ s₁ s₂ s₃).toNat = 64 * s₀.toNat + 16 * s₁.toNat + 4 * s₂.toNat + s₃.toNat := by
  have h₁ := s₁.isLt
  have h₂ := s₂.isLt
  have h₃ := s₃.isLt
  rw [unpack4, BitVec.or_assoc, BitVec.or_assoc, BitVec.toNat_or, BitVec.toNat_or, BitVec.toNat_or,
    shiftedSym_toNat s₀ (by decide), shiftedSym_toNat s₁ (by decide), shiftedSym_toNat s₂ (by decide),
    BitVec.toNat_setWidth_of_le (by decide), ← Nat.shiftLeft_add_eq_or_of_lt (i := 2) (by omega),
    ← Nat.shiftLeft_add_eq_or_of_lt (i := 4) (by omega), ← Nat.shiftLeft_add_eq_or_of_lt (i := 6) (by omega)]
  omega

/-! ### The inverse laws (40_bitpacker.md R125) -/

@[simp] theorem unpack4_packSym (b : Byte) : unpack4 (packSym b 0) (packSym b 1) (packSym b 2) (packSym b 3) = b := by
  refine BitVec.eq_of_toNat_eq ?_
  have hb := b.isLt
  simp only [unpack4_toNat, packSym_toNat]
  omega

theorem packSym_unpack4 (s₀ s₁ s₂ s₃ : Sym) : packSym (unpack4 s₀ s₁ s₂ s₃) 0 = s₀ ∧ packSym (unpack4 s₀ s₁ s₂ s₃) 1 = s₁ ∧
    packSym (unpack4 s₀ s₁ s₂ s₃) 2 = s₂ ∧ packSym (unpack4 s₀ s₁ s₂ s₃) 3 = s₃ := by
  simp only [← BitVec.toNat_inj, packSym_toNat, unpack4_toNat]
  omega

@[simp] theorem unpack_pack (bs : List Byte) : unpack (pack bs) = some bs := by
  induction bs with
  | nil => rfl
  | cons b bs ih => simp only [pack, unpack, ih, Option.map_some, unpack4_packSym]

theorem pack_injective : Function.Injective pack := fun bs cs h =>
  Option.some.inj (by rw [← unpack_pack bs, h, unpack_pack])

/-- `unpack` answers only on what `pack` makes, so what it answers is read off `pack`. -/
theorem pack_of_unpack : ∀ {ys : List Sym} {bs : List Byte}, unpack ys = some bs → pack bs = ys
  | [], _, h => by obtain rfl := Option.some.inj h; rfl
  | [_], _, h => nomatch h
  | [_, _], _, h => nomatch h
  | [_, _, _], _, h => nomatch h
  | s₀ :: s₁ :: s₂ :: s₃ :: rest, _, h => by
    obtain ⟨cs, hcs, rfl⟩ := Option.map_eq_some_iff.1 h
    simp only [pack, packSym_unpack4, pack_of_unpack hcs]

/-! ### The symbols of a byte sequence by index (40_bitpacker.md R122) -/

theorem pack_cons (b : Byte) (bs : List Byte) : pack (b :: bs) = (List.range 4).map (packSym b) ++ pack bs := rfl

@[simp] theorem pack_length (bs : List Byte) : (pack bs).length = 4 * bs.length := by
  induction bs with
  | nil => rfl
  | cons b bs ih => simp only [pack, List.length_cons, ih]; omega

theorem pack_getElem? {k : Nat} (hk : k < 4) {b : Byte} {bs : List Byte} : ∀ {i : Nat}, bs[i]? = some b →
    (pack bs)[4 * i + k]? = some (packSym b k) := by
  induction bs with
  | nil => intro i h; cases h
  | cons c bs ih =>
    intro i h
    have hlen : ((List.range 4).map (packSym c)).length = 4 := by rw [List.length_map, List.length_range]
    rw [pack_cons]
    cases i with
    | zero =>
      obtain rfl : c = b := Option.some.inj h
      rw [List.getElem?_append_left (by omega), Nat.mul_zero, Nat.zero_add, List.getElem?_map, List.getElem?_range hk]
      rfl
    | succ i =>
      have hidx : 4 * (i + 1) + k - 4 = 4 * i + k := by omega
      rw [List.getElem?_append_right (by omega), hlen, hidx, ih h]

/-- Four symbols of a packed sequence that stand in one group are those of the group's byte. -/
theorem getElem?_of_pack_group {bs : List Byte} {i : Nat} {s₀ s₁ s₂ s₃ : Sym} (h₀ : (pack bs)[4 * i]? = some s₀)
    (h₁ : (pack bs)[4 * i + 1]? = some s₁) (h₂ : (pack bs)[4 * i + 2]? = some s₂) (h₃ : (pack bs)[4 * i + 3]? = some s₃) :
    bs[i]? = some (unpack4 s₀ s₁ s₂ s₃) := by
  obtain ⟨hlt, -⟩ := List.getElem?_eq_some_iff.1 h₀
  rw [pack_length] at hlt
  have hb : bs[i]? = some bs[i] := List.getElem?_eq_getElem (by omega)
  have hsym {k : Nat} {s : Sym} (hk : k < 4) (h : (pack bs)[4 * i + k]? = some s) : packSym bs[i] k = s :=
    Option.some.inj ((pack_getElem? hk hb).symm.trans h)
  rw [hb, ← hsym (k := 0) (by decide) h₀, ← hsym (by decide) h₁, ← hsym (by decide) h₂, ← hsym (by decide) h₃, unpack4_packSym]

/-! ### The pair reversal (40_bitpacker.md R128) -/

/-- A byte with its four bit pairs in reverse order. -/
def reversePairs (b : Byte) : Byte := unpack4 (lane b 0) (lane b 1) (lane b 2) (lane b 3)

/-- Lanes count the bit pairs from the other end (40_bitpacker.md R120, R121). -/
theorem lane_eq_packSym (b : Byte) {k : Nat} (hk : k < 4) : lane b k = packSym b (3 - k) := by
  have hshift : 2 * k = 6 - 2 * (3 - k) := by omega
  rw [lane, packSym, hshift]

theorem packSym_reversePairs (b : Byte) {k : Nat} (hk : k < 4) : packSym (reversePairs b) k = lane b k := by
  obtain ⟨h₀, h₁, h₂, h₃⟩ := packSym_unpack4 (lane b 0) (lane b 1) (lane b 2) (lane b 3)
  match k, hk with
  | 0, _ => exact h₀
  | 1, _ => exact h₁
  | 2, _ => exact h₂
  | 3, _ => exact h₃

theorem lane_reversePairs (b : Byte) {k : Nat} (hk : k < 4) : lane (reversePairs b) k = packSym b k := by
  have hsym : 3 - (3 - k) = k := by omega
  rw [lane_eq_packSym _ hk, packSym_reversePairs b (by omega), lane_eq_packSym b (by omega), hsym]

@[simp] theorem reversePairs_reversePairs (b : Byte) : reversePairs (reversePairs b) = b := by
  rw [reversePairs]
  simp only [lane_reversePairs, Nat.reduceLT, unpack4_packSym]

/-! ### What the two commands write to RESULT (40_bitpacker.md R126, R127) -/

/-- The word PACK and UNPACK write: the reversed byte, zero-extended. -/
def reversedArg (s : State) : Word := (reversePairs (argByte s)).setWidth 32

/-- Four lanes from the last symbol down are the same shifts as a byte from its first symbol on. -/
theorem exec_pack_eq_exec_unpack (s : State) : exec .pack s = exec .unpack s := rfl

theorem exec_unpack_running {s : State} (he : s.status.err = false) :
    exec .unpack s = .next { s with result := reversedArg s } := unlessError_running he _

theorem exec_pack_running {s : State} (he : s.status.err = false) :
    exec .pack s = .next { s with result := reversedArg s } :=
  (exec_pack_eq_exec_unpack s).trans (exec_unpack_running he)

theorem reversedArg_upper (s : State) : (reversedArg s).extractLsb' 8 24 = 0 := by
  have hb := (reversePairs (argByte s)).isLt
  refine BitVec.eq_of_toNat_eq ?_
  rw [BitVec.extractLsb'_toNat, reversedArg, BitVec.toNat_setWidth_of_le (by decide), Nat.shiftRight_eq_div_pow,
    Nat.div_eq_of_lt hb]
  rfl

/-- A symbol of a byte is the same bit pair of the zero-extended byte. -/
theorem packSym_eq_extractLsb' (b : Byte) (k : Nat) : packSym b k = (b.setWidth 32).extractLsb' (6 - 2 * k) 2 := by
  rw [BitVec.extractLsb'_setWidth_of_le (by omega)]
  rfl

theorem lane_argByte (s : State) {k : Nat} (hk : k < 4) : lane (argByte s) k = s.arg.extractLsb' (2 * k) 2 := by
  have hlane : 2 * k + 2 ≤ 8 := by omega
  rw [argByte, ← BitVec.setWidth_eq_extractLsb' (by decide), ← BitVec.extractLsb'_setWidth_of_le hlane]
  rfl

theorem reversedArg_pair (s : State) {k : Nat} (hk : k < 4) :
    (reversedArg s).extractLsb' (6 - 2 * k) 2 = s.arg.extractLsb' (2 * k) 2 := by
  rw [reversedArg, ← packSym_eq_extractLsb', packSym_reversePairs _ hk, lane_argByte s hk]

theorem reversedArg_lane (s : State) {k : Nat} (hk : k < 4) :
    (reversedArg s).extractLsb' (2 * k) 2 = s.arg.extractLsb' (6 - 2 * k) 2 := by
  have h := reversedArg_pair s (k := 3 - k) (by omega)
  have hlane : 6 - 2 * (3 - k) = 2 * k := by omega
  have hpair : 2 * (3 - k) = 6 - 2 * k := by omega
  rwa [hlane, hpair] at h

/-- The second command gives ARG[7:0] back. -/
theorem reversedArg_reversedArg (s : State) : reversedArg { s with arg := reversedArg s } = (argByte s).setWidth 32 := by
  have hbyte : argByte { s with arg := reversedArg s } = reversePairs (argByte s) := by
    rw [argByte, reversedArg, BitVec.extractLsb'_setWidth_of_le (by decide), BitVec.extractLsb'_eq_self]
  rw [reversedArg, hbyte, reversePairs_reversePairs]

/-! ### The obligations -/

/-- Settles O12: both inverse laws on numbers, lifted to byte sequences by `unpack_pack`. -/
theorem packAndUnpackAreInverse : Obligations.PackAndUnpackAreInverse :=
  ⟨unpack4_packSym, packSym_unpack4, unpack_pack, fun _ _ h => pack_injective h⟩

/-- Settles O13: the shift as a division, and an induction on the bytes for the index. -/
theorem packIndexesSymbols : Obligations.PackIndexesSymbols :=
  ⟨fun b k _ => packSym_toNat b k, fun bs => ⟨pack_length bs, fun _ _ _ hk hb => pack_getElem? hk hb⟩⟩

/-- Settles O14: what `unpack` answers packs to its input, so its length and its bytes are those `pack` indexes. -/
theorem unpackIndexesBytes : Obligations.UnpackIndexesBytes := by
  refine ⟨unpack4_toNat, fun ys => ⟨⟨fun ⟨bs, h⟩ => ?whole, fun h => ?answers⟩, fun bs h => ?bytes⟩⟩
  case whole => rw [← pack_of_unpack h, pack_length]; omega
  case answers =>
    obtain ⟨bs, hbs, -⟩ := unpack_isSome ys h
    exact ⟨bs, hbs⟩
  case bytes =>
    obtain rfl := pack_of_unpack h
    exact ⟨by rw [pack_length]; omega, fun _ _ _ _ _ => getElem?_of_pack_group⟩

/-- Settles O15: both commands write `reversedArg`, and the pair reversal is its own inverse. -/
theorem packAndUnpackCommandsAgree : Obligations.PackAndUnpackCommandsAgree := fun s he =>
  ⟨exec_pack_eq_exec_unpack s, reversedArg s, _, exec_pack_running he, fun _ hk => reversedArg_lane s hk,
    exec_unpack_running he, exec_pack_running he, reversedArg_reversedArg s⟩

/-- Settles O10: lane k of the reversed byte is bit pair k of ARG[7:0]. -/
theorem packWritesLanes : Obligations.PackWritesLanes :=
  ⟨formatN_of_row rfl (by decide), fun s he =>
    ⟨_, exec_pack_running he, reversedArg_upper s, fun _ hk => reversedArg_lane s hk⟩⟩

/-- Settles O11: bit pair k of the reversed byte is lane k of ARG[7:0]. -/
theorem unpackWritesByte : Obligations.UnpackWritesByte :=
  ⟨formatN_of_row rfl (by decide), fun s he =>
    ⟨_, exec_unpack_running he, reversedArg_upper s, fun _ hk => reversedArg_pair s hk⟩⟩

end Sys2Proof.Machine
end

section
/-! The five classes: the colour table, the classifier on naturals, and the commands that need no geometry
(41_framecodec.md R140 to R144, R155, R157, R158). -/

namespace Sys2Proof.Machine

/-! ### The form of a format-C command's rule (30_encoding.md R93, R94, R96) -/

/-- With an OP in format C a word from class field 5 on is illegal. -/
theorem illegalWord_of_formatC {op : Byte} {make : BitVec 3 → Instr} (hrow : opcodeRow op = some ⟨op, .c, make⟩) {w : Word}
    (hop : fieldOp w = op) (hw : 256 * 5 ≤ w.toNat) : illegalWord w := by
  have hrsv : fieldRsv w = 0 ↔ w.toNat / 2048 = 0 := by rw [← fieldRsv_toNat, BitVec.toNat_eq]; rfl
  rw [illegalWord_iff_of_row (hop ▸ hrow), hrsv]
  simp only [classAllowed, fieldCls_toNat]
  omega

/-- A format-C command keeps the rule of its format when its meaning raises ILLEGAL_COMMAND on the class fields 5 to 7. -/
theorem formatC_of_row {op : Byte} {make : BitVec 3 → Instr} (hrow : opcodeRow op = some ⟨op, .c, make⟩)
    (hcode : ∀ cls, (make cls).opcode = op ∧ (make cls).classField = cls) (hreset : ∀ cls, make cls ≠ .sreset)
    (hill : ∀ (cls : BitVec 3) (s : State), 4 < cls.toNat → s.status.err = false →
      exec (make cls) s = .next (raise .illegalCommand s)) : formatC make op.toNat := by
  refine ⟨fun cls hcls => ⟨?_, decode_encode ?_⟩, fun cls s he => exec_latched he (hreset cls), fun w s hop hw he => ?_, hill⟩
  · rw [encode_toNat, (hcode cls).1, (hcode cls).2]
  · exact wellFormed_make _ (opcodeRow_some hrow).1 cls fun _ => hcls
  · have hword : illegalWord w := illegalWord_of_formatC hrow (BitVec.eq_of_toNat_eq ((fieldOp_toNat w).trans hop)) hw
    exact (runCommand_illegalWord hword s).trans (illegalCommand_running he)

theorem exec_symcolor_illegal {cls : BitVec 3} {s : State} (hcls : 4 < cls.toNat) (he : s.status.err = false) :
    exec (.symcolor cls) s = .next (raise .illegalCommand s) := by
  rw [exec, execSymcolor, unlessError_running he, withClass_illegal (classOfCode_eq_none hcls), illegalCommand_running he]

theorem exec_wrblk_illegal {cls : BitVec 3} {s : State} (hcls : 4 < cls.toNat) (he : s.status.err = false) :
    exec (.wrblk cls) s = .next (raise .illegalCommand s) := by
  rw [exec, execWrblk, wrblk, unlessError_running he, withClass_illegal (classOfCode_eq_none hcls), illegalCommand_running he]

/-! ### Codes and colours (41_framecodec.md R140 to R142) -/

@[simp] theorem classOfCode_classCode (c : Machine.Class) : classOfCode (classCode c) = some c := by cases c <;> rfl

theorem classCode_injective : Function.Injective classCode := fun c d h =>
  Option.some.inj (by rw [← classOfCode_classCode c, h, classOfCode_classCode])

/-- A row of the colour table is the code and the colour of a class. -/
theorem mem_colourTable {e : BitVec 3 × Word} (h : e ∈ colourTable) : ∃ c, e = (classCode c, colourWord c) := by
  simp only [colourTable, List.mem_cons, List.not_mem_nil, or_false] at h
  obtain rfl | rfl | rfl | rfl | rfl := h
  exacts [⟨.black, rfl⟩, ⟨.red, rfl⟩, ⟨.green, rfl⟩, ⟨.blue, rfl⟩, ⟨.sentinel, rfl⟩]

/-! ### The classifier (41_framecodec.md R143, R144) -/

theorem classCode_classify (t r g b : Byte) :
    (classCode (classify t r g b)).toNat = classNumber t.toNat r.toNat g.toNat b.toNat := by
  simp only [classify, classNumber, channelOn, Bool.and_eq_true, decide_eq_true_eq, and_assoc]
  split_ifs <;> rfl

theorem redOf_toNat (w : Word) : (redOf w).toNat = w.toNat % 256 := by
  rw [redOf, BitVec.extractLsb'_toNat, Nat.shiftRight_zero]

theorem greenOf_toNat (w : Word) : (greenOf w).toNat = w.toNat / 256 % 256 := by
  rw [greenOf, BitVec.extractLsb'_toNat, Nat.shiftRight_eq_div_pow]

theorem blueOf_toNat (w : Word) : (blueOf w).toNat = w.toNat / 65536 % 256 := by
  rw [blueOf, BitVec.extractLsb'_toNat, Nat.shiftRight_eq_div_pow]

/-- Up to the threshold 254 a channel of 255 is on and one of 0 is off, so every colour has its own class (R155). -/
theorem classifyWord_colourWord {t : Byte} (ht : t.toNat ≤ 254) (c : Machine.Class) : classifyWord t (colourWord c) = c := by
  have hon : channelOn t 255#8 = true := decide_eq_true (Nat.lt_succ_of_le ht)
  have hoff : channelOn t 0#8 = false := decide_eq_false (Nat.not_lt_zero _)
  cases c <;> simp [classifyWord, classify, colourWord, hon, hoff]

/-! ### The obligations -/

/-- Settles O16: past its gate and its class operand SYMCOLOR writes the row's colour. -/
theorem symcolorWritesColour : Obligations.SymcolorWritesColour := by
  refine ⟨formatC_of_row (op := 0x20) rfl (fun _ => ⟨rfl, rfl⟩) (fun _ => by simp) fun _ _ => exec_symcolor_illegal,
    fun s he e hmem => ?_⟩
  obtain ⟨c, rfl⟩ := mem_colourTable hmem
  rw [exec, execSymcolor, unlessError_running he, withClass_legal (classOfCode_classCode c), writeResult_eq]

/-- Settles O17: the class code is `classNumber` of the three channels of ARG. -/
theorem classifyAppliesThreshold : Obligations.ClassifyAppliesThreshold := by
  refine ⟨formatN_of_row rfl (by decide), fun s he => ?_⟩
  rw [exec, execClassify, unlessError_running he, writeResult_eq, ← BitVec.ofNat_toNat, classifyWord, classCode_classify,
    redOf_toNat, greenOf_toNat, blueOf_toNat]

/-- Settles O18: `classifyWord_colourWord` for each class, read off the rows of the table. -/
theorem classificationInvertsColours : Obligations.ClassificationInvertsColours := by
  intro t ht
  refine ⟨classifyWord_colourWord ht, fun e hmem => ?_⟩
  obtain ⟨c, rfl⟩ := mem_colourTable hmem
  rw [classifyWord_colourWord ht]

end Sys2Proof.Machine
end

section
/-! One block: its footprint and sample pixel by their formulas, and the commands WRBLK and RDBLK
(41_framecodec.md R145 to R149, R159, R160). -/

namespace Sys2Proof.Machine

/-! ### Pixel bytes -/

/-- Byte `j` of a stored word is byte `j` of the word (20_memory.md R68). -/
theorem leBytes_word_getElem? (w : Word) {j : Nat} (hj : j < 4) : (leBytes 4 w.toNat)[j]? = some (byteOf w j) := by
  have hbyte : byteOf w j = BitVec.ofNat 8 (w.toNat / 2 ^ (8 * j)) := by
    refine BitVec.eq_of_toNat_eq ?_
    rw [byteOf, BitVec.extractLsb'_toNat, Nat.shiftRight_eq_div_pow, BitVec.toNat_ofNat]
  rw [hbyte]
  match j, hj with
  | 0, _ => simp [leBytes]
  | 1, _ => simp [leBytes]
  | 2, _ => simp [leBytes, Nat.div_div_eq_div_mul]
  | 3, _ => simp [leBytes, Nat.div_div_eq_div_mul]

/-- The class code of four bytes read as a pixel: its first three bytes are the channels, and the fourth is not looked at. -/
theorem classCode_classifyWord_leValue (t : Byte) {bs : List Byte} (h : bs.length = 4) :
    (classCode (classifyWord t (BitVec.ofNat 32 (leValue bs)))).toNat =
      classNumber t.toNat (bs.getD 0 0).toNat (bs.getD 1 0).toNat (bs.getD 2 0).toNat := by
  match bs, h with
  | [r, g, b, al], _ =>
    rw [← rgbaWord_toNat, BitVec.ofNat_toNat, BitVec.setWidth_eq, classifyWord, redOf_rgbaWord, greenOf_rgbaWord,
      blueOf_rgbaWord, classCode_classify]
    rfl

/-- The bytes of the pixel that sampleClass reads from block `g` when `d` free bytes have been drawn (41_framecodec.md R149). -/
def pixelRead (s : State) (g d : Nat) : List Byte × Nat := s.rast.readBytes (sampleAddress s g) 4 d

/-- A written byte of the sample pixel is read as written, whatever is drawn for the others. -/
theorem pixelRead_written {s : State} {g j : Nat} {b : Byte} (d : Nat) (hj : j < 4)
    (h : s.rast.read? (sampleAddress s g + j) = some b) : (pixelRead s g d).1.getD j 0 = b := by
  rw [List.getD_eq_getElem?_getD, pixelRead, readBytes_written s.rast 4 hj h, Option.getD_some]

/-! ### The sample pixel is all that is read -/

/-- A raster that agrees on the sample pixel gives sampleClass the same class and the same draws. -/
theorem sampleClass_congr {p : Params} {s : State} {g : Nat} {n : Memory}
    (h : ∀ j, j < 4 → n.read? (sampleAddress s g + j) = s.rast.read? (sampleAddress s g + j)) :
    sampleClass p g { s with rast := n } =
      (sampleClass p g s).map fun r => (r.1, { r.2 with rast := n }) := by
  have hread : memRead p .rast (sampleAddress s g) 4 { s with rast := n } =
      (memRead p .rast (sampleAddress s g) 4 s).map fun r => (r.1, { r.2 with rast := n }) := by
    simp only [memRead, mem_rast, readBytes_congr 4 h]
    split <;> rfl
  have haddr : sampleAddress { s with rast := n } g = sampleAddress s g := rfl
  rw [sampleClass, sampleClass, haddr, hread]
  cases hr : memRead p .rast (sampleAddress s g) 4 s with
  | error f => rfl
  | ok r =>
    obtain ⟨-, rfl⟩ := memRead_cases hr
    rfl

/-! ### The obligations -/

/-- Settles O21: `pixel_covered`, `footprint_disjoint` and the bounds `x_lt`, `y_lt` of a block's pixels. -/
theorem footprintsPartitionRaster : Obligations.FootprintsPartitionRaster := by
  intro s hs
  refine ⟨hs.width_eq, hs.height_eq, fun g a => ?formula, fun x y hx hy => ?cover, fun g hg a ha => ?inside⟩
  case formula =>
    rw [mem_footprint]
    exact ⟨fun ⟨dy, dx, hdy, hdx, ha⟩ => ⟨dx, dy, hdx, hdy, ha⟩, fun ⟨dx, dy, hdx, hdy, ha⟩ => ⟨dy, dx, hdy, hdx, ha⟩⟩
  case cover => exact ⟨_, pixel_covered hs hx hy, fun g hg => footprint_disjoint hs hg.2 (pixel_covered hs hx hy).2⟩
  case inside =>
    obtain ⟨dy, dx, hdy, hdx, rfl⟩ := mem_footprint.1 ha
    exact ⟨_, _, hs.x_lt g hdx, hs.y_lt hg hdy, rfl⟩

/-- Settles O22: the address is the centre's by definition, and `sampleClass_congr` reads no other byte. -/
theorem sampleIsBlockCentre : Obligations.SampleIsBlockCentre := by
  refine fun s g hb => ⟨rfl, sample_mem_footprint hb g, fun n c t hn h => ?_⟩
  rw [sampleClass_congr hn, h]
  rfl

/-- Settles O19: the checks in order, then the writes of `fillBlock`, read back inside and outside the footprint. -/
theorem wrblkFillsFootprint : Obligations.WrblkFillsFootprint := by
  refine ⟨formatC_of_row (op := 0x22) rfl (fun _ => ⟨rfl, rfl⟩) (fun _ => by simp) fun _ _ => exec_wrblk_illegal,
    fun s he e hmem => ?_⟩
  obtain ⟨c, rfl⟩ := mem_colourTable hmem
  rw [exec, execWrblk, wrblk, unlessError_running he, withClass_legal (classOfCode_classCode c)]
  refine ⟨fun hv => withBlock_unconfigured hv _, fun hv hg => withBlock_range hv hg _,
    fun hv hg hs => ⟨_, by rw [withBlock_ok hv hg, fillBlock_ok hs hg, orFault_ok], fun a ha j hj => ?_,
      fun x hx => writeWords_outside _ _ hx⟩⟩
  rw [writeWords_inside_read _ _ (fun _ => footprint_mod) ha hj, leBytes_word_getElem? _ hj]

/-- Settles O20: the checks in order, then one read of the sample pixel. -/
theorem rdblkClassifiesSample : Obligations.RdblkClassifiesSample := by
  refine ⟨formatN_of_row rfl (by decide), fun s he => ?_⟩
  rw [exec, execRdblk, rdblk, unlessError_running he]
  refine ⟨fun hv => withBlock_unconfigured hv _, fun hv hg => withBlock_range hv hg _, fun hv hg hs =>
    ⟨fun j => (pixelRead s s.arg.toNat s.draws).1.getD j 0, (pixelRead s s.arg.toNat s.draws).2, ?_,
      fun j b hj hb => pixelRead_written _ hj hb, fun hw => readBytes_written_draws _ 4 hw⟩⟩
  rw [withBlock_ok hv hg, sampleClass_ok hs hg, orFault_ok, writeResult_eq, ← BitVec.ofNat_toNat,
    classCode_classifyWord_leValue _ (readBytes_length ..)]
  rfl

end Sys2Proof.Machine
end

section
/-! Encoding a raster: the class of every block, and what the encoded raster depends on (41_framecodec.md R150 to R152). -/

namespace Sys2Proof.Machine

/-! ### The class of a block (41_framecodec.md R150) -/

theorem symOfClass_classOfSym : ∀ y : Sym, symOfClass (classOfSym y) = some y := by decide

/-- The class that carries a symbol has the symbol's number as its code (41_framecodec.md R140). -/
theorem classCode_of_symOfClass {c : Machine.Class} {y : Sym} (h : symOfClass c = some y) :
    (classCode c).toNat = y.toNat := by
  cases c with
  | sentinel => cases h
  | black | red | green | blue => obtain rfl := Option.some.inj h; rfl

theorem encClass_data {chunk : List Byte} {g : Nat} {b : Byte} (h : chunk[g / 4]? = some b) :
    encClass chunk g = classOfSym (packSym b (g % 4)) := by rw [encClass, h]

theorem encClass_beyond {chunk : List Byte} {g : Nat} (h : chunk.length ≤ g / 4) : encClass chunk g = .sentinel := by
  rw [encClass, List.getElem?_eq_none h]

theorem classCode_encClass (chunk : List Byte) (g : Nat) : (classCode (encClass chunk g)).toNat = blockClassNumber chunk g := by
  by_cases hg : g / 4 < chunk.length
  · have hb : chunk[g / 4]? = some chunk[g / 4] := List.getElem?_eq_getElem hg
    have hexp : 2 ^ (6 - 2 * (g % 4)) = 4 ^ (3 - g % 4) := by
      rw [show 6 - 2 * (g % 4) = 2 * (3 - g % 4) by omega, Nat.pow_mul]
    rw [encClass_data hb, classCode_of_symOfClass (symOfClass_classOfSym _), packSym_toNat, hexp, blockClassNumber, if_pos hg,
      List.getD_eq_getElem?_getD, hb, Option.getD_some]
  · rw [encClass_beyond (Nat.not_lt.1 hg), blockClassNumber, if_neg hg]
    rfl

/-! ### The encoded raster -/

/-- Footprints depend on WIDTH, BSIZE and GRIDW alone (41_framecodec.md R145, R146). -/
theorem footprint_congr {s t : State} (hw : s.width = t.width) (hb : s.bsize = t.bsize) (hgw : s.gridw.toNat = t.gridw.toNat)
    (g : Nat) : footprint s g = footprint t g := by
  simp only [footprint, pixelAddress, blockColumn, blockRow, hw, hb, hgw]

/-- On valid geometries of one WIDTH and one BSIZE the grids have one width (10_state.md R37). -/
theorem State.GeometryValid.gridw_congr {p q : Params} {s t : State} (hs : s.GeometryValid p) (ht : t.GeometryValid q)
    (hw : s.width = t.width) (hb : s.bsize = t.bsize) : s.gridw.toNat = t.gridw.toNat := by
  rw [hs.gridw_eq, ht.gridw_eq, hw, hb]

/-- On valid geometries of one WIDTH, HEIGHT and BSIZE the grids have one size (10_state.md R37). -/
theorem State.GeometryValid.grid_congr {p q : Params} {s t : State} (hs : s.GeometryValid p) (ht : t.GeometryValid q)
    (hw : s.width = t.width) (hh : s.height = t.height) (hb : s.bsize = t.bsize) : s.grid.toNat = t.grid.toNat := by
  rw [hs.grid_eq, ht.grid_eq, hs.gridw_congr ht hw hb, hs.gridh_eq, ht.gridh_eq, hh, hb]

/-- What encodeRaster answers on a valid geometry. -/
theorem encodeRaster_eq {p : Params} {s t : State} {chunk : List Byte} (hs : s.GeometryValid p)
    (h : encodeRaster p chunk s = .ok t) :
    t = { s with rast := Memory.writeBlocks s chunk (List.range s.grid.toNat) s.rast } :=
  (Except.ok.inj ((encodeRaster_ok hs chunk).symm.trans h)).symm

/-- Every pixel of every block of the grid holds the colour of the block's class (41_framecodec.md R151). -/
theorem encoded_pixel {p : Params} {s : State} (hs : s.GeometryValid p) (chunk : List Byte) (m : Memory) {g a j : Nat}
    (hg : g < s.grid.toNat) (ha : a ∈ footprint s g) (hj : j < 4) :
    (Memory.writeBlocks s chunk (List.range s.grid.toNat) m).read? (a + j) = some (byteOf (colourWord (encClass chunk g)) j) := by
  rw [writeBlocks_read hs chunk _ (List.mem_range.2 hg) ha hj, leBytes_word_getElem? _ hj]

/-- A byte beyond the raster lies outside every footprint of the grid (41_framecodec.md R161). -/
theorem beyond_footprints {p : Params} {s : State} (hs : s.GeometryValid p) {x : Nat} (hx : 4 * pixels s ≤ x) {g : Nat}
    (hg : g < s.grid.toNat) : ∀ a ∈ footprint s g, x < a ∨ a + 4 ≤ x :=
  fun _ ha => .inr (le_trans (footprint_lt hs hg ha) hx)

theorem encoded_beyond {p : Params} {s : State} (hs : s.GeometryValid p) (chunk : List Byte) (m : Memory) {x : Nat}
    (hx : 4 * pixels s ≤ x) : (Memory.writeBlocks s chunk (List.range s.grid.toNat) m).read? x = m.read? x :=
  writeBlocks_outside s chunk _ fun _ hg => beyond_footprints hs hx (List.mem_range.1 hg)

/-! ### The obligations -/

/-- Settles O23: inside the grid by `encoded_pixel`, whose class has the code `blockClassNumber`; beyond by `encoded_beyond`. -/
theorem encodeRasterWritesEveryBlock : Obligations.EncodeRasterWritesEveryBlock := by
  refine fun s chunk hs _ => ⟨_, encodeRaster_ok hs chunk, fun g hg a ha e hmem he j hj => ?_,
    fun x hx => encoded_beyond hs chunk _ hx⟩
  obtain ⟨c, rfl⟩ := mem_colourTable hmem
  have hc : c = encClass chunk g := classCode_injective (BitVec.eq_of_toNat_eq (he.trans (classCode_encClass chunk g).symm))
  rw [encoded_pixel hs chunk _ hg ha hj, hc]

/-- Settles O24: each byte of the raster belongs to a pixel of a block, which is the same block of the other grid. -/
theorem encodingIsDeterministic : Obligations.EncodingIsDeterministic := by
  intro s t s' t' chunk hs ht hw hb hgrid hs' ht' a ha
  obtain ⟨x, y, hx, hy, hxy⟩ := address_is_pixel ha
  obtain ⟨hg, hmem⟩ := pixel_covered hs hx hy
  have hmem' : pixelAddress s x y ∈ footprint t (blockAt s x y) :=
    footprint_congr hw hb (hs.gridw_congr ht hw hb) _ ▸ hmem
  have hj : a % 4 < 4 := Nat.mod_lt _ (by decide)
  have haddr : a = pixelAddress s x y + a % 4 := by omega
  rw [encodeRaster_eq hs hs', encodeRaster_eq ht ht', haddr, encoded_pixel hs chunk _ hg hmem hj,
    encoded_pixel ht chunk _ (hgrid ▸ hg) hmem' hj]

end Sys2Proof.Machine
end

section
/-! Decoding a raster: the class every block is sampled as, the first Sentinel, and the round trip
(41_framecodec.md R149, R153, R154, R156). -/

namespace Sys2Proof.Machine

/-! ### What is sampled from each block when all before it have been sampled -/

/-- The count of draws when blocks 0 to `g - 1` have been sampled (log 2). -/
def drawsBefore (s : State) : Nat → Nat
  | 0 => s.draws
  | g + 1 => (pixelRead s g (drawsBefore s g)).2

/-- The bytes sampled from block `g`. -/
def sampledBytes (s : State) (g : Nat) : List Byte := (pixelRead s g (drawsBefore s g)).1

/-- The class of block `g` as sampled (41_framecodec.md R149). -/
def sampledClass (s : State) (g : Nat) : Machine.Class := classifyWord s.thresh (BitVec.ofNat 32 (leValue (sampledBytes s g)))

/-- The data symbol of block `g`; 0 for a Sentinel, which has none. -/
def sampledSym (s : State) (g : Nat) : Sym := (symOfClass (sampledClass s g)).getD 0

/-- In the order of decodeRaster, sampleClass answers `sampledClass`. -/
theorem sampleClass_eq_sampledClass {p : Params} {s : State} (hs : s.GeometryValid p) {g : Nat} (hg : g < s.grid.toNat) :
    sampleClass p g { s with draws := drawsBefore s g } = .ok (sampledClass s g, { s with draws := drawsBefore s (g + 1) }) :=
  sampleClass_ok (s := { s with draws := drawsBefore s g }) (GeometryValid_congr hs rfl rfl rfl rfl rfl rfl rfl rfl) hg

theorem classCode_sampledClass (s : State) (g : Nat) : (classCode (sampledClass s g)).toNat =
    classNumber s.thresh.toNat ((sampledBytes s g).getD 0 0).toNat ((sampledBytes s g).getD 1 0).toNat
      ((sampledBytes s g).getD 2 0).toNat :=
  classCode_classifyWord_leValue _ (readBytes_length ..)

theorem classCode_eq_four_iff {c : Machine.Class} : (classCode c).toNat = 4 ↔ c = .sentinel := by
  cases c <;> decide

theorem symOfClass_of_ne_sentinel {c : Machine.Class} (h : c ≠ .sentinel) : ∃ y, symOfClass c = some y := by
  cases c with
  | sentinel => exact absurd rfl h
  | black | red | green | blue => exact ⟨_, rfl⟩

theorem symOfClass_sampledClass {s : State} {g : Nat} (h : sampledClass s g ≠ .sentinel) :
    symOfClass (sampledClass s g) = some (sampledSym s g) := by
  obtain ⟨y, hy⟩ := symOfClass_of_ne_sentinel h
  rw [sampledSym, hy, Option.getD_some]

theorem classCode_of_data {s : State} {g : Nat} (h : sampledClass s g ≠ .sentinel) :
    (classCode (sampledClass s g)).toNat = (sampledSym s g).toNat := classCode_of_symOfClass (symOfClass_sampledClass h)

/-- Blocks whose sample pixels are written use no draw. -/
theorem drawsBefore_written {s : State} : ∀ {n : Nat},
    (∀ g, g < n → ∀ j, j < 4 → s.rast.read? (sampleAddress s g + j) ≠ none) → drawsBefore s n = s.draws
  | 0, _ => rfl
  | n + 1, h =>
    (readBytes_written_draws _ 4 (h n (Nat.lt_succ_self n))).trans (drawsBefore_written fun g hg => h g (Nat.lt_succ_of_lt hg))

/-! ### Up to the first Sentinel (41_framecodec.md R153) -/

/-- The data blocks that decodeRaster reads are the first `n`: a Sentinel follows them, or the grid ends. -/
structure State.DataBlocks (s : State) (n : Nat) : Prop where
  le_grid : n ≤ s.grid.toNat
  data    : ∀ g, g < n → sampledClass s g ≠ .sentinel
  stop    : n < s.grid.toNat → sampledClass s n = .sentinel

theorem exists_dataBlocks (s : State) : ∃ n, s.DataBlocks n := by
  by_cases h : ∃ g, g < s.grid.toNat ∧ sampledClass s g = .sentinel
  case pos =>
    obtain ⟨hlt, hsent⟩ := Nat.find_spec h
    exact ⟨Nat.find h, hlt.le, fun g hg hc => Nat.find_min h hg ⟨hg.trans hlt, hc⟩, fun _ => hsent⟩
  case neg => exact ⟨s.grid.toNat, le_refl _, fun g hg hc => h ⟨g, hg, hc⟩, fun hlt => absurd hlt (lt_irrefl _)⟩

theorem State.DataBlocks.unique {s : State} {m n : Nat} (hm : s.DataBlocks m) (hn : s.DataBlocks n) : m = n := by
  rcases Nat.lt_trichotomy m n with h | h | h
  · exact absurd (hm.stop (lt_of_lt_of_le h hn.le_grid)) (hn.data m h)
  · exact h
  · exact absurd (hn.stop (lt_of_lt_of_le h hm.le_grid)) (hm.data n h)

/-- Over data blocks the reads collect one symbol per block and go on. -/
theorem readSymbols_data {p : Params} {s : State} (hs : s.GeometryValid p) (gs : List Nat) : ∀ {n k : Nat},
    k + n ≤ s.grid.toNat → (∀ g, g < k + n → sampledClass s g ≠ .sentinel) →
    readSymbols p (List.range' k n ++ gs) { s with draws := drawsBefore s k } =
      (readSymbols p gs { s with draws := drawsBefore s (k + n) }).map
        fun r => ((List.range' k n).map (sampledSym s) ++ r.1, r.2)
  | 0, k, _, _ => by
    change readSymbols p gs _ = Except.map id _
    rw [Except.map_id]
    rfl
  | n + 1, k, hgrid, hdata => by
    have hsucc : k + 1 + n = k + (n + 1) := by omega
    rw [List.range'_succ, List.cons_append, readSymbols, sampleClass_eq_sampledClass hs (by omega)]
    simp only [symOfClass_sampledClass (hdata k (by omega))]
    rw [readSymbols_data hs gs (hsucc ▸ hgrid) (hsucc ▸ hdata), hsucc]
    cases readSymbols p gs { s with draws := drawsBefore s (k + (n + 1)) } <;> rfl

/-- The reads of a whole raster: the symbols of the data blocks, and one Sentinel more if one follows them. -/
theorem readSymbols_grid {p : Params} {s : State} (hs : s.GeometryValid p) {n : Nat} (hn : s.DataBlocks n) :
    readSymbols p (List.range s.grid.toNat) s = .ok ((List.range n).map (sampledSym s), decide (n < s.grid.toNat),
      { s with draws := drawsBefore s (min (n + 1) s.grid.toNat) }) := by
  obtain ⟨m, hm⟩ := Nat.exists_eq_add_of_le hn.le_grid
  have hrange : List.range s.grid.toNat = List.range' 0 n ++ List.range' n m := by
    rw [hm, List.range_eq_range', ← List.range'_append_1, Nat.zero_add]
  have hread := readSymbols_data hs (List.range' n m) (k := 0) (n := n) (by omega) (by simpa using hn.data)
  rw [Nat.zero_add, ← hrange] at hread
  refine Eq.trans hread ?_
  cases m with
  | zero =>
    have hmin : min (n + 1) s.grid.toNat = n := by omega
    have hend : ¬ n < s.grid.toNat := by omega
    simp [readSymbols, Except.map, hmin, hend, List.range_eq_range']
  | succ m =>
    have hlt : n < s.grid.toNat := by omega
    rw [List.range'_succ, readSymbols, sampleClass_eq_sampledClass hs hlt, hn.stop hlt]
    simp [symOfClass, Except.map, hlt, List.range_eq_range']

/-- What decodeRaster answers: whole groups of the data blocks' symbols, unpacked (41_framecodec.md R153, R154). -/
theorem decodeRaster_eq {p : Params} {s : State} (hs : s.GeometryValid p) {n : Nat} (hn : s.DataBlocks n) :
    ∃ chunk, pack chunk = (List.range (4 * (n / 4))).map (sampledSym s) ∧
      decodeRaster p s = .ok (chunk, decide (n < s.grid.toNat), { s with draws := drawsBefore s (min (n + 1) s.grid.toNat) }) := by
  have htake : ((List.range n).map (sampledSym s)).take (4 * (n / 4)) = (List.range (4 * (n / 4))).map (sampledSym s) := by
    rw [← List.map_take, List.take_range, Nat.min_eq_left (Nat.mul_div_le n 4)]
  obtain ⟨chunk, hchunk, -⟩ := unpack_isSome ((List.range (4 * (n / 4))).map (sampledSym s))
    (by rw [List.length_map, List.length_range, Nat.mul_mod_right])
  refine ⟨chunk, pack_of_unpack hchunk, ?_⟩
  simp only [decodeRaster, readSymbols_grid hs hn, List.length_map, List.length_range, htake, hchunk]

/-- The length of the decoded chunk: a byte for each whole group of four blocks (41_framecodec.md R154). -/
theorem decoded_length {s : State} {n : Nat} {chunk : List Byte}
    (h : pack chunk = (List.range (4 * (n / 4))).map (sampledSym s)) : chunk.length = n / 4 := by
  have hlen := congrArg List.length h
  rw [pack_length, List.length_map, List.length_range] at hlen
  omega

/-- Symbol `k` of a decoded byte is the symbol of its block. -/
theorem packSym_decoded {s : State} {n : Nat} {chunk : List Byte} (h : pack chunk = (List.range n).map (sampledSym s))
    {i k : Nat} {b : Byte} (hk : k < 4) (hb : chunk[i]? = some b) :
    4 * i + k < n ∧ packSym b k = sampledSym s (4 * i + k) := by
  have hsym := pack_getElem? hk hb
  rw [h, List.getElem?_map, Option.map_eq_some_iff] at hsym
  obtain ⟨g, hg, hsym⟩ := hsym
  obtain ⟨hlt, rfl⟩ := List.getElem?_eq_some_iff.1 hg
  rw [List.length_range] at hlt
  rw [List.getElem_range] at hsym
  exact ⟨hlt, hsym.symm⟩

/-! ### The round trip (41_framecodec.md R156) -/

/-- The raster holds a word's four bytes at the sample pixel of a block. -/
def sampleHolds (s : State) (g : Nat) (w : Word) : Prop :=
  ∀ j, j < 4 → s.rast.read? (sampleAddress s g + j) = some (byteOf w j)

theorem sampledClass_of_holds {s : State} {g : Nat} {w : Word} (h : sampleHolds s g w) :
    sampledClass s g = classifyWord s.thresh w := by
  have hread : pixelRead s g (drawsBefore s g) = (leBytes 4 w.toNat, drawsBefore s g) :=
    readBytes_all_written s.rast (leBytes 4 w.toNat) fun j hj => (h j hj).trans (leBytes_word_getElem? w hj).symm
  rw [sampledClass, sampledBytes, hread, leValue_leBytes_word]

/-- The sample pixels of a raster are at the same addresses under every geometry of one WIDTH, BSIZE and GRIDW. -/
theorem sampleAddress_congr {s t : State} (hw : s.width = t.width) (hb : s.bsize = t.bsize)
    (hgw : s.gridw.toNat = t.gridw.toNat) (g : Nat) : sampleAddress s g = sampleAddress t g := by
  simp only [sampleAddress, pixelAddress, blockColumn, blockRow, hw, hb, hgw]

/-- The symbols of a chunk are those of its data blocks (41_framecodec.md R150; 40_bitpacker.md R122). -/
theorem pack_eq_map_range {chunk : List Byte} {f : Nat → Sym}
    (h : ∀ g, g < 4 * chunk.length → symOfClass (encClass chunk g) = some (f g)) :
    pack chunk = (List.range (4 * chunk.length)).map f := by
  refine List.ext_getElem? fun g => ?_
  by_cases hg : g < 4 * chunk.length
  · have hb : chunk[g / 4]? = some chunk[g / 4] := List.getElem?_eq_getElem (by omega)
    have hsym := h g hg
    rw [encClass_data hb, symOfClass_classOfSym] at hsym
    have hpack := pack_getElem? (Nat.mod_lt g (by decide : 4 > 0)) hb
    rw [Nat.div_add_mod] at hpack
    rw [hpack, List.getElem?_map, List.getElem?_range hg, Option.map_some, hsym]
  · rw [List.getElem?_eq_none (by rw [pack_length]; omega),
      List.getElem?_eq_none (by rw [List.length_map, List.length_range]; omega)]

/-- A raster whose sample pixels hold the colours of a chunk's classes decodes to the chunk. -/
theorem decodeRaster_of_encoded {p : Params} {u : State} {chunk : List Byte} (hu : u.GeometryValid p)
    (hcap : chunk.length ≤ u.cap.toNat)
    (hold : ∀ g, g < u.grid.toNat → sampleHolds u g (colourWord (encClass chunk g))) :
    decodeRaster p u = .ok (chunk, decide (chunk.length < u.cap.toNat), u) := by
  have hgrid := hu.grid_four
  have hclass : ∀ g, g < u.grid.toNat → sampledClass u g = encClass chunk g := fun g hg =>
    (sampledClass_of_holds (hold g hg)).trans (classifyWord_colourWord hu.thresh_le _)
  have hdata : ∀ g, g < 4 * chunk.length → sampledClass u g ≠ .sentinel := fun g hg => by
    have hb : chunk[g / 4]? = some chunk[g / 4] := List.getElem?_eq_getElem (by omega)
    intro hsent
    have hnone : symOfClass (encClass chunk g) = none := by rw [← hclass g (by omega), hsent]; rfl
    rw [encClass_data hb, symOfClass_classOfSym] at hnone
    cases hnone
  have hblocks : u.DataBlocks (4 * chunk.length) :=
    ⟨by omega, hdata, fun hlt => (hclass _ hlt).trans (encClass_beyond (by omega))⟩
  obtain ⟨c, hc, hdec⟩ := decodeRaster_eq hu hblocks
  have hpack : pack chunk = (List.range (4 * chunk.length)).map (sampledSym u) := pack_eq_map_range fun g hg => by
    rw [← hclass g (by omega), symOfClass_sampledClass (hdata g hg)]
  have hdraws : drawsBefore u (min (4 * chunk.length + 1) u.grid.toNat) = u.draws :=
    drawsBefore_written fun g hg j hj => by rw [hold g (by omega) j hj]; exact Option.some_ne_none _
  have hreached : (4 * chunk.length < u.grid.toNat) ↔ (chunk.length < u.cap.toNat) := by omega
  rw [Nat.mul_div_cancel_left _ (by decide), ← hpack] at hc
  rw [hdec, pack_injective hc, hdraws, decide_eq_decide.2 hreached]

/-! ### The obligations -/

/-- Settles O25: `decodeRaster_eq` for the data blocks there are, whose number the first Sentinel or the grid fixes. -/
theorem decodeRasterStopsAtSentinel : Obligations.DecodeRasterStopsAtSentinel := by
  intro s hs
  obtain ⟨n, hn⟩ := exists_dataBlocks s
  obtain ⟨chunk, hpack, hdec⟩ := decodeRaster_eq hs hn
  have hgrid := hs.grid_four
  refine ⟨fun g j => (sampledBytes s g).getD j 0, chunk, _, _, hdec, fun g j b _ hj hb => pixelRead_written _ hj hb, ?_⟩
  simp only [← classCode_sampledClass, ne_eq, classCode_eq_four_iff]
  refine ⟨fun gs hlt hsent hdata => ?sentinel, fun hdata => ?full, fun i b hb => ?bytes⟩
  case sentinel =>
    obtain rfl := hn.unique ⟨hlt.le, hdata, fun _ => hsent⟩
    have hmin : min (n + 1) s.grid.toNat = n + 1 := by omega
    exact ⟨decide_eq_true hlt, decoded_length hpack,
      fun hw => by rw [hmin]; exact drawsBefore_written fun g hg => hw g (Nat.le_of_lt_succ hg)⟩
  case full =>
    obtain rfl := hn.unique ⟨le_refl _, hdata, fun hlt => absurd hlt (lt_irrefl _)⟩
    have hmin : min (s.grid.toNat + 1) s.grid.toNat = s.grid.toNat := by omega
    exact ⟨decide_eq_false (lt_irrefl _), by rw [decoded_length hpack]; omega, fun hw => by rw [hmin]; exact drawsBefore_written hw⟩
  case bytes =>
    have hsym (k : Nat) (hk : k < 4) : (classCode (sampledClass s (4 * i + k))).toNat = (packSym b k).toNat := by
      obtain ⟨hlt, hsym⟩ := packSym_decoded hpack hk hb
      rw [hsym]
      exact classCode_of_data (hn.data _ (by omega))
    have hfirst := hsym 0 (by decide)
    rw [Nat.add_zero] at hfirst
    rw [hfirst, hsym 1 (by decide), hsym 2 (by decide), hsym 3 (by decide), ← unpack4_toNat, unpack4_packSym]

/-- Settles O26: the encoder leaves each sample pixel in its block's colour, so `decodeRaster_of_encoded` applies. -/
theorem rasterRoundTrip : Obligations.RasterRoundTrip := by
  intro s t u chunk hs hcap henc hu hw hh hb _ hrast
  have hgrid : u.grid.toNat = s.grid.toNat := hu.grid_congr hs hw hh hb
  have hucap : u.cap.toNat = s.cap.toNat := by rw [hu.cap_eq, hs.cap_eq, hgrid]
  rw [← hucap] at hcap ⊢
  refine decodeRaster_of_encoded hu hcap fun g hg j hj => ?_
  rw [hgrid] at hg
  have hmem := sample_mem_footprint hs.bsize_pos g
  have hin : sampleAddress s g + 4 ≤ 4 * pixels s := footprint_lt hs hg hmem
  have hbyte := hrast (sampleAddress s g + j) (by unfold pixels at hin; omega)
  rw [sampleAddress_congr hw hb (hu.gridw_congr hs hw hb), hbyte, encodeRaster_eq hs henc, encoded_pixel hs chunk _ hg hmem hj]

end Sys2Proof.Machine
end

section
/-! RAST beyond the raster: every command in two states whose rasters agree (20_memory.md R63; 41_framecodec.md R161). -/

namespace Sys2Proof.Machine

/-! ### Another memory in RAST -/

/-- The outcome with another memory in RAST of its next state. -/
def withRast (m : Memory) : Host.Outcome State Fault Refusal → Host.Outcome State Fault Refusal
  | .next t => .next { t with rast := m }
  | .fault f => .fault f
  | .refused r => .refused r

section
variable (s : State) (m : Memory)

theorem unlessError_setRast {k k' : Host.Outcome State Fault Refusal} (h : s.status.err = false → k' = withRast m k) :
    unlessError { s with rast := m } k' = withRast m (unlessError s k) := by
  cases he : s.status.err with
  | false => rw [unlessError_running he, unlessError_running (s := { s with rast := m }) he, h he]
  | true => rw [unlessError_latched he, unlessError_latched (s := { s with rast := m }) he]; rfl

theorem withClass_setRast {cls : BitVec 3} {k k' : Machine.Class → Host.Outcome State Fault Refusal}
    (h : ∀ c, classOfCode cls = some c → k' c = withRast m (k c)) :
    withClass cls { s with rast := m } k' = withRast m (withClass cls s k) := by
  cases hc : classOfCode cls with
  | none => rw [withClass_illegal hc, withClass_illegal hc]; exact unlessError_setRast s m fun _ => rfl
  | some c => rw [withClass_legal hc, withClass_legal hc, h c hc]

theorem withBlock_setRast {k k' : Nat → Host.Outcome State Fault Refusal}
    (h : s.status.cfgValid = true → s.arg.toNat < s.grid.toNat → k' s.arg.toNat = withRast m (k s.arg.toNat)) :
    withBlock { s with rast := m } k' = withRast m (withBlock s k) := by
  cases hv : s.status.cfgValid with
  | false => rw [withBlock_unconfigured hv, withBlock_unconfigured (s := { s with rast := m }) hv]; rfl
  | true =>
    rcases Nat.lt_or_ge s.arg.toNat s.grid.toNat with hg | hg
    · rw [withBlock_ok hv hg, withBlock_ok (s := { s with rast := m }) hv hg]; exact h hv hg
    · rw [withBlock_range hv hg, withBlock_range (s := { s with rast := m }) hv hg]; rfl

theorem orFault_setRast {α : Type} {r : Except Fault α} {f : α → α} {k k' : α → Host.Outcome State Fault Refusal}
    (h : ∀ x, k' (f x) = withRast m (k x)) : orFault (r.map f) k' = withRast m (orFault r k) := by
  cases r with
  | error f => rfl
  | ok x => exact h x

theorem appendChunk_setRast (p : Params) (chunk : List Byte) (reached : Bool) :
    appendChunk p chunk reached { s with rast := m } = withRast m (appendChunk p chunk reached s) := by
  rcases Nat.lt_or_ge p.accBytes (s.accLen.toNat + chunk.length) with hfull | hfit
  · rw [appendChunk, appendChunk, if_pos hfull, if_pos hfull]; rfl
  · rw [appendChunk_ok hfit, appendChunk_ok (s := { s with rast := m }) hfit]; rfl

end

/-! ### The reads of a raster -/

/-- The memory agrees with RAST on the sample pixel of a block. -/
def sampleAgrees (s : State) (m : Memory) (g : Nat) : Prop :=
  ∀ j, j < 4 → m.read? (sampleAddress s g + j) = s.rast.read? (sampleAddress s g + j)

theorem readSymbols_congr {p : Params} {m : Memory} (gs : List Nat) : ∀ {s : State}, (∀ g ∈ gs, sampleAgrees s m g) →
    readSymbols p gs { s with rast := m } =
      (readSymbols p gs s).map fun r => (r.1, r.2.1, { r.2.2 with rast := m }) := by
  induction gs with
  | nil => intro s _; rfl
  | cons g gs ih =>
    intro s h
    rw [readSymbols, readSymbols, sampleClass_congr (h g List.mem_cons_self)]
    cases hc : sampleClass p g s with
    | error f => rfl
    | ok r =>
      obtain ⟨c, s₁⟩ := r
      obtain ⟨d, -, hd⟩ := sampleClass_cases hc
      obtain rfl : s₁ = { s with draws := d } := hd
      have htail := ih (s := { s with draws := d }) fun g' hg' => h g' (List.mem_cons_of_mem _ hg')
      simp only [Except.map] at htail ⊢
      cases symOfClass c with
      | none => rfl
      | some y =>
        simp only [htail]
        cases readSymbols p gs { s with draws := d } <;> rfl

theorem decodeRaster_congr {p : Params} {s : State} {m : Memory} (h : ∀ g, g < s.grid.toNat → sampleAgrees s m g) :
    decodeRaster p { s with rast := m } =
      (decodeRaster p s).map fun r => (r.1, r.2.1, { r.2.2 with rast := m }) := by
  have hread := readSymbols_congr (p := p) (List.range s.grid.toNat) fun g hg => h g (List.mem_range.1 hg)
  simp only [decodeRaster, hread]
  cases readSymbols p (List.range s.grid.toNat) s with
  | error f => rfl
  | ok r =>
    simp only [Except.map]
    cases unpack (r.1.take (4 * (r.1.length / 4))) <;> rfl

/-! ### The commands that write no pixel -/

/-- The commands that write RAST. -/
def writesRast : Instr → Bool
  | .wrblk _ | .encFrame => true
  | _ => false

/-- A command that writes no pixel sees of RAST the sample pixels of the grid at most. -/
theorem exec_setRast {i : Instr} (hi : writesRast i = false) {s : State} {m : Memory}
    (h : ∀ g, g < s.grid.toNat → sampleAgrees s m g) : exec i { s with rast := m } = withRast m (exec i s) := by
  cases i with
  | wrblk | encFrame => cases hi
  | nop | sreset => rfl
  | abort | iofail | pack | unpack | classify => exact unlessError_setRast s m fun _ => rfl
  | symcolor cls => exact unlessError_setRast s m fun _ => withClass_setRast s m fun _ _ => rfl
  | rdblk =>
    refine unlessError_setRast s m fun _ => withBlock_setRast s m fun _ hg => ?_
    rw [sampleClass_congr (h _ hg)]
    exact orFault_setRast m fun _ => rfl
  | config | encStart | decStart | decEnd =>
    refine unlessError_setRast s m fun _ => ?_
    simp only [apply_ite (withRast m)]
    rfl
  | decFrame =>
    refine unlessError_setRast s m fun _ => ?_
    have hdec : orFault (decodeRaster blockParams { s with rast := m }) (fun r => appendChunk blockParams r.1 r.2.1 r.2.2) =
        withRast m (orFault (decodeRaster blockParams s) fun r => appendChunk blockParams r.1 r.2.1 r.2.2) := by
      rw [decodeRaster_congr h]
      exact orFault_setRast m fun r => appendChunk_setRast ..
    simp only [apply_ite (withRast m), ← hdec]
    rfl

/-! ### Writes inside the raster -/

theorem read?_writeWords_congr (w : Word) (as : List Nat) : ∀ {m n : Memory} {x : Nat}, m.read? x = n.read? x →
    (m.writeWords w as).read? x = (n.writeWords w as).read? x := by
  induction as with
  | nil => intro m n x h; exact h
  | cons a as ih => intro m n x h; exact ih (by rw [read?_writeBytes, read?_writeBytes, h])

theorem read?_writeBlocks_congr (s : State) (chunk : List Byte) (gs : List Nat) : ∀ {m n : Memory} {x : Nat},
    m.read? x = n.read? x → (Memory.writeBlocks s chunk gs m).read? x = (Memory.writeBlocks s chunk gs n).read? x := by
  induction gs with
  | nil => intro m n x h; exact h
  | cons g gs ih => intro m n x h; exact ih (read?_writeWords_congr _ _ h)

/-- A change of RAST that stays inside the raster of `s`: each byte after it depends on that byte before it, and the bytes
beyond the raster are kept. -/
structure RasterWrite (s : State) (w : Memory → Memory) : Prop where
  congr  : ∀ {m n : Memory} {x : Nat}, m.read? x = n.read? x → (w m).read? x = (w n).read? x
  beyond : ∀ (m : Memory) {x : Nat}, 4 * pixels s ≤ x → (w m).read? x = m.read? x

theorem rasterWrite_id (s : State) : RasterWrite s id := ⟨id, fun _ _ _ => rfl⟩

theorem rasterWrite_block {p : Params} {s : State} (hs : s.GeometryValid p) {g : Nat} (hg : g < s.grid.toNat) (w : Word) :
    RasterWrite s fun m => m.writeWords w (footprint s g) :=
  ⟨read?_writeWords_congr w _, fun _ _ hx => writeWords_outside w _ (beyond_footprints hs hx hg)⟩

theorem rasterWrite_encoded {p : Params} {s : State} (hs : s.GeometryValid p) (chunk : List Byte) :
    RasterWrite s (Memory.writeBlocks s chunk (List.range s.grid.toNat)) :=
  ⟨read?_writeBlocks_congr s chunk _, fun m _ hx => encoded_beyond hs chunk m hx⟩

/-! ### Every command on any memory that agrees on the raster -/

/-- In a state that meets the invariant a block of the grid lies on a checked geometry (10_state.md R37, R50). -/
theorem State.Inv.geometry_of_block {p : Params} {s : State} (hs : s.Inv p) {g : Nat} (hg : g < s.grid.toNat) :
    s.GeometryValid p := by
  cases hv : s.status.cfgValid with
  | true => exact hs.geometry hv
  | false =>
    obtain ⟨-, -, hgrid, -⟩ := hs.derived_clear hv
    rw [hgrid] at hg
    exact absurd hg (Nat.not_lt_zero g)

/-- The memory agrees with RAST on every byte of the raster. -/
def agreesOnRaster (s : State) (m : Memory) : Prop := ∀ a, a < 4 * pixels s → m.read? a = s.rast.read? a

theorem sampleAgrees_of_agreesOnRaster {p : Params} {s : State} (hs : s.Inv p) {m : Memory} (h : agreesOnRaster s m) {g : Nat}
    (hg : g < s.grid.toNat) : sampleAgrees s m g := by
  have hgeo := hs.geometry_of_block hg
  have hin := footprint_lt hgeo hg (sample_mem_footprint hgeo.bsize_pos g)
  exact fun j hj => h _ (by omega)

/-- What a command does to RAST: with any memory there that agrees on the raster it does the same to the rest of the state,
and the same change inside the raster. -/
def actsOnRaster (i : Instr) (s : State) : Prop :=
  ∀ t, exec i s = .next t → ∃ w, RasterWrite s w ∧
    ∀ m, agreesOnRaster s m → exec i { s with rast := m } = .next { t with rast := w m }

theorem actsOnRaster_of_setRast {i : Instr} {s : State}
    (h : ∀ m, agreesOnRaster s m → exec i { s with rast := m } = withRast m (exec i s)) : actsOnRaster i s :=
  fun _ ht => ⟨id, rasterWrite_id s, fun m hm => (h m hm).trans (congrArg (withRast m) ht)⟩

theorem actsOnRaster_of_write {i : Instr} {s u : State} {w : Memory → Memory} (hw : RasterWrite s w)
    (h : ∀ m, exec i { s with rast := m } = .next { u with rast := w m }) : actsOnRaster i s := fun t ht => by
  obtain rfl := Host.Outcome.next.inj ((h s.rast).symm.trans ht)
  exact ⟨w, hw, fun m _ => h m⟩

theorem wrblk_actsOnRaster {s : State} (hs : s.Inv blockParams) (cls : BitVec 3) : actsOnRaster (.wrblk cls) s := by
  by_cases hrun : s.status.err = false ∧ s.status.cfgValid = true ∧ s.arg.toNat < s.grid.toNat ∧ ∃ c, classOfCode cls = some c
  case pos =>
    obtain ⟨he, hv, hg, c, hc⟩ := hrun
    have hgeo := hs.geometry hv
    refine actsOnRaster_of_write (u := s) (rasterWrite_block hgeo hg (colourWord c)) fun m => ?_
    have hgeo' : State.GeometryValid blockParams { s with rast := m } :=
      GeometryValid_congr hgeo rfl rfl rfl rfl rfl rfl rfl rfl
    rw [exec, execWrblk, wrblk, unlessError_running (s := { s with rast := m }) he, withClass_legal hc,
      withBlock_ok (s := { s with rast := m }) hv hg, fillBlock_ok hgeo' hg]
    rfl
  case neg =>
    exact actsOnRaster_of_setRast fun m _ => unlessError_setRast s m fun he => withClass_setRast s m fun c hc =>
      withBlock_setRast s m fun hv hg => absurd ⟨he, hv, hg, c, hc⟩ hrun

theorem encFrame_actsOnRaster {s : State} (hs : s.Inv blockParams) : actsOnRaster .encFrame s := by
  by_cases hrun : s.status.err = false ∧ s.status.mode = .enc
  case pos =>
    obtain ⟨he, hm⟩ := hrun
    have hgeo := hs.geometry (hs.open_config (by simp [hm]))
    have hwrite := rasterWrite_encoded hgeo (s.src.readBytes s.srcPos.toNat (nextChunkLength s) s.draws).1
    refine actsOnRaster_of_write (u := afterEncode (nextChunkLength s)
      { s with draws := (s.src.readBytes s.srcPos.toNat (nextChunkLength s) s.draws).2 }) hwrite fun m => ?_
    have hgeo' : State.GeometryValid blockParams { s with rast := m } :=
      GeometryValid_congr hgeo rfl rfl rfl rfl rfl rfl rfl rfl
    refine (encFrame_ok (s := { s with rast := m }) he hm hgeo' (hs.src_len_le hm) (hs.src_pos_le hm)).trans ?_
    rw [writeBlocks_congr (s := s) (t := { s with rast := m }) fun _ => rfl]
    rfl
  case neg =>
    refine actsOnRaster_of_setRast fun m _ => unlessError_setRast s m fun he => ?_
    have hm : s.status.mode ≠ .enc := fun hm => hrun ⟨he, hm⟩
    rw [if_pos hm, if_pos hm]
    rfl

theorem exec_actsOnRaster (i : Instr) {s : State} (hs : s.Inv blockParams) : actsOnRaster i s := by
  cases hi : writesRast i with
  | false => exact actsOnRaster_of_setRast fun m hm => exec_setRast hi fun g hg => sampleAgrees_of_agreesOnRaster hs hm hg
  | true =>
    cases i with
    | wrblk cls => exact wrblk_actsOnRaster hs cls
    | encFrame => exact encFrame_actsOnRaster hs
    | _ => cases hi

/-! ### The obligation -/

/-- Settles O27: the command acts on RAST as it is and on the other memory by one and the same `RasterWrite`. -/
theorem bytesBeyondRasterAreInert : Obligations.BytesBeyondRasterAreInert := by
  intro i s t n hs ht hn
  obtain ⟨w, hw, hall⟩ := exec_actsOnRaster i hs t ht
  have hrast : t.rast = w s.rast :=
    congrArg State.rast (Host.Outcome.next.inj (ht.symm.trans (hall s.rast fun _ _ => rfl)))
  rw [hrast]
  exact ⟨fun _ ha => hw.beyond s.rast ha, w n, hall n hn, fun a ha => hw.congr (hn a ha), fun _ ha => hw.beyond n ha⟩

end Sys2Proof.Machine
end

section
/-! The five sequencer commands: their checks in order, and the frames ENC_FRAME encodes and DEC_FRAME decodes
(42_sequencer.md R182, R183, R186 to R189). -/

namespace Sys2Proof.Machine

/-! ### Opening and closing a stream (42_sequencer.md R182, R186, R189) -/

section
variable {s : State}

theorem exec_encStart_open (he : s.status.err = false) (hm : s.status.mode = .idle) (hv : s.status.cfgValid = true)
    (hlen : s.srcLen.toNat ≤ blockParams.srcBytes) :
    exec .encStart s = .next { s with seq := 0, srcPos := 0, chunkLen := 0, status := statusOpenEncode s.status } := by
  rw [exec, execEncStart, encStart, unlessError_running he, if_neg (by simp [hm]), if_neg (by simp [hv]), if_neg (by omega)]

theorem exec_decStart_open (he : s.status.err = false) (hm : s.status.mode = .idle) (hv : s.status.cfgValid = true) :
    exec .decStart s = .next { s with accLen := 0, seq := 0, chunkLen := 0, status := statusOpenDecode s.status } := by
  rw [exec, execDecStart, decStart, unlessError_running he, if_neg (by simp [hm]), if_neg (by simp [hv])]

theorem exec_decEnd_close (he : s.status.err = false) (hm : s.status.mode = .dec) (hd : s.status.done = true) :
    exec .decEnd s = .next { s with status := statusClose s.status } := by
  rw [exec, execDecEnd, decEnd, unlessError_running he, if_neg (by simp [hm]), if_neg (by simp [hd])]

theorem exec_encFrame_outside (he : s.status.err = false) (hm : s.status.mode ≠ .enc) :
    exec .encFrame s = .next (raise .sequenceError s) := by
  rw [exec, execEncFrame, encFrame, unlessError_running he, if_pos hm, raising_eq]

theorem exec_decFrame_outside (he : s.status.err = false) (hm : s.status.mode ≠ .dec) :
    exec .decFrame s = .next (raise .sequenceError s) := by
  rw [exec, execDecFrame, decFrame, unlessError_running he, if_pos hm, raising_eq]

/-- Past its checks DEC_FRAME decodes RAST and goes on with the append. -/
theorem exec_decFrame_append {chunk : List Byte} {reached : Bool} {u : State} (he : s.status.err = false)
    (hm : s.status.mode = .dec) (hd : s.status.done = false) (hw : s.inWidth = s.width) (hh : s.inHeight = s.height)
    (hdec : decodeRaster blockParams s = .ok (chunk, reached, u)) :
    exec .decFrame s = appendChunk blockParams chunk reached u := by
  rw [exec, execDecFrame, decFrame, unlessError_running he, if_neg (by simp [hm]), if_neg (by simp [hd]),
    if_neg (by simp [hw, hh]), hdec, orFault_ok]

end

/-! ### The registers after a frame -/

theorem word_add_ofNat (w : Word) (n : Nat) : w + BitVec.ofNat 32 n = BitVec.ofNat 32 (w.toNat + n) := by
  rw [BitVec.ofNat_add, BitVec.ofNat_toNat, BitVec.setWidth_eq]

/-- ENC_FRAME's registers with the sums written on naturals (42_sequencer.md R183). -/
theorem afterEncode_eq (len : Nat) (s : State) : afterEncode len s = { s with
    chunkLen := BitVec.ofNat 32 len
    srcPos := BitVec.ofNat 32 (s.srcPos.toNat + len)
    seq := BitVec.ofNat 32 (s.seq.toNat + 1)
    status := if len < s.cap.toNat then { s.status with final := true, done := true, mode := .idle }
      else { s.status with final := false } } := by
  simp only [afterEncode, statusEncoded, decide_eq_true_eq, ← word_add_ofNat]
  rfl

/-- DEC_FRAME's registers with the sums written on naturals (42_sequencer.md R187). -/
theorem afterDecode_eq (n : Nat) (reached : Bool) {s : State} (hd : s.status.done = false) : afterDecode n reached s = { s with
    accLen := BitVec.ofNat 32 (s.accLen.toNat + n)
    chunkLen := BitVec.ofNat 32 n
    seq := BitVec.ofNat 32 (s.seq.toNat + 1)
    status := { s.status with sent := reached, done := reached } } := by
  simp only [afterDecode, statusDecoded, hd, Bool.false_or, ← word_add_ofNat]
  rfl

/-! ### The frame of a chunk -/

/-- The memory holds the raster of a chunk: every pixel of every block has the colour of the block's class
(41_framecodec.md R151). -/
def holdsRaster (s : State) (chunk : List Byte) (m : Memory) : Prop :=
  ∀ g, g < s.grid.toNat → ∀ a ∈ footprint s g, ∀ j, j < 4 → m.read? (a + j) = some (byteOf (colourWord (encClass chunk g)) j)

/-- The raster of a chunk by the colour table and the class numbers (41_framecodec.md R142, R150). -/
theorem holdsRaster.byTable {s : State} {chunk : List Byte} {m : Memory} (h : holdsRaster s chunk m) {g a j : Nat}
    (hg : g < s.grid.toNat) (ha : a ∈ footprint s g) {e : BitVec 3 × Word} (hmem : e ∈ colourTable)
    (he : e.1.toNat = blockClassNumber chunk g) (hj : j < 4) : m.read? (a + j) = some (byteOf e.2 j) := by
  obtain ⟨c, rfl⟩ := mem_colourTable hmem
  obtain rfl : c = encClass chunk g :=
    classCode_injective (BitVec.eq_of_toNat_eq (he.trans (classCode_encClass chunk g).symm))
  exact h g hg a ha j hj

/-- A list of bytes is what a read of SRC from an address can give: its written bytes as written (20_memory.md R66). -/
def readsSrc (s : State) (a : Nat) (chunk : List Byte) : Prop :=
  ∀ i b, i < chunk.length → s.src.read? (a + i) = some b → chunk[i]? = some b

/-- ENC_FRAME in an open stream encodes the next bytes of SRC into the raster and changes its own registers. -/
theorem exec_encFrame_encodes {s : State} (he : s.status.err = false) (hm : s.status.mode = .enc)
    (hgeo : s.GeometryValid blockParams) (hlen : s.srcLen.toNat ≤ blockParams.srcBytes)
    (hpos : s.srcPos.toNat ≤ s.srcLen.toNat) :
    ∃ (chunk : List Byte) (m : Memory) (d : Nat), chunk.length = nextChunkLength s ∧ readsSrc s s.srcPos.toNat chunk ∧
      ((∀ i, i < nextChunkLength s → s.src.read? (s.srcPos.toNat + i) ≠ none) → d = s.draws) ∧
      holdsRaster s chunk m ∧ (∀ x, 4 * pixels s ≤ x → m.read? x = s.rast.read? x) ∧
      exec .encFrame s = .next (afterEncode (nextChunkLength s) { s with rast := m, draws := d }) :=
  ⟨_, _, _, readBytes_length _ _ _ _, fun _ _ hi hb => readBytes_written _ _ (by rwa [readBytes_length] at hi) hb,
    readBytes_written_draws _ _, fun _ hg _ ha _ hj => encoded_pixel hgeo _ _ hg ha hj, fun _ hx => encoded_beyond hgeo _ _ hx,
    encFrame_ok he hm hgeo hlen hpos⟩

/-! ### The obligations -/

/-- Settles O28: the checks of ENC_START in their order. -/
theorem encStartOpensStream : Obligations.EncStartOpensStream := by
  refine ⟨formatN_of_row rfl (by decide), fun s he => ⟨fun hm => ?_, fun hm hv => ?_, fun hm hv hlen => ?_,
    exec_encStart_open he⟩⟩ <;>
    rw [exec, execEncStart, encStart, unlessError_running he]
  · rw [if_pos hm, raising_eq]
  · rw [if_neg (by simp [hm]), if_pos hv, raising_eq]
  · rw [if_neg (by simp [hm]), if_neg (by simp [hv]), if_pos hlen, raising_eq]

/-- Settles O30: the checks of DEC_START in their order. -/
theorem decStartOpensStream : Obligations.DecStartOpensStream := by
  refine ⟨formatN_of_row rfl (by decide), fun s he => ⟨fun hm => ?_, fun hm hv => ?_, exec_decStart_open he⟩⟩ <;>
    rw [exec, execDecStart, decStart, unlessError_running he]
  · rw [if_pos hm, raising_eq]
  · rw [if_neg (by simp [hm]), if_pos hv, raising_eq]

/-- Settles O33: with ERR = 1 the command is ignored, and otherwise the test of DONE comes before any other effect. -/
theorem framesAfterEndAreIgnored : Obligations.FramesAfterEndAreIgnored := by
  intro s hm hd
  cases he : s.status.err with
  | true => exact exec_latched he (by decide)
  | false => rw [exec, execDecFrame, decFrame, unlessError_running he, if_neg (by simp [hm]), if_pos hd]

/-- Settles O34: the checks of DEC_END in their order. -/
theorem decEndClosesStream : Obligations.DecEndClosesStream := by
  refine ⟨formatN_of_row rfl (by decide), fun s he => ⟨fun hm => ?_, fun hm hd => ?_, exec_decEnd_close he⟩⟩ <;>
    rw [exec, execDecEnd, decEnd, unlessError_running he]
  · rw [if_pos hm, raising_eq]
  · rw [if_neg (by simp [hm]), if_pos hd, raising_eq]

/-- Settles O29: `exec_encFrame_encodes` under the bounds that the invariant gives in an open stream. -/
theorem encFrameEncodesNextChunk : Obligations.EncFrameEncodesNextChunk := by
  refine ⟨formatN_of_row rfl (by decide), fun s he => ⟨exec_encFrame_outside he, fun hm hs => ?_⟩⟩
  obtain ⟨chunk, m, d, hlen, hsrc, hdraws, hraster, hbeyond, hexec⟩ := exec_encFrame_encodes he hm
    (hs.geometry (hs.open_config (by simp [hm]))) (hs.src_len_le hm) (hs.src_pos_le hm)
  rw [afterEncode_eq] at hexec
  exact ⟨chunk, m, d, hlen, fun i b hi => hsrc i b (hlen ▸ hi), hdraws, hexec,
    fun g hg a ha e hmem hclass j hj => hraster.byTable hg ha hmem hclass hj, hbeyond⟩

/-- Settles O31: past its checks the command is the append of the chunk that `decodeRaster` answers. -/
theorem decFrameAppendsChunk : Obligations.DecFrameAppendsChunk := by
  refine ⟨formatN_of_row rfl (by decide), fun s he =>
    ⟨exec_decFrame_outside he, fun hm hd hdim => ?format, fun hm hd hw hh hs => ?append⟩⟩
  case format =>
    rw [exec, execDecFrame, decFrame, unlessError_running he, if_neg (by simp [hm]), if_neg (by simp [hd]), if_pos hdim,
      raising_eq]
  case append =>
    obtain ⟨chunk, reached, d, hdec, -, hcap, -⟩ := decodeRaster_ok (hs.geometry (hs.open_config (by simp [hm])))
    have hexec := exec_decFrame_append he hm hd hw hh hdec
    refine ⟨chunk, reached, d, hdec, hcap, fun hfull => ?_, fun hfit => ⟨s.acc.writeBytes s.accLen.toNat chunk, ?_,
      fun a => read?_writeBytes ..⟩⟩
    · rw [hexec, appendChunk, if_pos hfull, raising_eq]
    · rw [hexec, appendChunk_ok (s := { s with draws := d }) hfit,
        afterDecode_eq chunk.length reached (s := { s with draws := d, acc := s.acc.writeBytes s.accLen.toNat chunk }) hd]

end Sys2Proof.Machine
end

section
/-! An encode stream: its states frame by frame, the rasters it leaves, and the chunking law
(42_sequencer.md R180, R181, R184). -/

namespace Sys2Proof.Machine

/-! ### Chunks of a file (42_sequencer.md R181) -/

/-- Chunk `k` of a file for CAP = `c`: the bytes from `k * c`, at most `c` of them. -/
def fileChunk (c : Nat) (b : List Byte) (k : Nat) : List Byte := (b.drop (k * c)).take c

/-- What is left of `n` bytes after `k` chunks of `c`: a full chunk up to the last, which is shorter. -/
theorem min_sub_mul {c n k : Nat} (hc : 0 < c) (hk : k ≤ n / c) : min c (n - k * c) = if k < n / c then c else n % c := by
  have hn := Nat.div_add_mod' n c
  have hmod := Nat.mod_lt n hc
  split_ifs with hlt
  · have hle : (k + 1) * c ≤ n / c * c := Nat.mul_le_mul_right c hlt
    rw [Nat.succ_mul] at hle
    omega
  · obtain rfl : k = n / c := by omega
    omega

theorem fileChunk_length (c : Nat) (b : List Byte) (k : Nat) : (fileChunk c b k).length = min c (b.length - k * c) := by
  rw [fileChunk, List.length_take, List.length_drop]

theorem fileChunk_getElem? {c k i : Nat} {b : List Byte} (hi : i < (fileChunk c b k).length) :
    (fileChunk c b k)[i]? = b[k * c + i]? := by
  rw [fileChunk_length] at hi
  rw [fileChunk, List.getElem?_take_of_lt (by omega), List.getElem?_drop]

/-! ### The states of an encode stream -/

/-- What ENC_START asks of a state, on a valid geometry (42_sequencer.md R182). -/
structure State.ReadyToEncode (s : State) : Prop where
  geometry   : s.GeometryValid blockParams
  running    : s.status.err = false
  idle       : s.status.mode = .idle
  configured : s.status.cfgValid = true
  fits       : s.srcLen.toNat ≤ blockParams.srcBytes

/-- The full chunks of the file that SRC_LEN gives: the last frame's number. -/
def fullChunks (s : State) : Nat := s.srcLen.toNat / s.cap.toNat

/-- The length of the chunk of frame `k`: CAP bytes, or all that are left of the file. -/
def frameLength (s : State) (k : Nat) : Nat := min s.cap.toNat (s.srcLen.toNat - k * s.cap.toNat)

/-- The encode stream that `s` opens after `k` frames of full chunks, with the last raster and the count of draws. -/
def State.encoding (s : State) (k : Nat) (m : Memory) (d : Nat) : State :=
  { s with
    seq := BitVec.ofNat 32 k, srcPos := BitVec.ofNat 32 (k * s.cap.toNat), chunkLen := if k = 0 then 0 else s.cap
    status := statusOpenEncode s.status, rast := m, draws := d }

/-- The encode stream that `s` opens after its last frame. -/
def State.encoded (s : State) (m : Memory) (d : Nat) : State :=
  { s with
    seq := BitVec.ofNat 32 (fullChunks s + 1), srcPos := s.srcLen
    chunkLen := BitVec.ofNat 32 (s.srcLen.toNat % s.cap.toNat)
    status := { s.status with final := true, done := true, mode := .idle }, rast := m, draws := d }

/-- The memory holds frame `k` of the stream: the raster of its chunk, read from SRC at `k * CAP`. -/
def isFrame (s : State) (k : Nat) (m : Memory) : Prop :=
  ∃ chunk : List Byte, chunk.length = frameLength s k ∧ readsSrc s (k * s.cap.toNat) chunk ∧ holdsRaster s chunk m

/-- The memories are the first frames of the stream, in order. -/
def areFrames (s : State) (rs : List Memory) : Prop := ∀ k m, rs[k]? = some m → isFrame s k m

theorem areFrames_concat {s : State} {rs : List Memory} {m : Memory} (h : areFrames s rs) (hm : isFrame s rs.length m) :
    areFrames s (rs ++ [m]) := by
  intro k m' hk
  rcases Nat.lt_or_ge k rs.length with hlt | hge
  · exact h k m' (by rwa [List.getElem?_append_left hlt] at hk)
  · rw [List.getElem?_append_right hge, List.getElem?_singleton] at hk
    split_ifs at hk with hzero
    obtain rfl := Option.some.inj hk
    obtain rfl : k = rs.length := by omega
    exact hm

/-! ### One frame -/

section
variable {s : State}

theorem exec_encStart_encoding (hs : s.ReadyToEncode) : exec .encStart s = .next (s.encoding 0 s.rast s.draws) := by
  rw [exec_encStart_open hs.running hs.idle hs.configured hs.fits, State.encoding, Nat.zero_mul, if_pos rfl]
  rfl

theorem mul_cap_le {k : Nat} (hk : k ≤ fullChunks s) : k * s.cap.toNat ≤ s.srcLen.toNat := Nat.mul_le_of_le_div _ _ _ hk

theorem encoding_srcPos {k : Nat} (hk : k ≤ fullChunks s) (m : Memory) (d : Nat) :
    (s.encoding k m d).srcPos.toNat = k * s.cap.toNat := by
  have hle := mul_cap_le hk
  have hlen := s.srcLen.isLt
  exact BitVec.toNat_ofNat .. |>.trans (Nat.mod_eq_of_lt (by omega))

theorem frameLength_full (hs : s.ReadyToEncode) {k : Nat} (hk : k < fullChunks s) : frameLength s k = s.cap.toNat :=
  (min_sub_mul hs.geometry.cap_pos hk.le).trans (if_pos hk)

theorem frameLength_last (hs : s.ReadyToEncode) : frameLength s (fullChunks s) = s.srcLen.toNat % s.cap.toNat :=
  (min_sub_mul hs.geometry.cap_pos (le_refl _)).trans (if_neg (lt_irrefl _))

theorem encoding_seq_succ (k : Nat) (m : Memory) (d : Nat) :
    BitVec.ofNat 32 ((s.encoding k m d).seq.toNat + 1) = BitVec.ofNat 32 (k + 1) := by
  rw [← word_add_ofNat, BitVec.ofNat_add]
  rfl

/-- The registers after a full chunk are those of the stream one frame on (42_sequencer.md R183). -/
theorem afterEncode_full {k : Nat} (hk : k ≤ fullChunks s) (m : Memory) (d : Nat) :
    afterEncode s.cap.toNat (s.encoding k m d) = s.encoding (k + 1) m d := by
  have hcap : (s.encoding k m d).cap = s.cap := rfl
  rw [afterEncode_eq, encoding_srcPos hk, hcap, if_neg (lt_irrefl _), encoding_seq_succ, BitVec.ofNat_toNat,
    BitVec.setWidth_eq, ← Nat.succ_mul]
  rfl

/-- The registers after the rest of the file are those of the closed stream (42_sequencer.md R183). -/
theorem afterEncode_last (hs : s.ReadyToEncode) (m : Memory) (d : Nat) :
    afterEncode (s.srcLen.toNat % s.cap.toNat) (s.encoding (fullChunks s) m d) = s.encoded m d := by
  have hcap : (s.encoding (fullChunks s) m d).cap = s.cap := rfl
  have hpos : fullChunks s * s.cap.toNat + s.srcLen.toNat % s.cap.toNat = s.srcLen.toNat := Nat.div_add_mod' ..
  rw [afterEncode_eq, encoding_srcPos (le_refl _), hcap, if_pos (Nat.mod_lt _ hs.geometry.cap_pos),
    encoding_seq_succ, hpos, BitVec.ofNat_toNat, BitVec.setWidth_eq]
  rfl

/-- An open stream's ENC_FRAME leaves the next frame in RAST. -/
theorem exec_encFrame_encoding (hs : s.ReadyToEncode) {k : Nat} (hk : k ≤ fullChunks s) (m : Memory) (d : Nat) :
    ∃ m' d', isFrame s k m' ∧
      exec .encFrame (s.encoding k m d) = .next (afterEncode (frameLength s k) (s.encoding k m' d')) := by
  have hgeo : (s.encoding k m d).GeometryValid blockParams := GeometryValid_congr hs.geometry rfl rfl rfl rfl rfl rfl rfl rfl
  have hpos := encoding_srcPos hk m d
  have hnext : nextChunkLength (s.encoding k m d) = frameLength s k := by rw [nextChunkLength, hpos]; rfl
  obtain ⟨chunk, m', d', hlen, hsrc, -, hraster, -, hexec⟩ :=
    exec_encFrame_encodes (s := s.encoding k m d) hs.running rfl hgeo hs.fits (hpos ▸ mul_cap_le hk)
  rw [hnext] at hlen hexec
  rw [hpos] at hsrc
  exact ⟨m', d', ⟨chunk, hlen, hsrc, hraster⟩, hexec⟩

theorem exec_encFrame_full (hs : s.ReadyToEncode) {k : Nat} (hk : k < fullChunks s) (m : Memory) (d : Nat) :
    ∃ m' d', isFrame s k m' ∧ exec .encFrame (s.encoding k m d) = .next (s.encoding (k + 1) m' d') := by
  obtain ⟨m', d', hframe, hexec⟩ := exec_encFrame_encoding hs hk.le m d
  rw [frameLength_full hs hk, afterEncode_full hk.le] at hexec
  exact ⟨m', d', hframe, hexec⟩

theorem exec_encFrame_last (hs : s.ReadyToEncode) (m : Memory) (d : Nat) :
    ∃ m' d', isFrame s (fullChunks s) m' ∧ exec .encFrame (s.encoding (fullChunks s) m d) = .next (s.encoded m' d') := by
  obtain ⟨m', d', hframe, hexec⟩ := exec_encFrame_encoding hs (le_refl _) m d
  rw [frameLength_last hs, afterEncode_last hs] at hexec
  exact ⟨m', d', hframe, hexec⟩

end

/-! ### All frames -/

/-- One more ENC_FRAME at the end of a run of them. -/
theorem encodeFrames_succ {t u : State} : ∀ {k : Nat} {s : State} {rs : List Memory}, encodeFrames k s = some (rs, t) →
    exec .encFrame t = .next u → encodeFrames (k + 1) s = some (rs ++ [u.rast], u)
  | 0, s, rs, h, hu => by
    obtain ⟨rfl, rfl⟩ := Prod.mk.inj (Option.some.inj h)
    simp only [encodeFrames, hu, Option.map_some, List.nil_append]
  | k + 1, s, rs, h, hu => by
    rw [encodeFrames] at h ⊢
    cases hs : exec .encFrame s with
    | fault f => rw [hs] at h; cases h
    | refused r => rw [hs] at h; cases h
    | next s' =>
      simp only [hs, Option.map_eq_some_iff] at h ⊢
      obtain ⟨⟨rs', t'⟩, hrun, heq⟩ := h
      obtain ⟨rfl, rfl⟩ := Prod.mk.inj heq
      exact ⟨_, encodeFrames_succ hrun hu, rfl⟩

section
variable {s : State}

/-- The frames of full chunks. -/
theorem encodeFrames_full (hs : s.ReadyToEncode) : ∀ {k : Nat}, k ≤ fullChunks s →
    ∃ rs m d, encodeFrames k (s.encoding 0 s.rast s.draws) = some (rs, s.encoding k m d) ∧ rs.length = k ∧ areFrames s rs
  | 0, _ => ⟨[], s.rast, s.draws, rfl, rfl, fun _ _ h => by cases h⟩
  | k + 1, hk => by
    obtain ⟨rs, m, d, hrun, rfl, hframes⟩ := encodeFrames_full hs (Nat.le_of_succ_le hk)
    obtain ⟨m', d', hframe, hexec⟩ := exec_encFrame_full hs hk m d
    exact ⟨rs ++ [m'], m', d', encodeFrames_succ hrun hexec, List.length_append, areFrames_concat hframes hframe⟩

/-- The whole stream: the frames of full chunks and the last. -/
theorem encodeFrames_all (hs : s.ReadyToEncode) :
    ∃ rs m d, encodeFrames (fullChunks s + 1) (s.encoding 0 s.rast s.draws) = some (rs ++ [m], s.encoded m d) ∧
      rs.length = fullChunks s ∧ areFrames s (rs ++ [m]) := by
  obtain ⟨rs, m, d, hrun, hlen, hframes⟩ := encodeFrames_full hs (le_refl _)
  obtain ⟨m', d', hframe, hexec⟩ := exec_encFrame_last hs m d
  exact ⟨rs, m', d', encodeFrames_succ hrun hexec, hlen, areFrames_concat hframes (hlen ▸ hframe)⟩

theorem exec_encFrame_encoded (hs : s.ReadyToEncode) (m : Memory) (d : Nat) :
    exec .encFrame (s.encoded m d) = .next (raise .sequenceError (s.encoded m d)) :=
  exec_encFrame_outside hs.running Mode.noConfusion

end

/-! ### A file written in SRC -/

/-- SRC holds a file: its bytes are written from address 0 on, and SRC_LEN is its length. -/
structure State.HoldsFile (s : State) (b : List Byte) : Prop where
  length  : s.srcLen.toNat = b.length
  written : ∀ i, i < b.length → s.src.read? i = b[i]?

/-- Frame `k` of a written file is the raster of its chunk `k` (42_sequencer.md R181). -/
theorem holdsRaster_of_isFrame {s : State} {b : List Byte} (hb : s.HoldsFile b) {k : Nat} {m : Memory} (h : isFrame s k m) :
    holdsRaster s (fileChunk s.cap.toNat b k) m := by
  obtain ⟨chunk, hlen, hsrc, hraster⟩ := h
  rw [frameLength, hb.length, ← fileChunk_length] at hlen
  suffices hchunk : chunk = fileChunk s.cap.toNat b k by rwa [← hchunk]
  refine List.ext_getElem?' fun i hi => ?_
  have hi' : i < (fileChunk s.cap.toNat b k).length := by omega
  have hbyte := fileChunk_getElem? hi'
  rw [List.getElem?_eq_getElem hi'] at hbyte ⊢
  have hbi : k * s.cap.toNat + i < b.length := (List.getElem?_eq_some_iff.1 hbyte.symm).1
  exact hsrc i _ (by omega) ((hb.written _ hbi).trans hbyte.symm)

/-! ### The obligations -/

theorem State.Inv.readyToEncode {s : State} (hs : s.Inv blockParams) (he : s.status.err = false) (hm : s.status.mode = .idle)
    (hv : s.status.cfgValid = true) (hlen : s.srcLen.toNat ≤ blockParams.srcBytes) : s.ReadyToEncode :=
  ⟨hs.geometry hv, he, hm, hv, hlen⟩

/-- Settles O35: the states of the stream are `encoding` up to the last frame and `encoded` after it. -/
theorem encodeStreamHasAllFrames : Obligations.EncodeStreamHasAllFrames := by
  intro s hinv he hm hv hlen
  have hs := hinv.readyToEncode he hm hv hlen
  refine ⟨_, exec_encStart_encoding hs, fun k hk => ?before, ?last⟩
  case before =>
    obtain ⟨rs, m, d, hrun, -, -⟩ := encodeFrames_full hs hk
    exact ⟨rs, _, hrun, rfl, rfl, rfl, encoding_srcPos hk m d, rfl, fun hpos => if_neg hpos.ne'⟩
  case last =>
    obtain ⟨rs, m, d, hrun, -, -⟩ := encodeFrames_all hs
    have hmod : s.srcLen.toNat % s.cap.toNat < 2 ^ 32 := (Nat.mod_le _ _).trans_lt s.srcLen.isLt
    exact ⟨_, _, hrun, rfl, rfl, rfl, rfl, BitVec.toNat_ofNat .. |>.trans (Nat.mod_eq_of_lt hmod), rfl,
      exec_encFrame_encoded hs m d⟩

/-- Settles O36: frame `k` of the stream is the raster of the bytes read from SRC, which are chunk `k` of the file. -/
theorem encodeStreamFollowsChunkingLaw : Obligations.EncodeStreamFollowsChunkingLaw := by
  intro s b hinv he hm hv hlen hfit hwritten
  have hs := hinv.readyToEncode he hm hv (hlen ▸ hfit)
  have hb : s.HoldsFile b := ⟨hlen, hwritten⟩
  obtain ⟨rs, m, d, hrun, hcount, hframes⟩ := encodeFrames_all hs
  rw [fullChunks, hlen] at hrun hcount
  have hcount' : (rs ++ [m]).length = b.length / s.cap.toNat + 1 := by rw [List.length_append, hcount]; rfl
  refine ⟨_, _, _, exec_encStart_encoding hs, hrun, hcount', exec_encFrame_encoded hs m d, fun k hk => ?_⟩
  have hget : (rs ++ [m])[k]? = some (rs ++ [m])[k] := List.getElem?_eq_getElem (by omega)
  exact ⟨_, hget, (fileChunk_length ..).trans (min_sub_mul hs.geometry.cap_pos hk), fun g hg a ha e hmem hclass j hj =>
    (holdsRaster_of_isFrame hb (hframes k _ hget)).byTable hg ha hmem hclass hj⟩

end Sys2Proof.Machine
end

section
/-! A decode stream over the rasters of a file's chunks, and the end-to-end round trip (42_sequencer.md R187, R191). -/

namespace Sys2Proof.Machine

/-! ### The states of a decode stream -/

/-- The state when the host has loaded a raster with the configured dimensions (70_reset_and_hazards.md R295, R298). -/
def State.loaded (t : State) (m : Memory) : State := { t with rast := m, inWidth := t.width, inHeight := t.height }

/-- In the decode stream that `s` opens, the first `n` bytes of the file are in ACC: `t` differs from `s` in what a decode
stream writes alone, and `reached` tells whether its last raster held a Sentinel. -/
structure State.Decoded (s : State) (b : List Byte) (n : Nat) (reached : Bool) (t : State) : Prop where
  frame  : t = { s with
    rast := t.rast, acc := t.acc, accLen := t.accLen, chunkLen := t.chunkLen, seq := t.seq
    inWidth := t.inWidth, inHeight := t.inHeight
    status := { s.status with mode := .dec, sent := reached, done := reached } }
  accLen : t.accLen.toNat = n
  acc    : ∀ i, i < n → t.acc.read? i = b[i]?

/-- DEC_START opens the stream with none of the file in ACC (42_sequencer.md R186). -/
theorem decoded_opened (s : State) (b : List Byte) :
    s.Decoded b 0 false { s with accLen := 0, seq := 0, chunkLen := 0, status := statusOpenDecode s.status } :=
  ⟨rfl, rfl, fun i hi => absurd hi (Nat.not_lt_zero i)⟩

namespace State.Decoded

section
variable {s t : State} {b : List Byte} {n : Nat} {reached : Bool} (h : s.Decoded b n reached t)
include h

theorem status : t.status = { s.status with mode := .dec, sent := reached, done := reached } := congrArg State.status h.frame

theorem cap : t.cap = s.cap := by rw [h.frame]

theorem geometry (hs : s.GeometryValid blockParams) : t.GeometryValid blockParams := by
  rw [h.frame]
  exact GeometryValid_congr hs rfl rfl rfl rfl rfl rfl rfl rfl

/-- A raster under the geometry of the stream's first state is the same raster under that of a later one. -/
theorem holdsRaster {chunk : List Byte} {m : Memory} (hm : Machine.holdsRaster s chunk m) : Machine.holdsRaster t chunk m := by
  rw [h.frame]
  exact hm

theorem load (m : Memory) : s.Decoded b n reached (t.loaded m) where
  frame := by
    rw [h.frame]
    rfl
  accLen := h.accLen
  acc := h.acc

end

/-- An append of the file's next bytes to what ACC holds of it. -/
theorem append {s t : State} {b chunk : List Byte} {n : Nat} (h : s.Decoded b n false t)
    (hchunk : ∀ i, i < chunk.length → chunk[i]? = b[n + i]?) (hlen : n + chunk.length < 2 ^ 32) (reached : Bool) :
    s.Decoded b (n + chunk.length) reached
      (afterDecode chunk.length reached { t with acc := t.acc.writeBytes t.accLen.toNat chunk }) where
  frame := by
    rw [h.frame]
    rfl
  accLen := by
    rw [afterDecode_accLen, word_add_ofNat, h.accLen, BitVec.toNat_ofNat, Nat.mod_eq_of_lt hlen]
  acc i hi := by
    rw [afterDecode_acc, h.accLen]
    rcases Nat.lt_or_ge i n with hlt | hge
    · exact (read?_writeBytes_outside _ (.inl hlt)).trans (h.acc i hlt)
    · rw [read?_writeBytes_inside _ ⟨hge, hi⟩, hchunk _ (by omega), Nat.add_sub_cancel' hge]

end State.Decoded

/-- The raster of a chunk decodes to the chunk, and to a Sentinel exactly when the chunk is short (41_framecodec.md R156). -/
theorem decodeRaster_of_holdsRaster {u : State} {chunk : List Byte} (hu : u.GeometryValid blockParams)
    (hcap : chunk.length ≤ u.cap.toNat) (h : holdsRaster u chunk u.rast) :
    decodeRaster blockParams u = .ok (chunk, decide (chunk.length < u.cap.toNat), u) :=
  decodeRaster_of_encoded hu hcap fun g hg => h g hg _ (sample_mem_footprint hu.bsize_pos g)

/-- DEC_FRAME on the raster of the file's next chunk appends the chunk. -/
theorem exec_decFrame_decoded {s t : State} {b chunk : List Byte} {n : Nat} {m : Memory} (hs : s.GeometryValid blockParams)
    (he : s.status.err = false) (h : s.Decoded b n false t) (hcap : chunk.length ≤ s.cap.toNat)
    (hchunk : ∀ i, i < chunk.length → chunk[i]? = b[n + i]?) (hfit : n + chunk.length ≤ blockParams.accBytes)
    (hm : holdsRaster s chunk m) :
    ∃ u, exec .decFrame (t.loaded m) = .next u ∧ s.Decoded b (n + chunk.length) (decide (chunk.length < s.cap.toNat)) u := by
  have hl := h.load m
  have hst := hl.status
  have hdec : decodeRaster blockParams (t.loaded m) = .ok (chunk, decide (chunk.length < s.cap.toNat), t.loaded m) :=
    hl.cap ▸ decodeRaster_of_holdsRaster (hl.geometry hs) (hl.cap ▸ hcap) (hl.holdsRaster hm)
  have hacc := blockParams_ok.2.2.2
  refine ⟨_, ?_, hl.append hchunk (by omega) _⟩
  rw [exec_decFrame_append (by rw [hst]; exact he) (by rw [hst]) (by rw [hst]) rfl rfl hdec,
    appendChunk_ok (by rw [hl.accLen]; exact hfit)]

/-! ### All frames -/

theorem decodeFrames_cons {s t : State} {m : Memory} (h : exec .decFrame (s.loaded m) = .next t) (rs : List Memory) :
    decodeFrames (m :: rs) s = decodeFrames rs t := by
  rw [State.loaded] at h
  simp only [decodeFrames, h]

/-- One more raster at the end of a run of DEC_FRAMEs. -/
theorem decodeFrames_concat {t u : State} {m : Memory} (hu : exec .decFrame (t.loaded m) = .next u) :
    ∀ {rs : List Memory} {s : State}, decodeFrames rs s = some t → decodeFrames (rs ++ [m]) s = some u
  | [], s, h => by
    obtain rfl := Option.some.inj h
    exact decodeFrames_cons hu []
  | r :: rs, s, h => by
    rw [List.cons_append]
    rw [decodeFrames] at h ⊢
    split at h
    · exact decodeFrames_concat hu h
    · cases h
    · cases h

/-- The rasters of a file's first chunks, in order. -/
def rastersOf (s : State) (b : List Byte) (rs : List Memory) : Prop :=
  ∀ k m, rs[k]? = some m → holdsRaster s (fileChunk s.cap.toNat b k) m

theorem rastersOf_concat {s : State} {b : List Byte} {rs : List Memory} {m : Memory} (h : rastersOf s b (rs ++ [m])) :
    rastersOf s b rs ∧ holdsRaster s (fileChunk s.cap.toNat b rs.length) m :=
  ⟨fun k m' hk => h k m' (List.getElem?_append_left (List.getElem?_eq_some_iff.1 hk).1 ▸ hk),
    h _ _ List.getElem?_concat_length⟩

section
variable {s d : State} {b : List Byte} (hs : s.GeometryValid blockParams) (he : s.status.err = false)
  (hfit : b.length ≤ blockParams.accBytes) (hd : s.Decoded b 0 false d)
include hs he hfit

/-- DEC_FRAME on the raster of chunk `k`, when all chunks before it are in ACC. -/
theorem exec_decFrame_fileChunk {t : State} {m : Memory} {k : Nat} (hk : k ≤ b.length / s.cap.toNat)
    (h : s.Decoded b (k * s.cap.toNat) false t) (hm : holdsRaster s (fileChunk s.cap.toNat b k) m) :
    ∃ u, exec .decFrame (t.loaded m) = .next u ∧ s.Decoded b (k * s.cap.toNat + (fileChunk s.cap.toNat b k).length)
      (decide ((fileChunk s.cap.toNat b k).length < s.cap.toNat)) u := by
  have hle : k * s.cap.toNat ≤ b.length := Nat.mul_le_of_le_div _ _ _ hk
  have hlen := fileChunk_length s.cap.toNat b k
  exact exec_decFrame_decoded hs he h (by omega) (fun i hi => fileChunk_getElem? hi) (by omega) hm

include hd

/-- The rasters of full chunks. -/
theorem decodeFrames_full (rs : List Memory) : rs.length ≤ b.length / s.cap.toNat → rastersOf s b rs →
    ∃ t, decodeFrames rs d = some t ∧ s.Decoded b (rs.length * s.cap.toNat) false t := by
  induction rs using List.reverseRecOn with
  | nil => exact fun _ _ => ⟨d, rfl, (Nat.zero_mul s.cap.toNat).symm ▸ hd⟩
  | append_singleton rs m ih =>
    intro hlen hrs
    rw [List.length_append, List.length_singleton] at hlen ⊢
    have hlt : rs.length < b.length / s.cap.toNat := hlen
    obtain ⟨hinit, hm⟩ := rastersOf_concat hrs
    obtain ⟨t, hrun, ht⟩ := ih hlt.le hinit
    obtain ⟨u, hexec, hu⟩ := exec_decFrame_fileChunk hs he hfit hlt.le ht hm
    rw [fileChunk_length, min_sub_mul hs.cap_pos hlt.le, if_pos hlt, ← Nat.succ_mul,
      decide_eq_false (lt_irrefl _)] at hu
    exact ⟨u, decodeFrames_concat hexec hrun, hu⟩

/-- The rasters of all chunks: the last is short, so the stream has reached its Sentinel. -/
theorem decodeFrames_all {rs : List Memory} {m : Memory} (hlen : rs.length = b.length / s.cap.toNat)
    (hrs : rastersOf s b (rs ++ [m])) : ∃ t, decodeFrames (rs ++ [m]) d = some t ∧ s.Decoded b b.length true t := by
  obtain ⟨hinit, hm⟩ := rastersOf_concat hrs
  obtain ⟨t, hrun, ht⟩ := decodeFrames_full hs he hfit hd rs hlen.le hinit
  obtain ⟨u, hexec, hu⟩ := exec_decFrame_fileChunk hs he hfit hlen.le ht hm
  rw [fileChunk_length, min_sub_mul hs.cap_pos hlen.le, if_neg (by omega), hlen, Nat.div_add_mod',
    decide_eq_true (Nat.mod_lt _ hs.cap_pos)] at hu
  exact ⟨u, decodeFrames_concat hexec hrun, hu⟩

end

/-! ### The obligation -/

/-- Settles O37: the encode stream leaves the rasters of the file's chunks, and the decode stream appends the chunks in order. -/
theorem encodeThenDecodeRestoresFile : Obligations.EncodeThenDecodeRestoresFile := by
  intro s b hinv he hm hv hlen hsrc hacc hwritten
  have hs := hinv.readyToEncode he hm hv (hlen ▸ hsrc)
  obtain ⟨rs, m, d, hrun, hcount, hframes⟩ := encodeFrames_all hs
  rw [fullChunks, hlen] at hrun hcount
  have hrasters : rastersOf (s.encoded m d) b (rs ++ [m]) := fun k m' hk =>
    holdsRaster_of_isFrame ⟨hlen, hwritten⟩ (hframes k m' hk)
  have hgeo : (s.encoded m d).GeometryValid blockParams := GeometryValid_congr hs.geometry rfl rfl rfl rfl rfl rfl rfl rfl
  obtain ⟨t, hdec, ht⟩ := decodeFrames_all hgeo he hacc (decoded_opened _ b) hcount hrasters
  have hst := ht.status
  have herr : t.status.err = false := by rw [hst]; exact he
  have hdone : t.status.done = true := by rw [hst]
  exact ⟨_, _, _, _, t, _, exec_encStart_encoding hs, hrun, rfl, rfl, exec_decStart_open he rfl hv, hdec,
    exec_decEnd_close herr (by rw [hst]) hdone, herr, hdone, rfl, ht.accLen, ht.acc⟩

end Sys2Proof.Machine
end

section
/-! The control commands NOP, CONFIG, ABORT, IOFAIL and SRESET, and the resets that are no commands
(43_control.md R220 to R225; 70_reset_and_hazards.md R290). -/

namespace Sys2Proof.Machine

/-! ### The checks of CONFIG and the sizes it derives (43_control.md R221, R222) -/

/-- The checks of CONFIG as propositions, in their order (43_control.md R222). -/
def configPasses (p : Params) (s : State) : Prop :=
  s.bsize.toNat ≠ 0 ∧ (s.width.toNat ≠ 0 ∧ s.height.toNat ≠ 0) ∧
  (s.width.toNat % s.bsize.toNat = 0 ∧ s.height.toNat % s.bsize.toNat = 0) ∧
  s.width.toNat * s.height.toNat ≤ p.maxPixels ∧
  (s.width.toNat / s.bsize.toNat) * (s.height.toNat / s.bsize.toNat) % 4 = 0 ∧ s.thresh.toNat ≤ 254

theorem configChecks_all_iff (p : Params) (s : State) : (configChecks p s).all id = true ↔ configPasses p s := by
  simp [configChecks, configPasses]

/-- A nonzero dimension that the block size divides has at least one block. -/
theorem blocks_pos {d b : Nat} (hd : d ≠ 0) (hdiv : d % b = 0) : 0 < d / b := by
  have hdvd : b ∣ d := Nat.dvd_of_mod_eq_zero hdiv
  have hpos : 0 < d := Nat.pos_of_ne_zero hd
  exact Nat.div_pos (Nat.le_of_dvd hpos hdvd) (Nat.pos_of_dvd_of_pos hdvd hpos)

theorem blocks_lt (d : Half) (b : Nat) : d.toNat / b < 2 ^ 16 := (Nat.div_le_self _ _).trans_lt d.isLt

/-- The product of two 16-bit counts fits the 32-bit GRID. -/
theorem blocks_mul_lt (w h : Half) (b : Nat) : (w.toNat / b) * (h.toNat / b) < 2 ^ 32 :=
  calc (w.toNat / b) * (h.toNat / b)
    _ < 2 ^ 16 * 2 ^ 16 := Nat.mul_lt_mul'' (blocks_lt w b) (blocks_lt h b)
    _ = 2 ^ 32 := by decide

theorem toNat_ofNat_word {n : Nat} (h : n < 2 ^ 32) : (BitVec.ofNat 32 n).toNat = n := by
  rw [BitVec.toNat_ofNat, Nat.mod_eq_of_lt h]

/-- What CFG_VALID promises holds after CONFIG has passed its checks (10_state.md R25). -/
theorem configured_geometryValid {p : Params} {s : State} (h : configPasses p s) : (configured s).GeometryValid p := by
  obtain ⟨hb, ⟨hw, hh⟩, ⟨hwdiv, hhdiv⟩, hfits, hmod, hthresh⟩ := h
  have hgridw : (configured s).gridw.toNat = s.width.toNat / s.bsize.toNat :=
    toNat_ofNat_word ((blocks_lt _ _).trans (by decide))
  have hgridh : (configured s).gridh.toNat = s.height.toNat / s.bsize.toNat :=
    toNat_ofNat_word ((blocks_lt _ _).trans (by decide))
  have hgrid : (configured s).grid.toNat = (s.width.toNat / s.bsize.toNat) * (s.height.toNat / s.bsize.toNat) :=
    toNat_ofNat_word (blocks_mul_lt _ _ _)
  have hcap : (configured s).cap.toNat = (s.width.toNat / s.bsize.toNat) * (s.height.toNat / s.bsize.toNat) / 4 :=
    toNat_ofNat_word ((Nat.div_le_self _ _).trans_lt (blocks_mul_lt _ _ _))
  have hpos : 0 < (s.width.toNat / s.bsize.toNat) * (s.height.toNat / s.bsize.toNat) :=
    Nat.mul_pos (blocks_pos hw hwdiv) (blocks_pos hh hhdiv)
  exact {
    bsize_pos := Nat.pos_of_ne_zero hb
    width_div := hwdiv
    height_div := hhdiv
    gridw_eq := hgridw
    gridh_eq := hgridh
    grid_eq := by rw [hgrid, hgridw, hgridh]
    cap_eq := by rw [hcap, hgrid]
    grid_mod := by rw [hgrid, hmod]
    cap_pos := by rw [hcap]; omega
    fits := hfits
    thresh_le := hthresh }

section
variable {s : State} (he : s.status.err = false)
include he

theorem exec_config_open (hm : s.status.mode ≠ .idle) : exec .config s = .next (raise .sequenceError s) := by
  rw [exec, execConfig, config, unlessError_running he, if_pos hm, raising_eq]

theorem exec_config_fails (hm : s.status.mode = .idle) (hc : ¬ configPasses blockParams s) :
    exec .config s = .next (raise .configError s) := by
  rw [exec, execConfig, config, unlessError_running he, if_neg (not_not_intro hm), if_neg (mt (configChecks_all_iff _ s).1 hc),
    raising_eq]

theorem exec_config_passes (hm : s.status.mode = .idle) (hc : configPasses blockParams s) :
    exec .config s = .next (configured s) := by
  rw [exec, execConfig, config, unlessError_running he, if_neg (not_not_intro hm), if_pos ((configChecks_all_iff _ s).2 hc)]

/-! ### ABORT and IOFAIL (43_control.md R223, R224) -/

theorem exec_abort : exec .abort s = .next { s with status := statusClose s.status } := unlessError_running he _

theorem exec_iofail : exec .iofail s = .next (raise .ioError s) := unlessError_running he _

end

/-- A closed stream is not changed by closing it (43_control.md R223). -/
theorem statusClose_idle {t : Status} (h : t.mode = .idle) : statusClose t = t := by
  rw [statusClose, ← h]

/-! ### The reset values (10_state.md R21, R24; 70_reset_and_hazards.md R290) -/

theorem registersReset_reset : registersReset State.reset := by
  unfold registersReset
  decide

/-- SRESET and the hardware reset take every register from the power-on state. -/
theorem registersReset_resetRegisters (s : State) : registersReset (resetRegisters s) := registersReset_reset

theorem registersReset_powerOn (s : State) : registersReset (powerOn s) := registersReset_reset

/-- A well-formed command has one word, its own (30_encoding.md R95, R96). -/
theorem decode_eq_ok_iff_eq_encode {w : Word} {i : Instr} (hi : i.wellFormed = true) : decode w = .ok i ↔ w = encode i :=
  ⟨eq_encode_of_decode, fun hw => hw ▸ decode_encode hi⟩

/-! ### The obligations -/

/-- Settles O39: the three branches of CONFIG, and past the checks the sizes are those of a valid geometry. -/
theorem configComputesGeometry : Obligations.ConfigComputesGeometry := by
  refine ⟨formatN_of_row rfl (by decide), fun s he => ⟨exec_config_open he, exec_config_fails he, fun hm hok => ?passes⟩⟩
  case passes =>
    have hgeo : (configured s).GeometryValid blockParams := configured_geometryValid hok
    have hgrid := hgeo.grid_eq
    have hcap := hgeo.cap_eq
    rw [hgeo.gridw_eq, hgeo.gridh_eq] at hgrid
    rw [hgrid] at hcap
    have hfour : 4 ≤ (configured s).grid.toNat := by
      have := hgeo.grid_four
      have := hgeo.cap_pos
      omega
    exact ⟨configured s, exec_config_passes he hm hok, rfl, hgeo.gridw_eq, hgeo.gridh_eq, hgrid, hcap, hfour, hgeo.cap_pos⟩

/-- Settles O38: NOP is the one command but SRESET that the error gate does not guard, and it answers its own state. -/
theorem nopChangesNothing : Obligations.NopChangesNothing :=
  ⟨formatN_of_row rfl (by decide), fun _ => rfl⟩

/-- Settles O40: with ERR = 0 the command closes the stream, and a closed one stays as it is. -/
theorem abortClosesStream : Obligations.AbortClosesStream := by
  refine ⟨formatN_of_row rfl (by decide), fun s he => ⟨exec_abort he, fun hm => ?_⟩⟩
  rw [exec_abort he, statusClose_idle hm]

/-- Settles O41: with ERR = 0 the command is the error latch with IO_ERROR, whatever MODE holds. -/
theorem iofailLatchesIoError : Obligations.IofailLatchesIoError :=
  ⟨formatN_of_row rfl (by decide), fun _ he => exec_iofail he⟩

/-- Settles O42: SRESET and the hardware reset are `resetRegisters`, and power-on differs from them in the memories alone. -/
theorem resetsRestoreEveryRegister : Obligations.ResetsRestoreEveryRegister := by
  have hword : ∀ w : Word, decode w = .ok .sreset ↔ w = 0x0000000F#32 := fun _ => decode_eq_ok_iff_eq_encode (i := .sreset) rfl
  refine ⟨registersReset_reset, rfl, hword, fun s => ⟨resetRegisters s, powerOn s, ?_⟩⟩
  exact ⟨runCommand_decoded ((hword _).2 rfl) s, rfl, hostAccess_hardReset _ s, registersReset_resetRegisters s, rfl, rfl, rfl,
    hostAccess_powerOn _ s, registersReset_powerOn s⟩

end Sys2Proof.Machine
end

section
/-! Errors: the first check of a command's row that fails is the error it raises, the latch is all it then changes, and nothing runs
while an error is latched (60_exceptions.md R251, R252, R254, R255, R257). -/

namespace Sys2Proof.Machine

/-! ### The first failing check of each command (60_exceptions.md R254) -/

/-- What a command answers by its first failing check: the latch with that check's error, where reads may have used draws (log 2),
or with no failing check a state with ERR = 0. -/
def answersCheck (failed : Option ErrCode) (s : State) (o : Host.Outcome State Fault Refusal) : Prop :=
  match failed with
  | some e => ∃ d, o = .next (raise e { s with draws := d })
  | none => ∃ t, o = .next t ∧ t.status.err = false

theorem answersCheck_raise {e : ErrCode} {s : State} {o : Host.Outcome State Fault Refusal} (h : o = .next (raise e s)) :
    answersCheck (some e) s o := ⟨s.draws, h⟩

theorem answersCheck_next {s t : State} {o : Host.Outcome State Fault Refusal} (h : o = .next t) (ht : t.status.err = false) :
    answersCheck none s o := ⟨t, h, ht⟩

/-- In IDLE the row of CONFIG names CONFIG_ERROR exactly when one of the six checks fails (43_control.md R222). -/
theorem errorOf_config_idle (p : Params) {s : State} (hm : s.status.mode = .idle) :
    configPasses p s ∧ errorOf p .config s = none ∨ ¬ configPasses p s ∧ errorOf p .config s = some .configError := by
  have hthresh : s.thresh = 255 ↔ ¬ s.thresh.toNat ≤ 254 := by bv_omega
  have hzero : ∀ v : Half, v = 0 ↔ v.toNat = 0 := fun v => by bv_omega
  simp only [errorOf, hm, ne_eq, not_true_eq_false, if_false, configPasses, hthresh, hzero]
  split_ifs with hc
  · exact .inr ⟨by omega, rfl⟩
  · exact .inl ⟨by omega, rfl⟩

section
variable {s : State} (he : s.status.err = false)
include he

theorem config_answersCheck : answersCheck (errorOf blockParams .config s) s (exec .config s) := by
  by_cases hm : s.status.mode = .idle
  case pos =>
    obtain ⟨hc, h⟩ | ⟨hc, h⟩ := errorOf_config_idle blockParams hm <;> rw [h]
    · exact answersCheck_next (exec_config_passes he hm hc) he
    · exact answersCheck_raise (exec_config_fails he hm hc)
  case neg =>
    rw [errorOf, if_pos hm]
    exact answersCheck_raise (exec_config_open he hm)

theorem symcolor_answersCheck {cls : BitVec 3} (hcls : cls.toNat ≤ 4) :
    answersCheck (errorOf blockParams (.symcolor cls) s) s (exec (.symcolor cls) s) := by
  obtain ⟨c, hc, -⟩ := classOfCode_isSome hcls
  exact answersCheck_next ((unlessError_running he _).trans (withClass_legal hc s _)) he

theorem wrblk_answersCheck (hs : s.Inv blockParams) {cls : BitVec 3} (hcls : cls.toNat ≤ 4) :
    answersCheck (errorOf blockParams (.wrblk cls) s) s (exec (.wrblk cls) s) := by
  obtain ⟨c, hc, -⟩ := classOfCode_isSome hcls
  rw [exec, execWrblk, wrblk, unlessError_running he, withClass_legal hc, errorOf]
  split_ifs with hv hg
  · exact answersCheck_raise (withBlock_unconfigured hv _)
  · exact answersCheck_raise (withBlock_range (Bool.eq_true_of_not_eq_false hv) hg _)
  · have hv := Bool.eq_true_of_not_eq_false hv
    have hg := Nat.lt_of_not_le hg
    rw [withBlock_ok hv hg, fillBlock_ok (hs.geometry hv) hg]
    exact answersCheck_next rfl he

theorem rdblk_answersCheck (hs : s.Inv blockParams) : answersCheck (errorOf blockParams .rdblk s) s (exec .rdblk s) := by
  obtain ⟨hunset, hrange, hread⟩ := rdblkClassifiesSample.2 s he
  rw [errorOf]
  split_ifs with hv hg
  · exact answersCheck_raise (hunset hv)
  · exact answersCheck_raise (hrange (Bool.eq_true_of_not_eq_false hv) hg)
  · have hv := Bool.eq_true_of_not_eq_false hv
    obtain ⟨_, _, hexec, -⟩ := hread hv (Nat.lt_of_not_le hg) (hs.geometry hv)
    exact answersCheck_next hexec he

theorem encStart_answersCheck : answersCheck (errorOf blockParams .encStart s) s (exec .encStart s) := by
  obtain ⟨hopen, hunset, hrange, hstart⟩ := encStartOpensStream.2 s he
  rw [errorOf]
  split_ifs with hc hlen
  · by_cases hm : s.status.mode = .idle
    · exact answersCheck_raise (hunset hm (hc.resolve_left (not_not_intro hm)))
    · exact answersCheck_raise (hopen hm)
  all_goals
    obtain ⟨hm, hv⟩ := not_or.1 hc
    have hm := not_not.1 hm
    have hv := Bool.eq_true_of_not_eq_false hv
  · exact answersCheck_raise (hrange hm hv hlen)
  · exact answersCheck_next (hstart hm hv (Nat.le_of_not_lt hlen)) he

theorem encFrame_answersCheck (hs : s.Inv blockParams) :
    answersCheck (errorOf blockParams .encFrame s) s (exec .encFrame s) := by
  rw [errorOf]
  split_ifs with hm
  · exact answersCheck_raise (exec_encFrame_outside he hm)
  · have hm := not_not.1 hm
    have hgeo := hs.geometry (hs.open_config (by simp [hm]))
    exact answersCheck_next (encFrame_ok he hm hgeo (hs.src_len_le hm) (hs.src_pos_le hm)) (by simpa using he)

theorem decStart_answersCheck : answersCheck (errorOf blockParams .decStart s) s (exec .decStart s) := by
  obtain ⟨hopen, hunset, hstart⟩ := decStartOpensStream.2 s he
  rw [errorOf]
  split_ifs with hc
  · by_cases hm : s.status.mode = .idle
    · exact answersCheck_raise (hunset hm (hc.resolve_left (not_not_intro hm)))
    · exact answersCheck_raise (hopen hm)
  · obtain ⟨hm, hv⟩ := not_or.1 hc
    exact answersCheck_next (hstart (not_not.1 hm) (Bool.eq_true_of_not_eq_false hv)) he

theorem decFrame_answersCheck (hs : s.Inv blockParams) :
    answersCheck (errorOf blockParams .decFrame s) s (exec .decFrame s) := by
  obtain ⟨hopen, hformat, happend⟩ := decFrameAppendsChunk.2 s he
  rw [errorOf]
  split_ifs with hm hd hdim
  · exact answersCheck_raise (hopen hm)
  · exact answersCheck_next (framesAfterEndAreIgnored s (not_not.1 hm) hd) he
  · exact answersCheck_raise (hformat (not_not.1 hm) (Bool.eq_false_of_not_eq_true hd) hdim)
  · obtain ⟨hw, hh⟩ := not_or.1 hdim
    obtain ⟨chunk, reached, d, hdec, -, hfull, hfit⟩ :=
      happend (not_not.1 hm) (Bool.eq_false_of_not_eq_true hd) (not_not.1 hw) (not_not.1 hh) hs
    simp only [hdec]
    split_ifs with hlen
    · exact ⟨d, hfull hlen⟩
    · obtain ⟨_, hexec, -⟩ := hfit (Nat.le_of_not_lt hlen)
      exact answersCheck_next hexec he

theorem decEnd_answersCheck : answersCheck (errorOf blockParams .decEnd s) s (exec .decEnd s) := by
  obtain ⟨hopen, hmissing, hclose⟩ := decEndClosesStream.2 s he
  rw [errorOf]
  split_ifs with hm hd
  · exact answersCheck_raise (hopen hm)
  · exact answersCheck_raise (hmissing (not_not.1 hm) hd)
  · exact answersCheck_next (hclose (not_not.1 hm) (Bool.eq_true_of_not_eq_false hd)) he

/-- A legal command in a state that meets the invariant answers by the first failing check of its row. -/
theorem exec_answersCheck (hs : s.Inv blockParams) {i : Instr} (hi : i.wellFormed = true) :
    answersCheck (errorOf blockParams i s) s (exec i s) := by
  cases i with
  | nop => exact answersCheck_next rfl he
  | config => exact config_answersCheck he
  | abort => exact answersCheck_next (exec_abort he) he
  | iofail => exact answersCheck_raise (exec_iofail he)
  | sreset => exact answersCheck_next (t := resetRegisters s) rfl rfl
  | pack => exact answersCheck_next (exec_pack_running he) he
  | unpack => exact answersCheck_next (exec_unpack_running he) he
  | symcolor cls => exact symcolor_answersCheck he (of_decide_eq_true hi)
  | classify => exact answersCheck_next (unlessError_running he _) he
  | wrblk cls => exact wrblk_answersCheck he hs (of_decide_eq_true hi)
  | rdblk => exact rdblk_answersCheck he hs
  | encStart => exact encStart_answersCheck he
  | encFrame => exact encFrame_answersCheck he hs
  | decStart => exact decStart_answersCheck he
  | decFrame => exact decFrame_answersCheck he hs
  | decEnd => exact decEnd_answersCheck he

end

/-- What the answer says of STATUS and ERR_SEQ: the failing check's error is latched at the current frame, and with none ERR = 0. -/
theorem answersCheck_latch {failed : Option ErrCode} {s : State} {o : Host.Outcome State Fault Refusal}
    (h : answersCheck failed s o) :
    ∃ t, o = .next t ∧ (∀ e, failed = some e → t.status.err = true ∧ t.status.errCode = e ∧ t.errSeq = s.seq) ∧
      (failed = none → t.status.err = false) := by
  cases failed with
  | none =>
    obtain ⟨t, ho, ht⟩ := h
    exact ⟨t, ho, nofun, fun _ => ht⟩
  | some e =>
    obtain ⟨d, ho⟩ := h
    exact ⟨_, ho, fun _ h => ⟨rfl, Option.some.inj h, rfl⟩, nofun⟩

/-! ### The obligations -/

/-- Settles O46: the error gate, for commands and for the words written to CMD. -/
theorem nothingRunsWhileErrorLatched : Obligations.NothingRunsWhileErrorLatched :=
  fun _ he => ⟨fun _ _ hi => exec_latched he hi, fun _ hw => runCommand_latched he hw⟩

/-- Settles O44: a command that ends with ERR = 1 did not have its own effect, so it raised an error. -/
theorem errorsArePrecise : Obligations.ErrorsArePrecise := by
  intro i s t h he ht
  obtain ⟨e, d, hne, -, hd, rfl⟩ | heff := exec_running_cases he h
  · exact ⟨e, d, hne, hd, rfl⟩
  · rw [commandEffect_err he heff] at ht
    cases ht

/-- Settles O45: the decode procedure for latched and illegal words, and `exec_answersCheck` for the command a word decodes to. -/
theorem firstFailingCheckIsRaised : Obligations.FirstFailingCheckIsRaised := by
  intro w s hs
  obtain ⟨hlatched, hillegal, -⟩ := commandWordProcedure w s
  refine ⟨hlatched, hillegal, fun he i hi => ?_⟩
  rw [runCommand_decoded hi]
  exact answersCheck_latch (exec_answersCheck he hs (wellFormed_of_decode hi))

end Sys2Proof.Machine
end

section
/-! The BUSY gate of a host access: what passes it while BUSY = 1, and that nothing else is given a value
(70_reset_and_hazards.md R297). -/

namespace Sys2Proof.Machine

/-- The accesses let through while BUSY = 1: a word read of STATUS, and the two resets. -/
theorem allowedWhileBusy_iff (a : HostAccess) :
    allowedWhileBusy a = true ↔ a = .readReg (regOffset .status) 4 ∨ a = .hardReset ∨ a = .powerOn := by
  cases a <;> simp [allowedWhileBusy]

/-- Every other access is refused, whatever it asks for. -/
theorem hostAccess_busy_refused {s : State} (hb : s.status.busy = true) (p : Params) {a : HostAccess}
    (ha : ¬ allowedWhileBusy a = true) : hostAccess p a s = .refused .accessWhileBusy := by
  simp [hostAccess, hb, ha]

/-- A read of STATUS is answered whether BUSY = 1 or not, and puts the status word on the bus. -/
theorem hostAccess_readReg_status (p : Params) (s : State) :
    hostAccess p (.readReg (regOffset .status) 4) s = .next { s with busData := statusWord s.status } := by
  have hallowed : allowedWhileBusy (.readReg (regOffset .status) 4) = true := (allowedWhileBusy_iff _).2 (.inl rfl)
  have hcycle : wordCycle (regOffset .status) 4 := ⟨rfl, regOffset_aligned .status⟩
  simp [hostAccess, hallowed, hcycle, regValue]

/-- Settles O59: BUSY = 0 is part of the invariant, and while BUSY = 1 the gate lets only a read of STATUS and the resets through. -/
theorem accessWhileBusyIsRefused : Obligations.AccessWhileBusyIsRefused := by
  refine ⟨fun _ hs => hs.not_busy, fun s a hb => ⟨fun hstatus hhard hpower => ?refused, hostAccess_readReg_status _ s⟩⟩
  case refused =>
    refine hostAccess_busy_refused hb _ fun hallowed => ?_
    obtain h | h | h := (allowedWhileBusy_iff a).1 hallowed
    · exact hstatus h
    · exact hhard h
    · exact hpower h

end Sys2Proof.Machine
end

section
/-! Decode and encode agree (30_encoding.md R91 to R97). -/

namespace Sys2Proof.Machine

/-- Settles O1: the decoder answers well-formed commands on their own words alone, and reads each of them back. -/
theorem decodeInvertsEncode : Obligations.DecodeInvertsEncode := fun _ _ =>
  ⟨fun h => ⟨wellFormed_of_decode h, (eq_encode_of_decode h).symm⟩, fun ⟨hwf, hw⟩ => hw ▸ decode_encode hwf⟩

end Sys2Proof.Machine
end

section
/-! The invariant of reachable states: what each operation of a step must show to keep it, then the commands, the host accesses and
the step (10_state.md R25, R31, R32, R37, R39 to R42; 20_memory.md R60). -/

namespace Sys2Proof.Machine

/-! ### The state after reset -/

theorem reset_inv (p : Params) : State.reset.Inv p where
  src_wf := .nil
  rast_wf := .nil
  acc_wf := .nil
  src_inside := nofun
  rast_inside := nofun
  acc_inside := nofun
  geometry := nofun
  derived_clear _ := ⟨rfl, rfl, rfl, rfl⟩
  open_config h := absurd rfl h
  src_len_le := nofun
  src_pos_le := nofun
  enc_open := nofun
  dec_open := nofun
  acc_len_le := Nat.zero_le _
  err_code := ⟨fun _ => rfl, fun _ => rfl⟩
  err_idle := nofun
  not_busy := rfl

/-! ### Operations that keep the invariant -/

/-- The registers that a valid geometry speaks of. -/
def geometryOf (s : State) : (Half × Half × Half × Byte) × Word × Word × Word × Word :=
  ((s.width, s.height, s.bsize, s.thresh), s.gridw, s.gridh, s.grid, s.cap)

theorem geometryValid_of_eq {p : Params} {s t : State} (hs : s.GeometryValid p) (h : geometryOf t = geometryOf s) :
    t.GeometryValid p := by
  simp only [geometryOf, Prod.mk.injEq] at h
  obtain ⟨⟨hw, hh, hb, ht⟩, hgw, hgh, hg, hc⟩ := h
  exact GeometryValid_congr hs hw hh hb ht hgw hgh hg hc

namespace State.Inv

section
variable {p : Params} {s : State} (hs : s.Inv p)
include hs

/-- The invariant does not speak of the operands, the results, the counters of a stream and the model's own fields. -/
theorem unconstrained (seq chunkLen errSeq arg result busData : Word) (inWidth inHeight : Half) (draws : Nat)
    (pending : List HostAccess) :
    State.Inv p { s with
      seq := seq, chunkLen := chunkLen, errSeq := errSeq, arg := arg, result := result, busData := busData
      inWidth := inWidth, inHeight := inHeight, draws := draws, pending := pending } :=
  { hs with geometry := fun hv => geometryValid_of_eq (hs.geometry hv) rfl }

theorem mem_wf (sp : Space) : (s.mem sp).wf := by
  cases sp with
  | src => exact hs.src_wf
  | rast => exact hs.rast_wf
  | acc => exact hs.acc_wf

theorem mem_inside (sp : Space) : (s.mem sp).inside (spaceBytes p sp) := by
  cases sp with
  | src => exact hs.src_inside
  | rast => exact hs.rast_inside
  | acc => exact hs.acc_inside

theorem setMem (sp : Space) {m : Memory} (hwf : m.wf) (hin : m.inside (spaceBytes p sp)) : (s.setMem sp m).Inv p := by
  have hgeo (hv : s.status.cfgValid = true) : (s.setMem sp m).GeometryValid p :=
    geometryValid_of_eq (hs.geometry hv) (by simp [geometryOf])
  cases sp with
  | src => exact { hs with geometry := hgeo, src_wf := hwf, src_inside := hin }
  | rast => exact { hs with geometry := hgeo, rast_wf := hwf, rast_inside := hin }
  | acc => exact { hs with geometry := hgeo, acc_wf := hwf, acc_inside := hin }

/-- With no stream open the invariant asks of STATUS that CFG_VALID is as it was, ERR agrees with ERRCODE, and BUSY = 0. -/
theorem idle {st : Status} (hm : st.mode = .idle) (hv : st.cfgValid = s.status.cfgValid)
    (herr : st.err = false ↔ st.errCode = .none) (hb : st.busy = false) : State.Inv p { s with status := st } :=
  { hs with
    geometry := fun h => geometryValid_of_eq (hs.geometry (hv.symm.trans h)) rfl
    derived_clear := fun h => hs.derived_clear (hv.symm.trans h)
    open_config := fun h => absurd hm h
    src_len_le := fun h => nomatch hm.symm.trans h
    src_pos_le := fun h => nomatch hm.symm.trans h
    enc_open := fun h => nomatch hm.symm.trans h
    dec_open := fun h => nomatch hm.symm.trans h
    err_code := herr
    err_idle := fun _ => hm
    not_busy := hb }

theorem raised {e : ErrCode} (he : e ≠ .none) : (raise e s).Inv p :=
  (hs.idle (st := (raise e s).status) rfl rfl ⟨nofun, fun h => absurd h he⟩ hs.not_busy).unconstrained ..

theorem closed : State.Inv p { s with status := statusClose s.status } :=
  hs.idle (st := statusClose s.status) rfl rfl hs.err_code hs.not_busy

theorem hardReset : (resetRegisters s).Inv p :=
  { reset_inv p with
    src_wf := hs.src_wf
    rast_wf := hs.rast_wf
    acc_wf := hs.acc_wf
    src_inside := hs.src_inside
    rast_inside := hs.rast_inside
    acc_inside := hs.acc_inside
    geometry := nofun }

/-- CONFIG, past its checks (43_control.md R221). -/
theorem configuration (hc : configPasses p s) : (configured s).Inv p :=
  { hs with
    geometry := fun _ => configured_geometryValid hc
    derived_clear := nofun
    open_config := fun _ => rfl }

/-- A write of a geometry register with no stream open clears the configuration (10_state.md R50). -/
theorem geometryCleared (hm : s.status.mode = .idle) (w h b : Half) (t : Byte) :
    (clearDerived { s with width := w, height := h, bsize := b, thresh := t }).Inv p :=
  { hs with
    geometry := nofun
    derived_clear := fun _ => ⟨rfl, rfl, rfl, rfl⟩
    open_config := fun h => absurd hm h }

theorem openedEncode (he : s.status.err = false) (hv : s.status.cfgValid = true) (hlen : s.srcLen.toNat ≤ p.srcBytes) :
    State.Inv p { s with srcPos := 0, status := statusOpenEncode s.status } :=
  { hs with
    geometry := fun h => geometryValid_of_eq (hs.geometry h) rfl
    open_config := fun _ => hv
    src_len_le := fun _ => hlen
    src_pos_le := fun _ => Nat.zero_le _
    enc_open := fun _ => ⟨rfl, rfl⟩
    dec_open := nofun
    err_idle := fun h => nomatch he.symm.trans h }

theorem openedDecode (he : s.status.err = false) (hv : s.status.cfgValid = true) :
    State.Inv p { s with accLen := 0, status := statusOpenDecode s.status } :=
  { hs with
    geometry := fun h => geometryValid_of_eq (hs.geometry h) rfl
    open_config := fun _ => hv
    src_len_le := nofun
    src_pos_le := nofun
    enc_open := nofun
    dec_open := fun _ => rfl
    acc_len_le := Nat.zero_le _
    err_idle := fun h => nomatch he.symm.trans h }

/-- SRC_POS moves on by no more than what is left of the source (10_state.md R40). -/
theorem srcAdvanced {n : Nat} (hn : s.srcPos.toNat + n ≤ s.srcLen.toNat) :
    State.Inv p { s with srcPos := s.srcPos + BitVec.ofNat 32 n } :=
  { hs with
    geometry := fun h => geometryValid_of_eq (hs.geometry h) rfl
    src_pos_le := fun _ => by
      rw [word_add_ofNat, BitVec.toNat_ofNat]
      exact (Nat.mod_le _ _).trans hn }

/-- ACC_LEN moves on by no more than what is left of ACC (10_state.md R42). -/
theorem accAdvanced {n : Nat} (hn : s.accLen.toNat + n ≤ p.accBytes) :
    State.Inv p { s with accLen := s.accLen + BitVec.ofNat 32 n } :=
  { hs with
    geometry := fun h => geometryValid_of_eq (hs.geometry h) rfl
    acc_len_le := by
      rw [word_add_ofNat, BitVec.toNat_ofNat]
      exact (Nat.mod_le _ _).trans hn }

/-- A final chunk closes the encode stream, and no other sets DONE or FINAL (42_sequencer.md R184). -/
theorem statusEncoded (isFinal : Bool) : State.Inv p { s with status := statusEncoded isFinal s.status } := by
  cases isFinal with
  | true => exact hs.idle rfl rfl hs.err_code hs.not_busy
  | false => exact { hs with
      geometry := fun h => geometryValid_of_eq (hs.geometry h) rfl
      enc_open := fun h => ⟨(hs.enc_open h).1, rfl⟩ }

/-- In a decode stream not yet done DONE and SENT are written alike (42_sequencer.md R187). -/
theorem statusDecoded (hm : s.status.mode = .dec) (hd : s.status.done = false) (reached : Bool) :
    State.Inv p { s with status := statusDecoded reached s.status } :=
  { hs with
    geometry := fun h => geometryValid_of_eq (hs.geometry h) rfl
    enc_open := fun h => nomatch hm.symm.trans h
    dec_open := fun _ => by simp [hd] }

theorem afterEncode (hm : s.status.mode = .enc) : (afterEncode (nextChunkLength s) s).Inv p := by
  have hpos := hs.src_pos_le hm
  have hn : s.srcPos.toNat + nextChunkLength s ≤ s.srcLen.toNat := by
    unfold nextChunkLength
    omega
  exact ((hs.srcAdvanced hn).statusEncoded _).unconstrained ..

theorem afterDecode (hm : s.status.mode = .dec) (hd : s.status.done = false) {n : Nat} (hn : s.accLen.toNat + n ≤ p.accBytes)
    (reached : Bool) : (afterDecode n reached s).Inv p :=
  ((hs.accAdvanced hn).statusDecoded hm hd reached).unconstrained ..

theorem geometryWrite {store : State → State} (h : s.status.mode = .idle → (clearDerived (store s)).Inv p) :
    (geometryWrite s store).Inv p := by
  by_cases hm : s.status.mode = .idle
  · rw [geometryWrite_idle hm]
    exact h hm
  · rw [geometryWrite_open hm]
    exact hs

/-- A host store keeps the invariant (10_state.md R49 to R51). -/
theorem storeReg (r : Reg) (v : Word) : (storeReg r v s).Inv p := by
  cases r with
  | width | height | bsize | thresh =>
    rw [Machine.storeReg]
    exact hs.geometryWrite fun hm => hs.geometryCleared hm ..
  | srcLen =>
    rw [Machine.storeReg]
    split_ifs with hm
    · exact hs
    · exact { hs with
        geometry := fun h => geometryValid_of_eq (hs.geometry h) rfl
        src_len_le := fun h => absurd h hm
        src_pos_le := fun h => absurd h hm }
  | inWidth | inHeight | arg => exact hs.unconstrained ..
  | cmd | status | gridw | gridh | grid | cap | seq | srcPos | chunkLen | accLen | errSeq | result => exact hs

end

end State.Inv

theorem powerOn_inv (p : Params) (s : State) : (powerOn s).Inv p := (reset_inv p).unconstrained ..


/-! ### Every command -/

/-- A command that raised an error. -/
theorem State.Inv.commandRaises {p : Params} {i : Instr} {s t : State} (hs : s.Inv p) (h : commandRaises i s t) : t.Inv p := by
  obtain ⟨e, d, hne, -, -, rfl⟩ := h
  exact (hs.unconstrained (draws := d) ..).raised hne

section
variable {s t : State} (hs : s.Inv blockParams) (he : s.status.err = false)
include hs he

/-- A command has its own effect only when no check of its row fails (60_exceptions.md R254). -/
theorem errorOf_eq_none_of_effect {i : Instr} (hi : i.wellFormed = true) (h : exec i s = .next t) (heff : commandEffect i s t) :
    errorOf blockParams i s = none := by
  obtain ⟨u, hu, hlatch, -⟩ := answersCheck_latch (exec_answersCheck he hs hi)
  obtain rfl := Host.Outcome.next.inj (hu.symm.trans h)
  cases hfail : errorOf blockParams i s with
  | none => rfl
  | some e => exact nomatch (hlatch e hfail).1.symm.trans (commandEffect_err he heff)

theorem config_effect_keeps_inv (h : exec .config s = .next t) (heff : commandEffect .config s t) : t.Inv blockParams := by
  have hnone := errorOf_eq_none_of_effect hs he rfl h heff
  obtain rfl : t = configured s := heff
  have hm : s.status.mode = .idle := by
    by_contra hm
    rw [errorOf, if_pos hm] at hnone
    cases hnone
  obtain ⟨hc, -⟩ | ⟨-, hfail⟩ := errorOf_config_idle blockParams hm
  · exact hs.configuration hc
  · exact nomatch hnone.symm.trans hfail

theorem wrblk_keeps_inv {cls : BitVec 3} (h : exec (.wrblk cls) s = .next t) : t.Inv blockParams := by
  rw [exec, execWrblk, wrblk, unlessError_running he] at h
  obtain h | ⟨c, h⟩ := withClass_cases he h
  · exact hs.commandRaises (commandRaises_of_raising (i := .wrblk cls) (by decide) h)
  · obtain ⟨e, hne, h⟩ | ⟨g, h⟩ := withBlock_cases h
    · exact hs.commandRaises (commandRaises_of_raising (i := .wrblk cls) hne h)
    · obtain ⟨u, hu, h⟩ := orFault_next h
      obtain rfl := Host.Outcome.next.inj h
      obtain ⟨rfl, hin⟩ := fillBlock_cases hu
      exact hs.setMem .rast (writeWords_wf _ _ hs.rast_wf) (writeWords_inside _ _ hs.rast_inside hin)

theorem encStart_effect_keeps_inv (h : exec .encStart s = .next t) (heff : commandEffect .encStart s t) : t.Inv blockParams := by
  have hnone := errorOf_eq_none_of_effect hs he rfl h heff
  obtain rfl := heff
  rw [errorOf] at hnone
  split_ifs at hnone with hc hlen
  obtain ⟨-, hv⟩ := not_or.1 hc
  exact (hs.openedEncode he (Bool.eq_true_of_not_eq_false hv) (Nat.le_of_not_lt hlen)).unconstrained ..

theorem decStart_effect_keeps_inv (h : exec .decStart s = .next t) (heff : commandEffect .decStart s t) : t.Inv blockParams := by
  have hnone := errorOf_eq_none_of_effect hs he rfl h heff
  obtain rfl := heff
  rw [errorOf] at hnone
  split_ifs at hnone with hc
  obtain ⟨-, hv⟩ := not_or.1 hc
  exact (hs.openedDecode he (Bool.eq_true_of_not_eq_false hv)).unconstrained ..

theorem encFrame_keeps_inv (h : exec .encFrame s = .next t) : t.Inv blockParams := by
  by_cases hm : s.status.mode = .enc
  case pos =>
    have hgeo := hs.geometry (hs.open_config (by simp [hm]))
    obtain rfl := Host.Outcome.next.inj ((encFrame_ok he hm hgeo (hs.src_len_le hm) (hs.src_pos_le hm)).symm.trans h)
    have hraster := hs.setMem .rast (writeBlocks_wf s _ (List.range s.grid.toNat) hs.rast_wf)
      (writeBlocks_inside hgeo (s.src.readBytes s.srcPos.toNat (nextChunkLength s) s.draws).1 _ (fun _ hg => List.mem_range.1 hg)
        hs.rast_inside)
    exact (hraster.unconstrained ..).afterEncode hm
  case neg =>
    obtain rfl := Host.Outcome.next.inj ((exec_encFrame_outside he hm).symm.trans h)
    exact hs.raised (by decide)

theorem decFrame_effect_keeps_inv (h : exec .decFrame s = .next t) (heff : commandEffect .decFrame s t) : t.Inv blockParams := by
  have hnone := errorOf_eq_none_of_effect hs he rfl h heff
  rw [errorOf] at hnone
  split_ifs at hnone with hm hd hdim
  · obtain rfl := Host.Outcome.next.inj ((framesAfterEndAreIgnored s (not_not.1 hm) hd).symm.trans h)
    exact hs
  · have hm := not_not.1 hm
    have hd := Bool.eq_false_of_not_eq_true hd
    obtain ⟨hw, hh⟩ := not_or.1 hdim
    obtain ⟨chunk, reached, d, -, -, ⟨-, rfl⟩ | ⟨hfit, rfl⟩⟩ := decFrame_cases he hm hd (not_not.1 hw) (not_not.1 hh) h
    · exact (hs.unconstrained (draws := d) ..).raised (by decide)
    · have hacc := hs.setMem .acc (writeBytes_wf chunk hs.acc_wf _) (writeBytes_inside _ chunk _ hs.acc_inside (.inr hfit))
      exact (hacc.unconstrained (draws := d) ..).afterDecode hm hd hfit reached

theorem commandEffect_keeps_inv {i : Instr} (h : exec i s = .next t) (heff : commandEffect i s t) : t.Inv blockParams := by
  cases i with
  | nop => obtain rfl := heff; exact hs
  | config => exact config_effect_keeps_inv hs he h heff
  | abort | decEnd => obtain rfl := heff; exact hs.closed
  | iofail => exact heff.elim
  | sreset => obtain rfl := heff; exact hs.hardReset
  | pack | unpack | symcolor | classify => obtain ⟨_, rfl⟩ := heff; exact hs.unconstrained ..
  | wrblk cls => exact wrblk_keeps_inv hs he h
  | rdblk => obtain ⟨_, _, -, rfl⟩ := heff; exact hs.unconstrained ..
  | encStart => exact encStart_effect_keeps_inv hs he h heff
  | encFrame => exact encFrame_keeps_inv hs he h
  | decStart => exact decStart_effect_keeps_inv hs he h heff
  | decFrame => exact decFrame_effect_keeps_inv hs he h heff

end

section
variable {s t : State} (hs : s.Inv blockParams)
include hs

/-- Every command keeps the invariant. -/
theorem exec_keeps_inv {i : Instr} (h : exec i s = .next t) : t.Inv blockParams := by
  cases he : s.status.err with
  | false => exact (exec_running_cases he h).elim hs.commandRaises (commandEffect_keeps_inv hs he h)
  | true =>
    by_cases hi : i = .sreset
    · obtain rfl := hi
      obtain rfl := Host.Outcome.next.inj h
      exact hs.hardReset
    · obtain rfl := Host.Outcome.next.inj ((exec_latched he hi).symm.trans h)
      exact hs

theorem illegalCommand_keeps_inv (h : illegalCommand s = .next t) : t.Inv blockParams := by
  cases he : s.status.err with
  | false =>
    obtain rfl := Host.Outcome.next.inj ((illegalCommand_running he).symm.trans h)
    exact hs.raised (by decide)
  | true =>
    obtain rfl := Host.Outcome.next.inj ((illegalCommand_latched he).symm.trans h)
    exact hs

theorem runCommand_keeps_inv {w : Word} (h : runCommand w s = .next t) : t.Inv blockParams := by
  unfold runCommand at h
  split at h
  · exact illegalCommand_keeps_inv hs h
  · exact exec_keeps_inv hs h

/-- Every host access keeps the invariant. -/
theorem hostAccess_keeps_inv {a : HostAccess} (h : hostAccess blockParams a s = .next t) : t.Inv blockParams := by
  obtain ⟨_, -, rfl⟩ | ⟨_, v, -, -, h⟩ | ⟨_, _, -, rfl⟩ | ⟨sp, _, _, -, hx, rfl⟩ | ⟨-, rfl⟩ | ⟨-, rfl⟩ := hostAccess_cases h
  · exact hs.unconstrained ..
  · obtain rfl | ⟨-, h⟩ | ⟨r, -, rfl⟩ := writeOffset_cases h
    · exact hs
    · exact runCommand_keeps_inv hs h
    · exact hs.storeReg r v
  · exact hs.unconstrained ..
  · exact hs.setMem sp (write_wf (hs.mem_wf sp) _ _) (write_inside (hs.mem_inside sp) hx _)
  · exact hs.hardReset
  · exact powerOn_inv _ s

end

/-! ### Every command answers -/

/-- The commands whose class field is no class code (30_encoding.md R94). -/
theorem eq_of_illFormed {i : Instr} (h : i.wellFormed = false) :
    ∃ cls : BitVec 3, 4 < cls.toNat ∧ (i = .symcolor cls ∨ i = .wrblk cls) := by
  cases i with
  | symcolor cls => exact ⟨cls, Nat.lt_of_not_le (of_decide_eq_false h), .inl rfl⟩
  | wrblk cls => exact ⟨cls, Nat.lt_of_not_le (of_decide_eq_false h), .inr rfl⟩
  | _ => cases h

theorem exec_answers {s : State} (hs : s.Inv blockParams) (i : Instr) : ∃ t, exec i s = .next t := by
  cases he : s.status.err with
  | true =>
    by_cases hi : i = .sreset
    · exact ⟨resetRegisters s, hi ▸ rfl⟩
    · exact ⟨s, exec_latched he hi⟩
  | false =>
    cases hwf : i.wellFormed with
    | true =>
      obtain ⟨t, ht, -⟩ := answersCheck_latch (exec_answersCheck he hs hwf)
      exact ⟨t, ht⟩
    | false =>
      obtain ⟨cls, hcls, rfl | rfl⟩ := eq_of_illFormed hwf
      · exact ⟨_, exec_symcolor_illegal hcls he⟩
      · exact ⟨_, exec_wrblk_illegal hcls he⟩

theorem runCommand_answers {s : State} (hs : s.Inv blockParams) (w : Word) : ∃ t, runCommand w s = .next t := by
  unfold runCommand illegalCommand unlessError
  split
  · split <;> exact ⟨_, rfl⟩
  · exact exec_answers hs _

/-! ### Host accesses by their cycles (20_memory.md R61, R72) -/

theorem hostAccess_answers {s : State} (hs : s.Inv blockParams) {a : HostAccess} (ha : cycleDefined blockParams a) :
    ∃ t, hostAccess blockParams a s = .next t := by
  have hb := hs.not_busy
  cases a with
  | readReg off bytes =>
    obtain ⟨rfl, hoff⟩ := ha
    exact ⟨_, hostAccess_readReg hb _ hoff⟩
  | writeReg off bytes v =>
    obtain ⟨rfl, hoff⟩ := ha
    rw [hostAccess_writeReg hb _ hoff]
    by_cases hcmd : off = regOffset .cmd
    · rw [hcmd, writeOffset_cmd]
      exact runCommand_answers hs v
    · exact writeOffset_answers hcmd v s
  | readMem sp x => exact ⟨_, hostAccess_readMem hb ha⟩
  | writeMem sp x b => exact ⟨_, hostAccess_writeMem hb ha b⟩
  | hardReset => exact ⟨_, hostAccess_hardReset _ s⟩
  | powerOn => exact ⟨_, hostAccess_powerOn _ s⟩

theorem hostAccess_refuses {s : State} (hb : s.status.busy = false) {p : Params} {a : HostAccess} (ha : ¬ cycleDefined p a) :
    ∃ r, hostAccess p a s = .refused r := by
  cases a with
  | readReg off bytes => exact ⟨_, hostAccess_readReg_undefined hb p ha⟩
  | writeReg off bytes v => exact ⟨_, hostAccess_writeReg_undefined hb p ha v⟩
  | readMem sp x => exact ⟨_, hostAccess_readMem_outside hb (Nat.le_of_not_lt ha)⟩
  | writeMem sp x b => exact ⟨_, hostAccess_writeMem_outside hb (Nat.le_of_not_lt ha) b⟩
  | hardReset | powerOn => exact absurd trivial ha

/-! ### A step by the list of accesses (log 1) -/

theorem step_waits {s : State} (h : s.pending = []) : step s = .next s := by
  simp only [step, hostStep, h]

theorem step_access {s : State} {a : HostAccess} {rest : List HostAccess} (h : s.pending = a :: rest) :
    step s = hostAccess blockParams a { s with pending := rest } := by
  simp only [step, hostStep, h]

theorem State.Inv.popped {p : Params} {s : State} (hs : s.Inv p) (rest : List HostAccess) :
    State.Inv p { s with pending := rest } := hs.unconstrained ..

theorem step_command {s : State} {w : Word} {rest : List HostAccess} (h : s.pending = issue w :: rest)
    (hb : s.status.busy = false) : step s = runCommand w { s with pending := rest } :=
  (step_access h).trans (hostAccess_issue (s := { s with pending := rest }) hb _ w)

/-- A row of the opcode table decodes as its 32-bit word does. -/
theorem decode_of_decodeTableWord {nbits w : Nat} {i : Instr} (h : decodeTableWord nbits w = some i) :
    decode (BitVec.ofNat 32 (w % 2 ^ nbits)) = .ok i := by
  unfold decodeTableWord at h
  split at h
  · cases hd : decode (BitVec.ofNat 32 (w % 2 ^ nbits)) with
    | error e => rw [hd] at h; cases h
    | ok j => rw [hd] at h; exact congrArg _ (Option.some.inj h)
  · cases h

/-! ### The obligations -/

/-- Settles O9: a step waits or is one host access, and every host access keeps the invariant. -/
theorem stepKeepsInvariant : Obligations.StepKeepsInvariant := by
  intro s t hs h
  cases hp : s.pending with
  | nil =>
    obtain rfl := Host.Outcome.next.inj ((step_waits hp).symm.trans h)
    exact hs
  | cons a rest => exact hostAccess_keeps_inv (hs.popped rest) ((step_access hp).symm.trans h)

/-- Settles O6: the cycle of the next access is defined or not, and either way the step does not fault. -/
theorem stepAnswersDefinedCycles : Obligations.StepAnswersDefinedCycles := by
  intro s hs
  have hanswers (a rest) (hp : s.pending = a :: rest) (ha : cycleDefined blockParams a) : ∃ t, step s = .next t :=
    step_access hp ▸ hostAccess_answers (hs.popped rest) ha
  have hrefuses (a rest) (hp : s.pending = a :: rest) (ha : ¬ cycleDefined blockParams a) : ∃ r, step s = .refused r :=
    step_access hp ▸ hostAccess_refuses (hs.popped rest).not_busy ha
  refine ⟨fun f hf => ?noFault, step_waits, hanswers, hrefuses⟩
  case noFault =>
    cases hp : s.pending with
    | nil => exact nomatch hf.symm.trans (step_waits hp)
    | cons a rest =>
      by_cases ha : cycleDefined blockParams a
      · obtain ⟨t, ht⟩ := hanswers a rest hp ha
        exact nomatch hf.symm.trans ht
      · obtain ⟨r, hr⟩ := hrefuses a rest hp ha
        exact nomatch hf.symm.trans hr

/-- Settles O7: while ERR = 1 only SRESET runs, else a well-formed command answers by its row and an ill-formed one raises. -/
theorem engineAccessesStayInRange : Obligations.EngineAccessesStayInRange := fun i _ hs => exec_answers hs i

/-- Settles O5: `step_waits`, `step_access`, and `step_command` for the word of a command, decoded. -/
theorem stepRunsTheDecodedCommand : Obligations.StepRunsTheDecodedCommand := by
  refine ⟨fun _ => step_waits, fun _ _ _ => step_access, fun s w i rest hp hb hd => ?decoded, fun s w e rest hp hb hd => ?illegal,
    fun s w i hd => ?fetched⟩
  case decoded => rw [step_command hp hb, runCommand_decoded hd]
  case illegal => rw [step_command hp hb, runCommand, hd]
  case fetched =>
    have hdec : decode (BitVec.ofNat 32 (w % 2 ^ 32)) = .ok i := decode_of_decodeTableWord hd
    exact (step_command (s := s.withFetchWord 32 w) rfl rfl).trans (runCommand_decoded hdec _)

/-- Settles O8: no byte is written, no stream is open, the configuration is cleared, ERR = 0 and BUSY = 0. -/
theorem resetMeetsInvariant : Obligations.ResetMeetsInvariant := reset_inv blockParams

end Sys2Proof.Machine
end

section
/-! DEC_FRAME with room in ACC for a full chunk, and the memories over the three resets (42_sequencer.md R187;
70_reset_and_hazards.md R292). -/

namespace Sys2Proof.Machine

theorem resetRegisters_mem (s : State) (sp : Space) : (resetRegisters s).mem sp = s.mem sp := by cases sp <;> rfl

theorem reset_mem (sp : Space) : State.reset.mem sp = [] := by cases sp <;> rfl

theorem powerOn_mem (s : State) (sp : Space) : (powerOn s).mem sp = [] := by cases sp <;> rfl

/-! ### The obligations -/

/-- Settles O32: the decoded chunk has at most CAP bytes, so it fits, and it has CAP bytes unless a Sentinel was reached. -/
theorem decFrameCompletesWithRoom : Obligations.DecFrameCompletesWithRoom := by
  intro s hs he hm hd hw hh hroom
  obtain ⟨chunk, reached, d, hdec, -, hcap, hfull⟩ := decodeRaster_ok (hs.geometry (hs.open_config (by simp [hm])))
  have hfit : s.accLen.toNat + chunk.length ≤ blockParams.accBytes := by omega
  have hacc : s.accLen.toNat + chunk.length < 2 ^ 32 := by
    obtain ⟨-, -, -, hmax⟩ := blockParams_ok
    omega
  have hlen : (BitVec.ofNat 32 chunk.length).toNat = chunk.length := toNat_ofNat_word (by omega)
  refine ⟨_, (exec_decFrame_append he hm hd hw hh hdec).trans (appendChunk_ok (s := { s with draws := d }) hfit), he, hm, rfl,
    ?accLen, hlen.trans_le hcap, ?done, ?chunkLen, rfl, rfl⟩
  case accLen => rw [afterDecode_accLen, afterDecode_chunkLen, word_add_ofNat, toNat_ofNat_word hacc, hlen]
  case done => simp [hd]
  case chunkLen =>
    intro hsent
    exact BitVec.eq_of_toNat_eq (hlen.trans (hfull hsent))

/-- Settles O43: power-on leaves all three memories empty, the two other resets leave each as it is. -/
theorem resetsAndMemory : Obligations.ResetsAndMemory := by
  refine ⟨fun s => ⟨_, hostAccess_powerOn _ s, fun sp a => ?_⟩, fun sp a => ?_, fun s t h sp => ?_⟩
  · rw [powerOn_mem, read?_nil]
  · rw [reset_mem, read?_nil]
  · obtain rfl : resetRegisters s = t := h.elim Host.Outcome.next.inj fun h =>
      Host.Outcome.next.inj ((hostAccess_hardReset _ s).symm.trans h)
    exact resetRegisters_mem s sp

end Sys2Proof.Machine
end

section
/-! Draws: each read of a never-written byte takes the next one, and no step takes the count back (20_memory.md R66; log 2). -/

namespace Sys2Proof.Machine

/-! ### The reads of a range, byte by byte -/

/-- How many of the first `k` bytes from `a` have never been written. -/
def unwrittenBytes (m : Memory) (a k : Nat) : Nat := ((List.range k).filter fun i => m.read? (a + i) = none).length

theorem readByte_fst (m : Memory) (a d : Nat) : (m.readByte a d).1 = (m.read? a).getD (Config.freeByte d) := by
  unfold Memory.readByte
  cases m.read? a <;> rfl

/-- The first byte is counted by the draw its read takes. -/
theorem unwrittenBytes_succ (m : Memory) (a k d : Nat) :
    d + unwrittenBytes m a (k + 1) = (m.readByte a d).2 + unwrittenBytes m (a + 1) k := by
  have htail : ((fun i => decide (m.read? (a + i) = none)) ∘ Nat.succ) = fun i => decide (m.read? (a + 1 + i) = none) := by
    funext i
    simp only [Function.comp_apply, Nat.succ_eq_add_one, Nat.add_assoc, Nat.add_comm 1 i]
  unfold unwrittenBytes Memory.readByte
  rw [List.range_succ_eq_map, List.filter_cons, List.filter_map, htail]
  cases m.read? a with
  | some b => simp
  | none => simp [Nat.add_assoc, Nat.add_comm 1]

theorem readBytes_draws (m : Memory) : ∀ (n a d : Nat), (m.readBytes a n d).2 = d + unwrittenBytes m a n
  | 0, _, _ => rfl
  | n + 1, a, d => by rw [readBytes_succ, unwrittenBytes_succ]; exact readBytes_draws m n _ _

theorem readBytes_getElem? (m : Memory) : ∀ (n a d i : Nat), i < n →
    (m.readBytes a n d).1[i]? = some ((m.read? (a + i)).getD (Config.freeByte (d + unwrittenBytes m a i)))
  | n + 1, a, d, 0, _ => by
    rw [readBytes_succ, List.getElem?_cons_zero, readByte_fst]
    rfl
  | n + 1, a, d, i + 1, hi => by
    rw [readBytes_succ, List.getElem?_cons_succ, readBytes_getElem? m n _ _ i (Nat.lt_of_succ_lt_succ hi), unwrittenBytes_succ,
      Nat.add_assoc, Nat.add_comm 1 i]

theorem readByte_draws_le (m : Memory) (a d : Nat) : d ≤ (m.readByte a d).2 := by
  unfold Memory.readByte
  split
  · exact le_refl d
  · exact Nat.le_succ d

/-! ### The count over a step -/

theorem commandEffect_draws {i : Instr} {s t : State} (h : commandEffect i s t) : s.draws ≤ t.draws := by
  cases i with
  | nop | config | abort | sreset | encStart | decStart | decEnd => obtain rfl := h; exact le_refl _
  | iofail => exact h.elim
  | pack | unpack | symcolor | classify | wrblk => obtain ⟨_, rfl⟩ := h; exact le_refl _
  | rdblk | encFrame => obtain ⟨_, _, hd, rfl⟩ := h; exact hd
  | decFrame =>
    obtain rfl | ⟨_, _, _, _, hd, rfl⟩ := h
    · exact le_refl _
    · exact hd

theorem runCommand_draws {w : Word} {s t : State} (h : runCommand w s = .next t) : s.draws ≤ t.draws := by
  cases he : s.status.err with
  | false =>
    obtain ⟨_, _, -, hd, rfl⟩ | ⟨_, -, heff⟩ := runCommand_running_cases he h
    · exact hd
    · exact commandEffect_draws heff
  | true =>
    rw [(commandWordProcedure w s).1 he] at h
    split_ifs at h <;> obtain rfl := Host.Outcome.next.inj h <;> exact le_refl _

theorem hostAccess_draws {p : Params} {a : HostAccess} {s t : State} (h : hostAccess p a s = .next t) : s.draws ≤ t.draws := by
  obtain ⟨_, -, rfl⟩ | ⟨_, v, -, -, h⟩ | ⟨_, _, -, rfl⟩ | ⟨_, _, _, -, -, rfl⟩ | ⟨-, rfl⟩ | ⟨-, rfl⟩ := hostAccess_cases h
  · exact le_refl _
  · obtain rfl | ⟨-, h⟩ | ⟨r, -, rfl⟩ := writeOffset_cases h
    · exact le_refl _
    · exact runCommand_draws h
    · obtain ⟨-, -, -, -, -, hd⟩ := storeReg_frame r v s
      exact hd.ge
  · exact readByte_draws_le ..
  · exact (setMem_draws ..).ge
  · exact le_refl _
  · exact le_refl _

theorem step_draws {s t : State} (h : step s = .next t) : s.draws ≤ t.draws := by
  cases hp : s.pending with
  | nil =>
    obtain rfl := Host.Outcome.next.inj ((step_waits hp).symm.trans h)
    exact le_refl _
  | cons a rest => exact hostAccess_draws (s := { s with pending := rest }) ((step_access hp).symm.trans h)

/-! ### The obligation -/

/-- Settles O57: the draws of a range by induction on its bytes, and the count over a step by what a host access can do. -/
theorem unwrittenBytesAreFreshDraws : Obligations.UnwrittenBytesAreFreshDraws := by
  refine ⟨fun m n a d => ⟨readBytes_draws m n a d, readBytes_length m n a d, fun i hi => ?byte,
      fun b => ⟨read?_write_same m a b, fun x hx => read?_write_other m b hx⟩⟩,
    fun sp a n s t bs h => ?engine, fun s sp a hb ha hr => hostAccess_readMem_unwritten hb ha hr, fun s t h => step_draws h⟩
  case byte =>
    rw [readBytes_getElem? m n a d i hi]
    cases m.read? (a + i) <;> rfl
  case engine =>
    obtain ⟨-, hr⟩ := memRead_cases h
    obtain ⟨rfl, rfl⟩ := Prod.mk.inj hr
    rfl

end Sys2Proof.Machine
end

section
/-! Frames: which commands change each piece of state (10_state.md R55). -/

namespace Sys2Proof.Machine

/-- Settles O49: the fields that each command's effect, or the error latch, updates; while ERR = 1 only SRESET updates any. -/
theorem commandFrames : Obligations.CommandFrames := by
  intro i s t h
  cases he : s.status.err with
  | true =>
    by_cases hi : i = .sreset
    · obtain rfl := hi
      obtain rfl := Host.Outcome.next.inj h
      simp
    · obtain rfl := Host.Outcome.next.inj ((exec_latched he hi).symm.trans h)
      simp [he]
  | false =>
    obtain ⟨e, d, -, -, -, rfl⟩ | heff := exec_running_cases he h
    · simp
    · cases i with
      | nop | config | abort | sreset | encStart | decStart | decEnd => obtain rfl := heff; simp
      | iofail => exact heff.elim
      | pack | unpack | symcolor | classify | wrblk => obtain ⟨_, rfl⟩ := heff; simp
      | rdblk | encFrame => obtain ⟨_, _, -, rfl⟩ := heff; simp
      | decFrame =>
        obtain rfl | ⟨_, _, _, _, -, rfl⟩ := heff
        · simp
        · simp

end Sys2Proof.Machine
end
